-- ==== Sys2Proof/Word.lean ====
section
/-! DEFINITION. The word types of the block: register words (10_state R20: 32 bits), buffer bytes,
aperture offsets (20_memory R60: 22 bits) and bit strings (00_scope R12, first bit first). -/

namespace Sys2Proof

/-- A register value or bus word; bit 0 is the least significant bit (R10). -/
abbrev Word := BitVec 32

/-- A byte of IN_BUF or OUT_BUF (R34, R35). -/
abbrev Byte := BitVec 8

/-- A byte offset in the aperture (R60). -/
abbrev Offset := BitVec 22

/-- A bit string: its head is `c[0]`, the first bit emitted and the first consumed (R12). -/
abbrev Bits := List Bool

end Sys2Proof
end

