-- ==== Sys2Proof/Syntax.lean ====
section
/-! DEFINITION. The commands (30_encoding R92, one constructor per row of opcode_table.json), the
fields of a command word (R91) and the two codec variants (00_scope R13). -/

namespace Sys2Proof

/-- A command of the opcode map (R92). No command has an operand in its word (R93). -/
inductive Instr where
  | nop
  | rleRawEnc
  | rleRawDec
  | rleTxtEnc
  | rleTxtDec
  | hufRawEnc
  | hufRawDec
  | hufTxtEnc
  | hufTxtDec
  | hufRawTable
  | hufTxtTable
  | hufRawWeights
  | hufTxtWeights
  | bsPack
  | bsUnpack
  | lzRawEnc
  | lzRawDec
  | lzTxtEnc
  | lzTxtDec
  deriving DecidableEq, Repr

/-- The fields of a command word (R91). -/
structure CmdFields where
  /-- RSVD, bits [31:8]. -/
  rsvd : BitVec 24
  /-- FAMILY, bits [7:4]. -/
  family : BitVec 4
  /-- SUBOP, bits [3:2]. -/
  subop : BitVec 2
  /-- VARIANT, bit [1]: false raw, true text. -/
  variant : Bool
  /-- DIR, bit [0]: false encode, true decode. -/
  dir : Bool
  deriving DecidableEq, Repr

/-- The variant of a codec (R13, R91). -/
inductive Variant where
  | raw
  | text
  deriving DecidableEq, Repr

end Sys2Proof
end

