-- ==== Sys2Proof/WellFormed.lean ====
section
/-! DEFINITION. Which field combinations of a command word are legal (30_encoding R91, R95). An
`Instr` has no operand (R93), so every `Instr` is well-formed; what can be ill-formed is a word.
Each unused combination that R95 lists is a check of its own. -/

namespace Sys2Proof

/-- RSVD must be 0 (R91). -/
def CmdFields.rsvdClear (f : CmdFields) : Bool := f.rsvd == 0

/-- FAMILY 0x5 to 0xF is unused (R95). -/
def CmdFields.familyKnown (f : CmdFields) : Bool := decide (f.family.toNat < 5)

/-- FAMILY 0x0 with any other bit set is unused (R95). -/
def CmdFields.controlClear (f : CmdFields) : Bool :=
  f.family != 0 || (f.subop == 0 && !f.variant && !f.dir)

/-- FAMILY 0x1, 0x3, 0x4 with SUBOP != 0 is unused (R95). -/
def CmdFields.subopClear (f : CmdFields) : Bool :=
  !(f.family == 1 || f.family == 3 || f.family == 4) || f.subop == 0

/-- FAMILY 0x3 with VARIANT = 1 is unused (R95). -/
def CmdFields.bitStreamRaw (f : CmdFields) : Bool := f.family != 3 || !f.variant

/-- FAMILY 0x2 with SUBOP = 0b11 is unused (R95). -/
def CmdFields.huffmanSubop (f : CmdFields) : Bool := f.family != 2 || f.subop != 3

/-- FAMILY 0x2 with SUBOP in 0b01, 0b10 and DIR = 1 is unused: there is no table or weights decoder (R95). -/
def CmdFields.huffmanUnitEnc (f : CmdFields) : Bool :=
  f.family != 2 || !(f.subop == 1 || f.subop == 2) || !f.dir

/-- No combination of R95 and RSVD = 0. -/
def CmdFields.wf (f : CmdFields) : Bool :=
  f.rsvdClear && f.familyKnown && f.controlClear && f.subopClear && f.bitStreamRaw &&
    f.huffmanSubop && f.huffmanUnitEnc

end Sys2Proof
end

