-- ==== Sys2Proof/Decode.lean ====
section
/-! DEFINITION. Decoding a command word (30_encoding R94) by the opcode map of R92, total and
rejecting by name, and after it the encoder, written from the fields of R91. -/

namespace Sys2Proof

/-- Why a word is ILLEGAL (R94). -/
inductive Reject where
  /-- RSVD is not 0. -/
  | rsvdNotZero
  /-- OPCODE is not in the opcode map. -/
  | opcodeNotInMap
  deriving DecidableEq, Repr

/-- The opcode map (R92). -/
def opcodeMap : List (BitVec 8 × Instr) :=
  [(0x00, .nop),
   (0x10, .rleRawEnc), (0x11, .rleRawDec), (0x12, .rleTxtEnc), (0x13, .rleTxtDec),
   (0x20, .hufRawEnc), (0x21, .hufRawDec), (0x22, .hufTxtEnc), (0x23, .hufTxtDec),
   (0x24, .hufRawTable), (0x26, .hufTxtTable), (0x28, .hufRawWeights), (0x2A, .hufTxtWeights),
   (0x30, .bsPack), (0x31, .bsUnpack),
   (0x40, .lzRawEnc), (0x41, .lzRawDec), (0x42, .lzTxtEnc), (0x43, .lzTxtDec)]

/-- OPCODE = CMD[7:0] (R25). -/
def opcodeOf (w : Word) : BitVec 8 := w.extractLsb' 0 8

/-- Whether RSVD = CMD[31:8] is 0 (R25). -/
def rsvdOk (w : Word) : Bool := w.extractLsb' 8 24 == 0

/-- Decoding from what the engine latches of a word: its opcode and the result of the RSVD check
(R39, R94). -/
def decodeOp (opcode : BitVec 8) (ok : Bool) : Except Reject Instr :=
  if ok then
    match opcodeMap.lookup opcode with
    | some i => .ok i
    | none => .error .opcodeNotInMap
  else .error .rsvdNotZero

/-- Decoding a command word (R94); an error is ILLEGAL. -/
def decode (w : Word) : Except Reject Instr := decodeOp (opcodeOf w) (rsvdOk w)

/-- The fields of a word (R91). -/
def fieldsOf (w : Word) : CmdFields where
  rsvd := w.extractLsb' 8 24
  family := w.extractLsb' 4 4
  subop := w.extractLsb' 2 2
  variant := w.getLsbD 1
  dir := w.getLsbD 0

/-- The word with given fields: OPCODE = FAMILY*16 + SUBOP*4 + VARIANT*2 + DIR below RSVD (R91). -/
def wordOf (f : CmdFields) : Word :=
  f.rsvd ++ (f.family ++ (f.subop ++ (BitVec.ofBool f.variant ++ BitVec.ofBool f.dir)))

/-- The fields of a command: its family, sub-operation, variant and direction by the names of R91. -/
def fieldsFor : Instr → CmdFields
  | .nop => ⟨0, 0x0, 0, false, false⟩
  | .rleRawEnc => ⟨0, 0x1, 0, false, false⟩
  | .rleRawDec => ⟨0, 0x1, 0, false, true⟩
  | .rleTxtEnc => ⟨0, 0x1, 0, true, false⟩
  | .rleTxtDec => ⟨0, 0x1, 0, true, true⟩
  | .hufRawEnc => ⟨0, 0x2, 0, false, false⟩
  | .hufRawDec => ⟨0, 0x2, 0, false, true⟩
  | .hufTxtEnc => ⟨0, 0x2, 0, true, false⟩
  | .hufTxtDec => ⟨0, 0x2, 0, true, true⟩
  | .hufRawTable => ⟨0, 0x2, 1, false, false⟩
  | .hufTxtTable => ⟨0, 0x2, 1, true, false⟩
  | .hufRawWeights => ⟨0, 0x2, 2, false, false⟩
  | .hufTxtWeights => ⟨0, 0x2, 2, true, false⟩
  | .bsPack => ⟨0, 0x3, 0, false, false⟩
  | .bsUnpack => ⟨0, 0x3, 0, false, true⟩
  | .lzRawEnc => ⟨0, 0x4, 0, false, false⟩
  | .lzRawDec => ⟨0, 0x4, 0, false, true⟩
  | .lzTxtEnc => ⟨0, 0x4, 0, true, false⟩
  | .lzTxtDec => ⟨0, 0x4, 0, true, true⟩

/-- The command word of a command (R90, R91). -/
def encode (i : Instr) : Word := wordOf (fieldsFor i)

/-- What the decoder reads from a row of opcode_table.json: a command is one 32-bit bus word (R90),
whose bits the table numbers as the bus does; bits at and above `nbits` are 0. -/
def decodeTableWord (nbits w : Nat) : Option Instr :=
  (decode (BitVec.ofNat 32 (w % 2 ^ nbits))).toOption

end Sys2Proof
end

