-- ==== Sys2Proof/Machine/Bytes.lean ====
section
/-! DEFINITION. The byte order and bit order of every field (20_memory R66, 00_scope R11, R12):
big-endian byte sequences and most-significant-bit-first bit strings. -/

namespace Sys2Proof.Machine

/-- The byte with value `v mod 256`. -/
def byteOf (v : Nat) : Byte := BitVec.ofNat 8 v

/-- `be16(v)` for v < 2^16 (R11). -/
def be16 (v : Nat) : List Byte := [byteOf (v / 256), byteOf v]

/-- `be32(v)` for v < 2^32 (R11). -/
def be32 (v : Nat) : List Byte :=
  [byteOf (v / 2 ^ 24), byteOf (v / 2 ^ 16), byteOf (v / 2 ^ 8), byteOf v]

/-- `rd16` of two bytes, the first the more significant (R11). -/
def rd16 (a b : Byte) : Nat := a.toNat * 256 + b.toNat

/-- `rd32` of four bytes, the first the most significant (R11). -/
def rd32 (a b c d : Byte) : Nat :=
  a.toNat * 2 ^ 24 + b.toNat * 2 ^ 16 + c.toNat * 2 ^ 8 + d.toNat

/-- The whole byte sequence read as consecutive `rd32` words; none when its length is no multiple
of 4. -/
def words32 : List Byte → Option (List Nat)
  | [] => some []
  | a :: b :: c :: d :: rest => (words32 rest).map (rd32 a b c d :: ·)
  | _ => none

/-- `bits8(b)`: the bits of a byte, most significant first (R12). -/
def bits8 (b : Byte) : Bits :=
  [b.getLsbD 7, b.getLsbD 6, b.getLsbD 5, b.getLsbD 4,
   b.getLsbD 3, b.getLsbD 2, b.getLsbD 1, b.getLsbD 0]

/-- The byte whose bits are `b2[8j + t]`, t = 0 the most significant (R160). -/
def byteOfBits (a b c d e f g h : Bool) : Byte :=
  byteOf (a.toNat * 128 + b.toNat * 64 + c.toNat * 32 + d.toNat * 16 +
    e.toNat * 8 + f.toNat * 4 + g.toNat * 2 + h.toNat)

/-- A bit string whose length is a multiple of 8, grouped into bytes (R160); what is left of a
shorter tail is dropped. -/
def bytesOfBits : Bits → List Byte
  | a :: b :: c :: d :: e :: f :: g :: h :: rest => byteOfBits a b c d e f g h :: bytesOfBits rest
  | _ => []

/-- The concatenation of `bits8` of each byte (R161). -/
def bitsOfBytes (bytes : List Byte) : Bits := bytes.flatMap bits8

/-- `ceil(len / 8)` (R105, R163). -/
def ceilDiv8 (len : Nat) : Nat := (len + 7) / 8

end Sys2Proof.Machine
end

