-- ==== Sys2Proof/Config.lean ====
section
/-! DEFINITION. What one block instance fixes (00_scope R8) and the values the spec leaves open
(93_implementation_defined U1 to U6). An `opaque` constant has no body: nothing can evaluate it, so
a statement about the machine holds whatever its value is. -/

namespace Sys2Proof.Config

/-- The free number from which the instance's IN_CAP is made (R8, 92 P1; log 2). DESIGN CHOICE, safe. -/
opaque inCapDraw : Nat

/-- The free number from which the instance's OUT_CAP is made (R8, 92 P2; log 2). DESIGN CHOICE, safe. -/
opaque outCapDraw : Nat

/-- The capacity made from a free number: a multiple of 4 from 4 to 0x100000, and every such
number is one of them (R8). -/
def capOf (d : Nat) : Word := BitVec.ofNat 32 (4 * (d % 0x40000 + 1))

/-- The legal values of IN_CAP and OUT_CAP (R8). -/
def capLegal (c : Word) : Bool := c.toNat % 4 == 0 && decide (4 ≤ c.toNat) && decide (c.toNat ≤ 0x100000)

/-- One less than BUSY_STEPS, a draw for each command (R8, R141, U6; log 3). DESIGN CHOICE, safe. -/
opaque busySteps : Nat → Nat

/-- How many host accesses come before the engine's next step, a draw at the acceptance and at each
wait step (R71, R144; log 4). DESIGN CHOICE, safe. -/
opaque hostTurns : Nat → Nat

/-- What a read of OUT_LEN or OUT_BUF while BUSY = 1 returns, a fresh draw at each read
(R32, R35, U1, U2; log 7). DESIGN CHOICE, safe. -/
opaque busyRead : Nat → Word

/-- The byte at an index of a buffer that holds an unspecified value, for the draw at which it became
unspecified (R34, R35, R142, U3 to U5; logs 5 and 6). DESIGN CHOICE, safe. -/
opaque bufferByte : Nat → Nat → Byte

end Sys2Proof.Config
end

