-- ==== Sys2Proof/Machine/State.lean ====
section
/-! DEFINITION. The state of one block instance (10_state R42) and of the HOST that drives it
(00_scope R7, 30_encoding R98), as plain data, and the machine right after reset (70_reset R340). -/

namespace Sys2Proof.Machine

/-- The error kinds (60_exceptions R310). -/
inductive ErrKind where
  | degenerateInput
  | format
  | range
  | capacity
  | illegalCommand
  | parameter
  deriving DecidableEq, Repr

/-- The memory-mapped registers (10_state section 2). -/
inductive Reg where
  | id | inCap | outCap | cmd | status | ctrl | inLen | outLen | lzWindow | lzLookahead | statOrig
  deriving DecidableEq, Repr

/-- One thing the HOST (or the PLATFORM, for a hardware reset) does next (R98; log 9). There is no entry
that waits for `irq`: a host that waits by taking the interrupt (R74, R152) is a program whose next
access happens to come after the completion (DESIGN CHOICE, log 16). -/
inductive HostOp where
  /-- `MemRead(off, width)` (R14). -/
  | read (off : Offset) (width : Nat)
  /-- `MemWrite(off, width, v)` (R14). -/
  | write (off : Offset) (width : Nat) (v : Word)
  /-- The platform asserts the hardware reset input (R340). -/
  | reset
  /-- POLL: read STATUS until it returns BUSY = 0, at least once (R98). -/
  | poll
  /-- COPYOUT: read OUT_LEN, then that many bytes of OUT_BUF (R98). -/
  | copyOut
  deriving DecidableEq, Repr

/-- The latched command record (R39, R141). `input` is read live, as R39 allows (log 8). -/
structure Engine where
  /-- The accepted CMD[7:0]. -/
  opcode : BitVec 8
  /-- The RSVD check result: CMD[31:8] was 0. -/
  rsvdOk : Bool
  /-- IN_LEN at the acceptance. -/
  inLen : Word
  /-- LZ_WINDOW at the acceptance. -/
  win : Word
  /-- LZ_LOOKAHEAD at the acceptance. -/
  look : Word
  /-- Remaining busy steps (R42, R141, R144). -/
  steps : Nat
  deriving DecidableEq, Repr

/-- The bytes of a buffer that hold a specified value, as (byte index, byte) pairs with indexes
strictly rising. An index with no entry holds no specified value (log 5). -/
abbrev Memory := List Host.Cell

/-- A buffer (R34, R35): its specified bytes, and the draw from which its unspecified bytes come. -/
structure Buffer where
  cells : Memory
  epoch : Nat
  deriving DecidableEq, Repr

/-- The architectural state (R42), then the host agent and the model's own counters. -/
structure State where
  /-- STATUS.DONE (R26). -/
  done : Bool
  /-- STATUS.ERR (R26). -/
  err : Bool
  /-- STATUS.BUSERR (R26). -/
  buserr : Bool
  /-- STATUS.ERRCODE (R26, R310). -/
  errcode : BitVec 4
  /-- CTRL.IRQ_EN (R28). -/
  irqEn : Bool
  /-- IN_LEN (R29). -/
  inLen : Word
  /-- LZ_WINDOW (R30). -/
  lzWindow : Word
  /-- LZ_LOOKAHEAD (R31). -/
  lzLookahead : Word
  /-- OUT_LEN (R32). -/
  outLen : Word
  /-- STAT_ORIG (R33). -/
  statOrig : Word
  /-- IN_CAP, constant (R23). -/
  inCap : Word
  /-- OUT_CAP, constant (R24). -/
  outCap : Word
  /-- The engine record; STATUS.BUSY is 1 exactly while there is one (R26, R39; log 1). -/
  engine : Option Engine
  /-- IN_BUF (R34). -/
  inBuf : Buffer
  /-- OUT_BUF (R35). -/
  outBuf : Buffer
  /-- What the host still has to do, oldest first (R7, R98; log 9). The model's own field. -/
  program : List HostOp
  /-- The values the host's reads returned, newest first (R14, R352; log 9). The model's own field. -/
  returned : List Word
  /-- How many draws of free values there have been (log 12). The model's own field. -/
  draws : Nat
  /-- Host accesses that come before the engine's next step while BUSY = 1 (log 4). The model's own field. -/
  hostTurns : Nat
  deriving DecidableEq, Repr

/-- A machine fault. There is none: a command's error is a completion (R319), a bus error sets
STATUS.BUSERR (R321), and no rule of the spec stops the machine. No constructor, so nobody raises
one; that is safe, because nothing is cut short. -/
inductive Fault where
  deriving DecidableEq, Repr

/-- A refusal. -/
inductive Refusal where
  /-- An instruction that has no meaning yet, raised by its arm of `exec` only. No arm raises it:
  all 19 commands have a meaning. It would be safe (the model stops where the hardware goes on). -/
  | notModelled (mnemonic : String)
  deriving DecidableEq, Repr

/-- The machine right after reset (R42, R340): every register at the value R42 gives, the capacities
at the instance's (log 2), both buffers unspecified (log 5), no host access pending (log 10), and the
draw counter past the two draws the buffers took (log 12). -/
def State.reset : State where
  done := false
  err := false
  buserr := false
  errcode := 0
  irqEn := false
  inLen := 0
  lzWindow := 0
  lzLookahead := 0
  outLen := 0
  statOrig := 0
  inCap := Config.capOf Config.inCapDraw
  outCap := Config.capOf Config.outCapDraw
  engine := none
  inBuf := ⟨[], 0⟩
  outBuf := ⟨[], 1⟩
  program := []
  returned := []
  draws := 2
  hostTurns := 0

end Sys2Proof.Machine
end

