-- ==== Sys2Proof/Machine/Ops.lean ====
section
/-! DEFINITION. The named operations over the buffers and the command's life that every command and
every access shares: reading and writing a buffer (20_memory), reset (70_reset R340), acceptance,
waiting and completion (40_commands R141 to R144, 60_exceptions R319). -/

namespace Sys2Proof.Machine

/-! ### Memory: the specified bytes of a buffer -/

/-- Whether the addresses of a memory rise strictly from at least `lo` and stay below `hi`. -/
def Memory.risesFrom (lo hi : Nat) : Memory → Bool
  | [] => true
  | (a, _) :: rest => decide (lo ≤ a) && decide (a < hi) && Memory.risesFrom (a + 1) hi rest

/-- The canonical form: addresses strictly rising, all below the capacity. What an unlisted address
holds is no specified value (`Memory.get` answers none), so no entry can equal it (log 5). -/
def Memory.wf (cap : Nat) (m : Memory) : Bool := m.risesFrom 0 cap

/-- The specified byte at an address, if there is one. -/
def Memory.get (m : Memory) (a : Nat) : Option Byte := List.lookup a m

/-- Writing one byte; keeps the canonical form. -/
def Memory.put (a : Nat) (v : Byte) : Memory → Memory
  | [] => [(a, v)]
  | (b, w) :: rest =>
    if a < b then (a, v) :: (b, w) :: rest
    else if a = b then (a, v) :: rest
    else (b, w) :: Memory.put a v rest

/-- The memory that holds `bytes` from address `a` on and nothing else. -/
def Memory.ofBytes (a : Nat) : List Byte → Memory
  | [] => []
  | v :: rest => (a, v) :: Memory.ofBytes (a + 1) rest

/-- What a byte of a buffer reads as: its specified value, else the free byte of the buffer's epoch
(R34, R35, U3 to U5; logs 5 and 6). The one definition of what an unlisted address reads as. -/
def Buffer.byte (b : Buffer) (i : Nat) : Byte := (b.cells.get i).getD (Config.bufferByte b.epoch i)

/-- `rd32(buf, i)` as a bus word (R65). -/
def Buffer.word (b : Buffer) (i : Nat) : Word :=
  BitVec.ofNat 32 (rd32 (b.byte i) (b.byte (i + 1)) (b.byte (i + 2)) (b.byte (i + 3)))

/-- Storing a byte (R64). -/
def Buffer.setByte (b : Buffer) (i : Nat) (v : Byte) : Buffer := { b with cells := b.cells.put i v }

/-- Storing the four bytes of a bus word, bits [31:24] at the lowest index (R65). -/
def Buffer.setWord (b : Buffer) (i : Nat) (v : Word) : Buffer :=
  (((b.setByte i (v.extractLsb' 24 8)).setByte (i + 1) (v.extractLsb' 16 8)).setByte (i + 2)
    (v.extractLsb' 8 8)).setByte (i + 3) (v.extractLsb' 0 8)

/-- A buffer that holds `bytes` from index 0 on; the rest is unspecified, of the given draw. -/
def Buffer.holding (bytes : List Byte) (epoch : Nat) : Buffer := ⟨Memory.ofBytes 0 bytes, epoch⟩

/-! ### Reset and bus error -/

/-- STATUS.BUSY (R26, R39; log 1). -/
def State.busy (s : State) : Bool := s.engine.isSome

/-- Hardware reset (R340): every item of R42 takes its reset value, a command in flight is
abandoned, both buffers become unspecified. The capacities are constants (R23, R24), and the host's
own program and what its reads returned are not the block's state. -/
def resetBlock (s : State) : State :=
  { State.reset with
    inCap := s.inCap
    outCap := s.outCap
    inBuf := ⟨[], s.draws⟩
    outBuf := ⟨[], s.draws + 1⟩
    program := s.program
    returned := s.returned
    draws := s.draws + 2 }

/-- A bus error: no state changes but STATUS.BUSERR <- 1 (R63, R321). -/
def busError (s : State) : State := { s with buserr := true }

/-! ### The life of a command -/

/-- The record that an acceptance latches (R39, R141). -/
def latch (steps : Nat) (w : Word) (s : State) : Engine where
  opcode := opcodeOf w
  rsvdOk := rsvdOk w
  inLen := s.inLen
  win := s.lzWindow
  look := s.lzLookahead
  steps := steps

/-- Acceptance of a command word, for a given number of busy steps and of host accesses before the
engine's first step (R141). -/
def acceptWith (steps turns : Nat) (w : Word) (s : State) : State :=
  { s with
    done := false
    err := false
    errcode := 0
    statOrig := s.inLen
    engine := some (latch steps w s)
    hostTurns := turns
    draws := s.draws + 1 }

/-- Acceptance (R141): BUSY_STEPS >= 1 is a draw (logs 3 and 4). -/
def accept (w : Word) (s : State) : State :=
  acceptWith (Config.busySteps s.draws + 1) (Config.hostTurns s.draws) w s

/-- An engine wait step (R144): one busy step less. How many host accesses come before the next
engine step is drawn anew (log 4). -/
def waitStep (e : Engine) (s : State) : State :=
  { s with
    engine := some { e with steps := e.steps - 1 }
    hostTurns := Config.hostTurns s.draws
    draws := s.draws + 1 }

/-- The error codes (R310). -/
def ErrKind.code : ErrKind → BitVec 4
  | .degenerateInput => 1
  | .format => 2
  | .range => 3
  | .capacity => 4
  | .illegalCommand => 5
  | .parameter => 6

/-- Completion of a successful command (R142): the output, OUT_LEN, ERR and ERRCODE, BUSY and DONE,
an empty engine record; OUT_BUF past the output is drawn anew (log 6). -/
def completeOk (out : List Byte) (s : State) : State :=
  { s with
    outBuf := Buffer.holding out s.draws
    outLen := BitVec.ofNat 32 out.length
    err := false
    errcode := 0
    done := true
    engine := none
    hostTurns := 0
    draws := s.draws + 1 }

/-- Completion of a command that ended in an error (R142, R319): the block's one way of reporting
an exception. All of OUT_BUF is drawn anew (log 6). -/
def completeErr (e : ErrKind) (s : State) : State :=
  { s with
    outBuf := Buffer.holding [] s.draws
    outLen := 0
    err := true
    errcode := e.code
    done := true
    engine := none
    hostTurns := 0
    draws := s.draws + 1 }

/-- Completion (R142). -/
def complete (r : Except ErrKind (List Byte)) (s : State) : State :=
  match r with
  | .ok out => completeOk out s
  | .error e => completeErr e s

/-- The host's acknowledgement, its return from a completion (R27, R320): DONE <- 0 if `v[1] = 1`,
BUSERR <- 0 if `v[3] = 1`. -/
def writeStatus (v : Word) (s : State) : State :=
  { s with done := s.done && !v.getLsbD 1, buserr := s.buserr && !v.getLsbD 3 }

end Sys2Proof.Machine
end

