-- ==== Sys2Proof/Machine/Operands.lean ====
section
/-! DEFINITION. A command's implicit operands (30_encoding R93), text symbols in buffers (R100),
text input and text artifacts (40_commands R147, R148), and Exec, common to every command (R143). -/

namespace Sys2Proof.Machine

/-- What a command's function answers: `Ok(bytes)` or `Err(kind)` (R14). -/
abbrev Result := Except ErrKind (List Byte)

/-- The record of the command in flight; where there is none, what an acceptance would latch now
(log 11: no step runs a command then). -/
def State.command (s : State) : Engine := s.engine.getD (latch 1 0 s)

/-- `input = IN_BUF[0..n)` (R93, R143), read live (R39). -/
def State.inBytes (s : State) (n : Nat) : List Byte := (List.range n).map s.inBuf.byte

/-- The input of the command in flight (R143). -/
def State.input (s : State) : List Byte := s.inBytes s.command.inLen.toNat

/-- W = LZ_WINDOW as an unsigned number (R93, R241). -/
def State.window (s : State) : Nat := s.command.win.toNat

/-- L = LZ_LOOKAHEAD as an unsigned number (R93, R241). -/
def State.lookahead (s : State) : Nat := s.command.look.toNat

/-- `SymW`: the width in bytes of one symbol (R13). -/
def symWidth : Variant → Nat
  | .raw => 1
  | .text => 4

/-- The bytes of one symbol in a buffer (R99, R100, R192). -/
def symBytes : Variant → Nat → List Byte
  | .raw, x => [byteOf x]
  | .text, x => be32 x

/-- The largest text symbol (R13). -/
def maxScalar : Nat := 0x10FFFF

/-- `untxt(s)` (R100): none where it is undefined. -/
def untxt (s : List Byte) : Option (List Nat) :=
  match words32 s with
  | some ws => if ws.all (fun x => decide (x ≤ maxScalar)) then some ws else none
  | none => none

/-- `TXT(t)` (R100). -/
def txt (t : List Nat) : List Byte := t.flatMap be32

/-- `textIn`: the symbols of a text encoder's input (R147). -/
def textIn (input : List Byte) : Except ErrKind (List Nat) :=
  match untxt input with
  | some t => .ok t
  | none => .error .parameter

/-- `textArt`: the symbols of a text decoder's artifact (R148). -/
def textArt (input : List Byte) : Except ErrKind (List Nat) :=
  match untxt input with
  | some t => .ok t
  | none => .error .format

/-- The symbols of a raw input, one a byte (R99, R149). -/
def rawSyms (input : List Byte) : List Nat := input.map BitVec.toNat

/-- The symbol sequence of an encoder (R149, R180). -/
def symsIn : Variant → List Byte → Except ErrKind (List Nat)
  | .raw, input => .ok (rawSyms input)
  | .text, input => textIn input

/-- The symbols of a decoder's result as bytes (R99, R100). -/
def symsOut (v : Variant) (syms : List Nat) : List Byte := syms.flatMap (symBytes v)

/-- Exec for a legal command with function `F_op(input, win, look)` (R143): ParameterError for an
IN_LEN above IN_CAP, then the function, then CapacityError for a result above OUT_CAP. -/
def execResult (f : List Byte → Nat → Nat → Result) (s : State) : Result :=
  if s.inCap.toNat < s.command.inLen.toNat then .error .parameter
  else
    match f s.input s.window s.lookahead with
    | .error e => .error e
    | .ok out => if s.outCap.toNat < out.length then .error .capacity else .ok out

/-- The completion step of a legal command (R142, R143). -/
def runCommand (f : List Byte → Nat → Nat → Result) (s : State) :
    Host.Outcome State Fault Refusal :=
  .next (complete (execResult f s) s)

end Sys2Proof.Machine
end

