-- ==== Sys2Proof/Machine/BitStream.lean ====
section
/-! DEFINITION. The bit-stream packer and unpacker (41_bitstream). -/

namespace Sys2Proof.Machine

/-- The number of `0` bits that fill a bit string up to whole bytes (R160). -/
def padCount (n : Nat) : Nat := (8 - n % 8) % 8

/-- `pack` of the concatenation of the codewords: the bytes and paddingBitCount (R160). -/
def packBits (b : Bits) : List Byte × Nat :=
  (bytesOfBits (b ++ List.replicate (padCount b.length) false), padCount b.length)

/-- `pack(codewords)` (R160). -/
def pack (cw : List Bits) : List Byte × Nat := packBits cw.flatten

/-- `unpack(bytes, paddingBitCount)` (R161); the removed bits are not checked. -/
def unpack (bytes : List Byte) (pad : Nat) : Except ErrKind Bits :=
  if 7 < pad then .error .format
  else if 8 * bytes.length < pad then .error .format
  else .ok ((bitsOfBytes bytes).take (8 * bytes.length - pad))

/-- A codeword of `len` bits read from the front of `s`: `ceil(len/8)` bytes whose unused low bits
are 0 (R163, R197); none is FormatError. -/
def readCode (len : Nat) (s : List Byte) : Option (Bits × List Byte) :=
  let nb := ceilDiv8 len
  if s.length < nb then none
  else if ((bitsOfBytes (s.take nb)).drop len).any id then none
  else some ((bitsOfBytes (s.take nb)).take len, s.drop nb)

/-- `parseCodewords` (R163), at most `fuel` records. -/
def parseCodewordsFuel : Nat → List Byte → Except ErrKind (List Bits)
  | _, [] => .ok []
  | 0, _ :: _ => .error .format
  | fuel + 1, len :: s =>
    match readCode len.toNat s with
    | none => .error .format
    | some (c, rest) => (parseCodewordsFuel fuel rest).map (c :: ·)

/-- `parseCodewords(s)` (R163): every record takes at least one byte, so there are at most `|s|`. -/
def parseCodewords (s : List Byte) : Except ErrKind (List Bits) := parseCodewordsFuel s.length s

/-- The packed form `[PAD] ++ DATA` (R109). -/
def packedForm (p : List Byte × Nat) : List Byte := byteOf p.2 :: p.1

/-- The bit list: one byte 0x00 or 0x01 for each bit (R110). -/
def bitList (b : Bits) : List Byte := b.map fun x => if x then 1 else 0

/-- `F_BS_PACK` (R164). -/
def fBsPack (input : List Byte) (_win _look : Nat) : Result :=
  (parseCodewords input).map fun cw => packedForm (pack cw)

/-- `F_BS_UNPACK` (R165). -/
def fBsUnpack (input : List Byte) (_win _look : Nat) : Result :=
  match input with
  | [] => .error .format
  | pad :: data => (unpack data pad.toNat).map bitList

/-- BS_PACK (R164). -/
def execBsPack (s : State) : Host.Outcome State Fault Refusal := runCommand fBsPack s

/-- BS_UNPACK (R165). -/
def execBsUnpack (s : State) : Host.Outcome State Fault Refusal := runCommand fBsUnpack s

end Sys2Proof.Machine
end

