-- ==== Sys2Proof/Machine/Control.lean ====
section
/-! DEFINITION. The control family (40_commands section 3): NOP. An ILLEGAL word is no command of the
map; its completion is `engineStep` in Machine/Engine.lean (R151). -/

namespace Sys2Proof.Machine

/-- `F_NOP(input, win, look) = Ok([])` (R150). -/
def fNop (_input : List Byte) (_win _look : Nat) : Result := .ok []

/-- NOP (R150). -/
def execNop (s : State) : Host.Outcome State Fault Refusal := runCommand fNop s

end Sys2Proof.Machine
end

