-- ==== Sys2Proof/Machine/Huffman.lean ====
section
/-! DEFINITION. The Huffman engine (42_huffman): frequency table, frequency-to-weights sorter,
canonical-tree comparator, tree builder, code-table generator, container writer and reader. -/

namespace Sys2Proof.Machine

/-- The frequency table: (symbol, count) in order of first appearance (R181). -/
abbrev FreqTable := List (Nat × Nat)

/-- One more occurrence of `x` (R181). -/
def countSym (x : Nat) : FreqTable → FreqTable
  | [] => [(x, 1)]
  | (y, c) :: rest => if y = x then (y, c + 1) :: rest else (y, c) :: countSym x rest

/-- `freq(sym)` by a single linear scan (R181). -/
def freq (sym : List Nat) : FreqTable := sym.foldl (fun t x => countSym x t) []

/-- A Huffman tree node with its weight and its seq key (R184). -/
inductive HufTree where
  | leaf (weight seq sym : Nat)
  | node (weight seq : Nat) (left right : HufTree)
  deriving DecidableEq, Repr

/-- The weight of a node (R184). -/
def HufTree.weight : HufTree → Nat
  | .leaf w _ _ => w
  | .node w _ _ _ => w

/-- The seq key of a node (R182, R184). -/
def HufTree.seq : HufTree → Nat
  | .leaf _ q _ => q
  | .node _ q _ _ => q

/-- The canonical-tree comparator (R185). -/
def nodeLess (u v : HufTree) : Bool :=
  decide (u.weight < v.weight) || (u.weight == v.weight && decide (u.seq < v.seq))

/-- Putting a node into a list in node order (R185). -/
def insertNode (u : HufTree) : List HufTree → List HufTree
  | [] => [u]
  | v :: rest => if nodeLess u v then u :: v :: rest else v :: insertNode u rest

/-- The leaves in first-appearance order, with keys from `i` on (R182). -/
def leavesFrom (i : Nat) : FreqTable → List HufTree
  | [] => []
  | (x, c) :: rest => .leaf c i x :: leavesFrom (i + 1) rest

/-- The frequency-to-weights sorter: the leaves in node order (R183). -/
def weights (t : FreqTable) : List HufTree := (leavesFrom 0 t).foldl (fun l u => insertNode u l) []

/-- The merge of two nodes: the first removed is the left child (R186, R187). -/
def mergeNodes (next : Nat) (a b : HufTree) : HufTree := .node (a.weight + b.weight) next a b

/-- The builder's loop on a queue in node order: remove the two first, insert their merge, at most
`fuel` times, until one node remains (R186). -/
def mergeAll : Nat → Nat → List HufTree → Option HufTree
  | _, _, [] => none
  | _, _, [t] => some t
  | 0, _, _ :: _ :: _ => none
  | fuel + 1, next, a :: b :: rest => mergeAll fuel (next + 1) (insertNode (mergeNodes next a b) rest)

/-- `buildTree` (R186, R188): none is EMPTY. The loop runs k - 1 times. -/
def buildTree (t : FreqTable) : Except ErrKind (Option HufTree) :=
  match t with
  | [] => .ok none
  | [_] => .error .degenerateInput
  | t => .ok (mergeAll t.length t.length (weights t))

/-- `codes(node, pre)`: `0` on left descent, `1` on right descent (R189). -/
def codes : HufTree → Bits → List (Nat × Bits)
  | .leaf _ _ x, pre => [(x, pre)]
  | .node _ _ l r, pre => codes l (pre ++ [false]) ++ codes r (pre ++ [true])

/-- A code table: symbols with their codewords. -/
abbrev CodeTable := List (Nat × Bits)

/-- The code table of a tree; the empty map for EMPTY (R189). -/
def codeTable : Option HufTree → CodeTable
  | none => []
  | some t => codes t []

/-- `code[x]`. -/
def codeOf (code : CodeTable) (x : Nat) : Bits := (List.lookup x code).getD []

/-- The data bits: every symbol's codeword, packed (R191). -/
def dataOf (code : CodeTable) (sym : List Nat) : List Byte × Nat := pack (sym.map (codeOf code))

/-- The header's TAG (R104). -/
def tagOf : Variant → Byte
  | .raw => 0x00
  | .text => 0x01

/-- One header entry: SYM, LEN, CODE (R105); a codeword longer than LEN can say is RangeError (R194). -/
def entryBytes (v : Variant) (x : Nat) (c : Bits) : Result :=
  if 255 < c.length then .error .range
  else .ok (symBytes v x ++ (byteOf c.length :: (pack [c]).1))

/-- The header's entries in first-appearance order (R192). -/
def entriesBytes (v : Variant) (code : CodeTable) : List Nat → Result
  | [] => .ok []
  | x :: rest =>
    (entryBytes v x (codeOf code x)).bind fun e => (entriesBytes v code rest).map (e ++ ·)

/-- `header` (R104, R192). -/
def header (v : Variant) (order : List Nat) (code : CodeTable) (pad : Nat) : Result :=
  (entriesBytes v code order).map fun es => tagOf v :: byteOf pad :: (be32 order.length ++ es)

/-- The header and the data bytes that `huffEncode` computes for a symbol sequence (R193). -/
def huffParts (v : Variant) (sym : List Nat) : Except ErrKind (List Byte × List Byte) :=
  (buildTree (freq sym)).bind fun root =>
    let code := codeTable root
    let data := dataOf code sym
    (header v ((freq sym).map Prod.fst) code data.2).map fun h => (h, data.1)

/-- The artifact: header length, header, data (R103, R193). -/
def artifact (p : List Byte × List Byte) : List Byte := be32 p.1.length ++ (p.1 ++ p.2)

/-- `huffEncode` (R193). -/
def huffEncode (v : Variant) (input : List Byte) : Result :=
  (symsIn v input).bind fun sym => (huffParts v sym).map artifact

/-- The header computed inside `huffEncode` (R112, R203, R204). -/
def huffTable (v : Variant) (input : List Byte) : Result :=
  (symsIn v input).bind fun sym => (huffParts v sym).map Prod.fst

/-- One leaf of the weights list: SYM, be32(weight) (R111). -/
def weightBytes (v : Variant) : HufTree → List Byte
  | .leaf w _ x => symBytes v x ++ be32 w
  | .node _ _ _ _ => []

/-- The weights list of a symbol sequence (R111, R205, R206). -/
def huffWeights (v : Variant) (input : List Byte) : Result :=
  (symsIn v input).map fun sym => (weights (freq sym)).flatMap (weightBytes v)

/-- One symbol read from the front of a header (R197); none is FormatError. -/
def readSym : Variant → List Byte → Option (Nat × List Byte)
  | .raw, a :: rest => some (a.toNat, rest)
  | .text, a :: b :: c :: d :: rest =>
    if maxScalar < rd32 a b c d then none else some (rd32 a b c d, rest)
  | _, _ => none

/-- One header entry read from the front (R197): SYM, LEN, CODE. -/
def readEntry (v : Variant) (s : List Byte) : Option ((Nat × Bits) × List Byte) :=
  match readSym v s with
  | some (x, len :: rest) =>
    if len = 0 then none
    else (readCode len.toNat rest).map fun p => ((x, p.1), p.2)
  | _ => none

/-- `k` header entries, and what is left of the header after them (R197). -/
def readEntries (v : Variant) : Nat → List Byte → Option (CodeTable × List Byte)
  | 0, s => some ([], s)
  | k + 1, s =>
    match readEntry v s with
    | some (e, rest) => (readEntries v k rest).map fun p => (e :: p.1, p.2)
    | none => none

/-- The header H: TAG, PAD, COUNT, entries, no trailing byte (R104, R197). -/
def readHeader (v : Variant) : List Byte → Option (CodeTable × Nat)
  | tag :: pad :: a :: b :: c :: d :: rest =>
    if tag = tagOf v then
      match readEntries v (rd32 a b c d) rest with
      | some (table, []) => some (table, pad.toNat)
      | _ => none
    else none
  | _ => none

/-- `parseHuf`: the table, paddingBitCount and DATA of an artifact (R197); none is FormatError. -/
def parseHuf (v : Variant) : List Byte → Option (CodeTable × Nat × List Byte)
  | a :: b :: c :: d :: rest =>
    if rest.length < rd32 a b c d then none
    else (readHeader v (rest.take (rd32 a b c d))).map fun p => (p.1, p.2, rest.drop (rd32 a b c d))
  | _ => none

/-- Neither codeword is a prefix of the other, nor the symbols equal (R198). -/
def entriesAgree (u v : Nat × Bits) : Bool :=
  u.1 != v.1 && !(u.2.isPrefixOf v.2) && !(v.2.isPrefixOf u.2)

/-- The table check: distinct symbols, prefix-free codewords (R198). -/
def tableOk : CodeTable → Bool
  | [] => true
  | e :: rest => rest.all (entriesAgree e) && tableOk rest

/-- The greedy bit decoder with running prefix `run` (R199); none is FormatError. -/
def decodeBitsFrom (table : CodeTable) : Bits → Bits → Option (List Nat)
  | [], [] => some []
  | _ :: _, [] => none
  | run, b :: rest =>
    match table.find? (fun e => e.2 == run ++ [b]) with
    | some e => (decodeBitsFrom table [] rest).map (e.1 :: ·)
    | none => decodeBitsFrom table (run ++ [b]) rest

/-- `decodeBits` (R199). -/
def decodeBits (table : CodeTable) (b : Bits) : Except ErrKind (List Nat) :=
  match decodeBitsFrom table [] b with
  | some out => .ok out
  | none => .error .format

/-- `huffDecode` (R200). -/
def huffDecode (v : Variant) (art : List Byte) : Result :=
  match parseHuf v art with
  | none => .error .format
  | some (table, pad, data) =>
    if tableOk table then
      (unpack data pad).bind fun b => (decodeBits table b).map (symsOut v)
    else .error .format

/-- `F_HUF_RAW_ENC` (R195). -/
def fHufRawEnc (input : List Byte) (_win _look : Nat) : Result := huffEncode .raw input

/-- `F_HUF_RAW_DEC` (R201). -/
def fHufRawDec (input : List Byte) (_win _look : Nat) : Result := huffDecode .raw input

/-- `F_HUF_TXT_ENC` (R196). -/
def fHufTxtEnc (input : List Byte) (_win _look : Nat) : Result := huffEncode .text input

/-- `F_HUF_TXT_DEC` (R202). -/
def fHufTxtDec (input : List Byte) (_win _look : Nat) : Result := huffDecode .text input

/-- `F_HUF_RAW_TABLE` (R203). -/
def fHufRawTable (input : List Byte) (_win _look : Nat) : Result := huffTable .raw input

/-- `F_HUF_TXT_TABLE` (R204). -/
def fHufTxtTable (input : List Byte) (_win _look : Nat) : Result := huffTable .text input

/-- `F_HUF_RAW_WEIGHTS` (R205). -/
def fHufRawWeights (input : List Byte) (_win _look : Nat) : Result := huffWeights .raw input

/-- `F_HUF_TXT_WEIGHTS` (R206). -/
def fHufTxtWeights (input : List Byte) (_win _look : Nat) : Result := huffWeights .text input

/-- HUF_RAW_ENC (R195). -/
def execHufRawEnc (s : State) : Host.Outcome State Fault Refusal := runCommand fHufRawEnc s

/-- HUF_RAW_DEC (R201). -/
def execHufRawDec (s : State) : Host.Outcome State Fault Refusal := runCommand fHufRawDec s

/-- HUF_TXT_ENC (R196). -/
def execHufTxtEnc (s : State) : Host.Outcome State Fault Refusal := runCommand fHufTxtEnc s

/-- HUF_TXT_DEC (R202). -/
def execHufTxtDec (s : State) : Host.Outcome State Fault Refusal := runCommand fHufTxtDec s

/-- HUF_RAW_TABLE (R203). -/
def execHufRawTable (s : State) : Host.Outcome State Fault Refusal := runCommand fHufRawTable s

/-- HUF_TXT_TABLE (R204). -/
def execHufTxtTable (s : State) : Host.Outcome State Fault Refusal := runCommand fHufTxtTable s

/-- HUF_RAW_WEIGHTS (R205). -/
def execHufRawWeights (s : State) : Host.Outcome State Fault Refusal := runCommand fHufRawWeights s

/-- HUF_TXT_WEIGHTS (R206). -/
def execHufTxtWeights (s : State) : Host.Outcome State Fault Refusal := runCommand fHufTxtWeights s

end Sys2Proof.Machine
end

