-- ==== Sys2Proof/Machine/Lz77.lean ====
section
/-! DEFINITION. The LZ77 engine (43_lz77): the sliding-window matcher and the triple encoder and
decoder. -/

namespace Sys2Proof.Machine

/-- A triple (offset, length, nextSymbol) (R240). The literal is none for the empty literal, which only
a text artifact can hold (R250). -/
structure Triple where
  offset : Nat
  length : Nat
  lit : Option Nat
  deriving DecidableEq, Repr

/-- The largest k <= cap on which two sequences agree symbol by symbol (R243). -/
def matchLen : Nat → List Nat → List Nat → Nat
  | cap + 1, a :: x, b :: y => if a = b then matchLen cap x y + 1 else 0
  | _, _, _ => 0

/-- `cap(i) = min(L, n - i - 1)` (R244); the cursor is below n. -/
def matchCap (n i look : Nat) : Nat := min look (n - i - 1)

/-- The candidate start positions at cursor i, oldest first: max(0, i - W) .. i - 1 (R242). -/
def candidates (i win : Nat) : List Nat := List.range' (i - win) (i - (i - win))

/-- The match length at candidate j (R243): the match may run past the cursor. -/
def matchAt (s : List Nat) (i look j : Nat) : Nat :=
  matchLen (matchCap s.length i look) (s.drop j) (s.drop i)

/-- One candidate of the scan: it replaces the best (offset, length) only if strictly longer (R245). -/
def better (s : List Nat) (i look : Nat) (best : Nat × Nat) (j : Nat) : Nat × Nat :=
  if best.2 < matchAt s i look j then (i - j, matchAt s i look j) else best

/-- `match(s, i, W, L)` (R245). -/
def lzMatch (s : List Nat) (i win look : Nat) : Nat × Nat :=
  (candidates i win).foldl (better s i look) (0, 0)

/-- Whether an offset and a length fit the fields of a variant (R246): 16 bits for raw, no limit for
text. -/
def tripleFits : Variant → Nat × Nat → Bool
  | .raw, m => decide (m.1 ≤ 65535) && decide (m.2 ≤ 65535)
  | .text, _ => true

/-- The encode loop from cursor i on, at most `fuel` triples (R246). The literal `s[i + l]` exists by
R244. -/
def lzTriplesFrom (v : Variant) (s : List Nat) (win look : Nat) :
    Nat → Nat → Except ErrKind (List Triple)
  | 0, _ => .ok []
  | fuel + 1, i =>
    if i < s.length then
      let m := lzMatch s i win look
      if tripleFits v m then
        (lzTriplesFrom v s win look fuel (i + m.2 + 1)).map (⟨m.1, m.2, s[i + m.2]?⟩ :: ·)
      else .error .range
    else .ok []

/-- `lzTriples` (R241, R246): every triple takes at least one symbol, so there are at most `|s|`. -/
def lzTriples (v : Variant) (s : List Nat) (win look : Nat) : Except ErrKind (List Triple) :=
  if win = 0 ∨ look = 0 then .error .parameter else lzTriplesFrom v s win look s.length 0

/-- The word of the empty literal (R107, R250). -/
def emptyLiteral : Nat := 0xFFFFFFFF

/-- `rawRec` (R106, R247). An encoder's literal is never empty (R244). -/
def rawRec (t : Triple) : List Byte := be16 t.offset ++ be16 t.length ++ [byteOf (t.lit.getD 0)]

/-- `txtRec` (R107, R248). -/
def txtRec (t : Triple) : List Byte :=
  be32 t.offset ++ be32 t.length ++ be32 (t.lit.getD emptyLiteral)

/-- `parseRaw` (R249). -/
def parseRaw : List Byte → Except ErrKind (List Triple)
  | [] => .ok []
  | o1 :: o0 :: l1 :: l0 :: c :: rest =>
    (parseRaw rest).map (⟨rd16 o1 o0, rd16 l1 l0, some c.toNat⟩ :: ·)
  | _ => .error .format

/-- The literal a word of a text record stands for (R250): none is FormatError. -/
def literalOf (c : Nat) : Option (Option Nat) :=
  if c = emptyLiteral then some none else if maxScalar < c then none else some (some c)

/-- The triples of a text record stream read as words, three a record (R250). -/
def parseTxtWords : List Nat → Except ErrKind (List Triple)
  | [] => .ok []
  | o :: l :: c :: rest =>
    match literalOf c with
    | some lit => (parseTxtWords rest).map (⟨o, l, lit⟩ :: ·)
    | none => .error .format
  | _ => .error .format

/-- `parseTxt` (R250). -/
def parseTxt (art : List Byte) : Except ErrKind (List Triple) :=
  match words32 art with
  | some ws => parseTxtWords ws
  | none => .error .format

/-- The copy of `l` symbols from distance `o`, one symbol at a time (R251, R350). -/
def copySyms (o : Nat) : Nat → List Nat → List Nat
  | 0, out => out
  | l + 1, out => copySyms o l (out ++ [out.getD (out.length - o) 0])

/-- One triple applied to the output so far (R251); none is FormatError: no source, or a source
before the start. -/
def applyTriple (out : List Nat) (t : Triple) : Option (List Nat) :=
  if 0 < t.length ∧ (t.offset = 0 ∨ out.length < t.offset) then none
  else some (copySyms t.offset t.length out ++ t.lit.toList)

/-- `lzApply` from an output on (R251). -/
def lzApplyFrom (out : List Nat) : List Triple → Except ErrKind (List Nat)
  | [] => .ok out
  | t :: rest =>
    match applyTriple out t with
    | some out' => lzApplyFrom out' rest
    | none => .error .format

/-- `lzApply` (R251). -/
def lzApply (ts : List Triple) : Except ErrKind (List Nat) := lzApplyFrom [] ts

/-- `F_LZ_RAW_ENC` (R252). -/
def fLzRawEnc (input : List Byte) (win look : Nat) : Result :=
  (lzTriples .raw (rawSyms input) win look).map fun ts => ts.flatMap rawRec

/-- `F_LZ_RAW_DEC` (R253). -/
def fLzRawDec (input : List Byte) (_win _look : Nat) : Result :=
  (parseRaw input).bind fun ts => (lzApply ts).map (symsOut .raw)

/-- `F_LZ_TXT_ENC` (R254). -/
def fLzTxtEnc (input : List Byte) (win look : Nat) : Result :=
  (textIn input).bind fun s => (lzTriples .text s win look).map fun ts => ts.flatMap txtRec

/-- `F_LZ_TXT_DEC` (R255). -/
def fLzTxtDec (input : List Byte) (_win _look : Nat) : Result :=
  (parseTxt input).bind fun ts => (lzApply ts).map txt

/-- LZ_RAW_ENC (R252). -/
def execLzRawEnc (s : State) : Host.Outcome State Fault Refusal := runCommand fLzRawEnc s

/-- LZ_RAW_DEC (R253). -/
def execLzRawDec (s : State) : Host.Outcome State Fault Refusal := runCommand fLzRawDec s

/-- LZ_TXT_ENC (R254). -/
def execLzTxtEnc (s : State) : Host.Outcome State Fault Refusal := runCommand fLzTxtEnc s

/-- LZ_TXT_DEC (R255). -/
def execLzTxtDec (s : State) : Host.Outcome State Fault Refusal := runCommand fLzTxtDec s

end Sys2Proof.Machine
end

