-- ==== Sys2Proof/Machine/Rle.lean ====
section
/-! DEFINITION. The RLE engine (44_rle): runs, the raw records and the text framing. -/

namespace Sys2Proof.Machine

/-- The runs of a sequence after a symbol `x` seen `c` times, as (count, symbol): a run is continued
while the symbol repeats and its count is below the limit, if there is one (R281, R284). -/
def runsFrom (lim : Option Nat) (x c : Nat) : List Nat → List (Nat × Nat)
  | [] => [(c, x)]
  | y :: rest =>
    if y = x ∧ lim.all (fun m => decide (c < m)) then runsFrom lim x (c + 1) rest
    else (c, x) :: runsFrom lim y 1 rest

/-- The runs of a sequence (R280): maximal, or split at the limit. -/
def runs (lim : Option Nat) : List Nat → List (Nat × Nat)
  | [] => []
  | x :: rest => runsFrom lim x 1 rest

/-- The raw record `[count][byte]` (R101). -/
def rleRecord (r : Nat × Nat) : List Byte := [byteOf r.1, byteOf r.2]

/-- `rleRaw` (R281). -/
def rleRaw (s : List Byte) : List Byte := (runs (some 255) (rawSyms s)).flatMap rleRecord

/-- The raw reader (R283): two bytes a record; a count 0 or half a record is FormatError. -/
def rleRawExpand : List Byte → Result
  | [] => .ok []
  | c :: b :: rest =>
    if c = 0 then .error .format
    else (rleRawExpand rest).map (List.replicate c.toNat b ++ ·)
  | _ => .error .format

/-- The decimal digits of `c`, most significant first, at most `fuel` of them (R285). -/
def decDigits : Nat → Nat → List Nat
  | 0, _ => []
  | fuel + 1, c => if c < 10 then [0x30 + c] else decDigits fuel (c / 10) ++ [0x30 + c % 10]

/-- `dec(c)` (R285): `c` has at most `c + 1` digits. -/
def dec (c : Nat) : List Nat := decDigits (c + 1) c

/-- The terminator `';'` (R102). -/
def semicolon : Nat := 0x3B

/-- One run of the text framing: the symbol, its count in decimal, `';'` (R284). -/
def rleTxtRun (r : Nat × Nat) : List Nat := r.2 :: (dec r.1 ++ [semicolon])

/-- `rleTxt` (R284). -/
def rleTxt (t : List Nat) : List Nat := (runs none t).flatMap rleTxtRun

/-- Where the text parser stands (R287): before a run's symbol; before the first digit of the run of
`x`; after digits of value `c` of the run of `x`. -/
inductive RlePos where
  | symbol
  | first (x : Nat)
  | digits (x c : Nat)
  deriving DecidableEq, Repr

/-- `rleTxtParse` from a position on (R287); none is FormatError. -/
def rleTxtFrom : RlePos → List Nat → Option (List Nat)
  | .symbol, [] => some []
  | .symbol, x :: rest => rleTxtFrom (.first x) rest
  | .first _, [] => none
  | .first x, d :: rest =>
    if 0x31 ≤ d ∧ d ≤ 0x39 then rleTxtFrom (.digits x (d - 0x30)) rest else none
  | .digits _ _, [] => none
  | .digits x c, d :: rest =>
    if 0x30 ≤ d ∧ d ≤ 0x39 then rleTxtFrom (.digits x (10 * c + (d - 0x30))) rest
    else if d = semicolon then (rleTxtFrom .symbol rest).map (List.replicate c x ++ ·)
    else none

/-- `rleTxtParse` (R287). -/
def rleTxtParse (t : List Nat) : Except ErrKind (List Nat) :=
  match rleTxtFrom .symbol t with
  | some out => .ok out
  | none => .error .format

/-- `F_RLE_RAW_ENC` (R282). -/
def fRleRawEnc (input : List Byte) (_win _look : Nat) : Result := .ok (rleRaw input)

/-- `F_RLE_RAW_DEC` (R283). -/
def fRleRawDec (input : List Byte) (_win _look : Nat) : Result := rleRawExpand input

/-- `F_RLE_TXT_ENC` (R286). -/
def fRleTxtEnc (input : List Byte) (_win _look : Nat) : Result :=
  (textIn input).map fun t => txt (rleTxt t)

/-- `F_RLE_TXT_DEC` (R288). -/
def fRleTxtDec (input : List Byte) (_win _look : Nat) : Result :=
  (textArt input).bind fun t => (rleTxtParse t).map txt

/-- RLE_RAW_ENC (R282). -/
def execRleRawEnc (s : State) : Host.Outcome State Fault Refusal := runCommand fRleRawEnc s

/-- RLE_RAW_DEC (R283). -/
def execRleRawDec (s : State) : Host.Outcome State Fault Refusal := runCommand fRleRawDec s

/-- RLE_TXT_ENC (R286). -/
def execRleTxtEnc (s : State) : Host.Outcome State Fault Refusal := runCommand fRleTxtEnc s

/-- RLE_TXT_DEC (R288). -/
def execRleTxtDec (s : State) : Host.Outcome State Fault Refusal := runCommand fRleTxtDec s

end Sys2Proof.Machine
end

