-- ==== Sys2Proof/Machine/Dispatch.lean ====
section
/-! DEFINITION. exec: one arm per command, each one direct call of the command's meaning. The meaning
of a command is its completion step (40_commands R142), where its function is computed. -/

namespace Sys2Proof.Machine

def exec (i : Instr) (s : State) : Host.Outcome State Fault Refusal :=
  match i with
  | .nop => Sys2Proof.Machine.execNop s
  | .rleRawEnc => Sys2Proof.Machine.execRleRawEnc s
  | .rleRawDec => Sys2Proof.Machine.execRleRawDec s
  | .rleTxtEnc => Sys2Proof.Machine.execRleTxtEnc s
  | .rleTxtDec => Sys2Proof.Machine.execRleTxtDec s
  | .hufRawEnc => Sys2Proof.Machine.execHufRawEnc s
  | .hufRawDec => Sys2Proof.Machine.execHufRawDec s
  | .hufTxtEnc => Sys2Proof.Machine.execHufTxtEnc s
  | .hufTxtDec => Sys2Proof.Machine.execHufTxtDec s
  | .hufRawTable => Sys2Proof.Machine.execHufRawTable s
  | .hufTxtTable => Sys2Proof.Machine.execHufTxtTable s
  | .hufRawWeights => Sys2Proof.Machine.execHufRawWeights s
  | .hufTxtWeights => Sys2Proof.Machine.execHufTxtWeights s
  | .bsPack => Sys2Proof.Machine.execBsPack s
  | .bsUnpack => Sys2Proof.Machine.execBsUnpack s
  | .lzRawEnc => Sys2Proof.Machine.execLzRawEnc s
  | .lzRawDec => Sys2Proof.Machine.execLzRawDec s
  | .lzTxtEnc => Sys2Proof.Machine.execLzTxtEnc s
  | .lzTxtDec => Sys2Proof.Machine.execLzTxtDec s

end Sys2Proof.Machine
end

