-- ==== Sys2Proof/Machine/Flags.lean ====
section
/-! DEFINITION. The flags (10_state R38): STATUS and CTRL as register words, and the interrupt
output. There are no condition codes, carry or overflow (R38). -/

namespace Sys2Proof.Machine

/-- The value of STATUS (R26): BUSY [0], DONE [1], ERR [2], BUSERR [3], 0 [7:4], ERRCODE [11:8],
0 [31:12]. -/
def State.statusWord (s : State) : Word :=
  (0 : BitVec 20) ++ (s.errcode ++ ((0 : BitVec 4) ++ (BitVec.ofBool s.buserr ++
    (BitVec.ofBool s.err ++ (BitVec.ofBool s.done ++ BitVec.ofBool s.busy)))))

/-- The value of CTRL (R28): IRQ_EN [0]; SRST [1] reads 0; 0 [31:2]. -/
def State.ctrlWord (s : State) : Word := (0 : BitVec 31) ++ BitVec.ofBool s.irqEn

/-- The interrupt output (R43, R318). -/
def State.irq (s : State) : Bool := s.irqEn && s.done

/-- ID (R22), the constant "DCC1". -/
def idWord : Word := 0x44434331

end Sys2Proof.Machine
end

