-- ==== Sys2Proof/Machine/Bus.lean ====
section
/-! DEFINITION. Host accesses to the aperture: the address map and the bus errors (20_memory R61 to
R65), and what each register answers to a read and does on a write (10_state R22 to R37). -/

namespace Sys2Proof.Machine

/-- The register at an offset of the register region, if one is there (10_state section 2, R61). -/
def regAt (off : Nat) : Option Reg :=
  List.lookup off
    [(0x000, .id), (0x004, .inCap), (0x008, .outCap), (0x010, .cmd), (0x014, .status),
     (0x018, .ctrl), (0x020, .inLen), (0x024, .outLen), (0x028, .lzWindow),
     (0x02C, .lzLookahead), (0x030, .statOrig)]

/-- What a legal access reaches (R61). -/
inductive Target where
  | reg (r : Reg)
  | inBuf (i : Nat)
  | outBuf (i : Nat)
  deriving DecidableEq, Repr

/-- The offset of byte 0 of IN_BUF (R61). -/
def inBase : Nat := 0x100000

/-- The offset of byte 0 of OUT_BUF (R61). -/
def outBase : Nat := 0x200000

/-- Whether a buffer window admits an access of a width at an offset: 1 byte, or 4 bytes aligned
(R63 c, d). -/
def bufferAccess (off width : Nat) : Bool := width == 1 || (width == 4 && off % 4 == 0)

/-- What an access reaches by the address map; none is a bus error whatever the access does
(R61 to R63 a to d). -/
def target (s : State) (off : Offset) (width : Nat) : Option Target :=
  let o := off.toNat
  if o < 0x1000 then
    if width = 4 then (regAt o).map .reg else none
  else if inBase ≤ o ∧ o < inBase + s.inCap.toNat then
    if bufferAccess o width then some (.inBuf (o - inBase)) else none
  else if outBase ≤ o ∧ o < outBase + s.outCap.toNat then
    if bufferAccess o width then some (.outBuf (o - outBase)) else none
  else none

/-- The value a legal access to a buffer returns: a byte zero-extended, or a word (R64, R65). -/
def Buffer.access (b : Buffer) (i width : Nat) : Word :=
  if width = 1 then (b.byte i).setWidth 32 else b.word i

/-- A read that returns an unspecified value: a fresh draw (R32, R35, R68, U1, U2; log 7). -/
def readUnspecified (s : State) : Word × State :=
  (Config.busyRead s.draws, { s with draws := s.draws + 1 })

/-- A legal register read (R22 to R33, R62): no side effect, but that OUT_LEN while BUSY = 1 is
unspecified (R32). -/
def readReg (r : Reg) (s : State) : Word × State :=
  match r with
  | .id => (idWord, s)
  | .inCap => (s.inCap, s)
  | .outCap => (s.outCap, s)
  | .cmd => (0, s)
  | .status => (s.statusWord, s)
  | .ctrl => (s.ctrlWord, s)
  | .inLen => (s.inLen, s)
  | .outLen => if s.busy then readUnspecified s else (s.outLen, s)
  | .lzWindow => (s.lzWindow, s)
  | .lzLookahead => (s.lzLookahead, s)
  | .statOrig => (s.statOrig, s)

/-- `MemRead(off, width)`: the value returned and the state after (R62 to R65, R68). -/
def busRead (off : Offset) (width : Nat) (s : State) : Word × State :=
  match target s off width with
  | some (.reg r) => readReg r s
  | some (.inBuf i) => (s.inBuf.access i width, s)
  | some (.outBuf i) => if s.busy then readUnspecified s else (s.outBuf.access i width, s)
  | none => (0, busError s)

/-- A write that is ignored with a bus error while BUSY = 1 (R36, R63 f). -/
def whenIdle (s : State) (t : State) : State := if s.busy then busError s else t

/-- A write of CTRL (R28): SRST performs a soft reset, which is a hardware reset at that point
(R341); else IRQ_EN takes `v[0]`. -/
def writeCtrl (v : Word) (s : State) : State :=
  if v.getLsbD 1 then resetBlock s else { s with irqEn := v.getLsbD 0 }

/-- A legal register write (R25 to R37). -/
def writeReg (r : Reg) (v : Word) (s : State) : State :=
  match r with
  | .cmd => whenIdle s (accept v s)
  | .status => writeStatus v s
  | .ctrl => writeCtrl v s
  | .inLen => whenIdle s { s with inLen := v }
  | .lzWindow => whenIdle s { s with lzWindow := v }
  | .lzLookahead => whenIdle s { s with lzLookahead := v }
  | .id => busError s
  | .inCap => busError s
  | .outCap => busError s
  | .outLen => busError s
  | .statOrig => busError s

/-- The write of a legal access to IN_BUF (R64, R65). -/
def writeInBuf (i width : Nat) (v : Word) (s : State) : State :=
  { s with inBuf := if width = 1 then s.inBuf.setByte i (v.extractLsb' 0 8) else s.inBuf.setWord i v }

/-- `MemWrite(off, width, v)` (R62 to R65, R34 to R37). -/
def busWrite (off : Offset) (width : Nat) (v : Word) (s : State) : State :=
  match target s off width with
  | some (.reg r) => writeReg r v s
  | some (.inBuf i) => whenIdle s (writeInBuf i width v s)
  | some (.outBuf _) => busError s
  | none => busError s

end Sys2Proof.Machine
end

