-- ==== Sys2Proof/Machine/HostProgram.lean ====
section
/-! DEFINITION. The HOST agent (00_scope R7): performing the next access of its program, and the
host-program syntax with its pseudo-instructions (30_encoding R98, 70_reset R352). -/

namespace Sys2Proof.Machine

/-- A host read: the value it brings back is recorded (R14, R98, R352). -/
def hostRead (off : Offset) (width : Nat) (s : State) : State :=
  { (busRead off width s).2 with returned := (busRead off width s).1 :: (busRead off width s).2.returned }

/-- The transactions of COPYOUT after OUT_LEN was read as `n` (R98); their offsets wrap past 0x3FFFFF
(DESIGN CHOICE, log 9). -/
def copyReads (n : Nat) : List HostOp :=
  (List.range n).map fun i => .read (BitVec.ofNat 22 (outBase + i)) 1

/-- Performing one entry of the host's program, which is no longer in `s.program`. POLL stays at the
head until its read returned BUSY = 0 (R98); COPYOUT puts its byte reads there (R98). -/
def perform (op : HostOp) (s : State) : State :=
  match op with
  | .read off width => hostRead off width s
  | .write off width v => busWrite off width v s
  | .reset => resetBlock s
  | .poll =>
    if (busRead 0x014 4 s).1.getLsbD 0 then
      { hostRead 0x014 4 s with program := .poll :: s.program }
    else hostRead 0x014 4 s
  | .copyOut =>
    { hostRead 0x024 4 s with program := copyReads (busRead 0x024 4 s).1.toNat ++ s.program }

/-- The host's step: the oldest entry of its program takes effect (R71); with none left, nothing
changes (R328). One of the accesses that come before the engine's next step is used up (log 4). -/
def hostStep (s : State) : State :=
  match s.program with
  | [] => s
  | op :: rest => perform op { s with program := rest, hostTurns := s.hostTurns - 1 }

/-! ### The syntax of R98

DESIGN CHOICE, log 15: an offset above 0x3FFFFF, which the aperture does not have (R60), is taken modulo
2^22, and a length above 0xFFFFFFFF modulo 2^32. Only a LOADB of more than 0x300000 bytes or a LOADS of
more than 0xC0000 symbols has such an offset, three times the largest IN_BUF of R8. -/

/-- `W32 off, v`, with `off` modulo 2^22 (DESIGN CHOICE, log 15). -/
def txW32 (off : Nat) (v : Word) : HostOp := .write (BitVec.ofNat 22 off) 4 v

/-- `W8 off, v`, with `off` modulo 2^22 (DESIGN CHOICE, log 15). -/
def txW8 (off : Nat) (v : Byte) : HostOp := .write (BitVec.ofNat 22 off) 1 (v.setWidth 32)

/-- `R32 off -> name`, with `off` modulo 2^22 (DESIGN CHOICE, log 15). -/
def txR32 (off : Nat) : HostOp := .read (BitVec.ofNat 22 off) 4

/-- `R8 off -> name`, with `off` modulo 2^22 (DESIGN CHOICE, log 15). -/
def txR8 (off : Nat) : HostOp := .read (BitVec.ofNat 22 off) 1

/-- `LOADB [b0 .. b(n-1)]`; its offsets wrap past 0x3FFFFF (DESIGN CHOICE, log 15). -/
def hostLoadB (bytes : List Byte) : List HostOp :=
  bytes.zipIdx.map (fun p => txW8 (inBase + p.2) p.1) ++ [txW32 0x020 (BitVec.ofNat 32 bytes.length)]

/-- `LOADS "t"`; its offsets wrap past 0x3FFFFF (DESIGN CHOICE, log 15). -/
def hostLoadS (t : List Word) : List HostOp :=
  t.zipIdx.map (fun p => txW32 (inBase + 4 * p.2) p.1) ++ [txW32 0x020 (BitVec.ofNat 32 (4 * t.length))]

/-- `SETLZ w, l`. -/
def hostSetLz (w l : Word) : List HostOp := [txW32 0x028 w, txW32 0x02C l]

/-- `RUN MNEMONIC`. -/
def hostRun (i : Instr) : List HostOp := [txW32 0x010 (encode i), .poll]

/-- `ACK`. -/
def hostAck : List HostOp := [txW32 0x014 0x00000002]

end Sys2Proof.Machine
end

