-- ==== Sys2Proof/Machine/Engine.lean ====
section
/-! DEFINITION. The ENGINE agent (00_scope R7): its wait step and its completion step (40_commands
R142, R144), which runs the decoded command or completes an ILLEGAL one (R151), and which agent
moves next (20_memory R71). -/

namespace Sys2Proof.Machine

/-- The command the record holds, or ILLEGAL by name (R39, R94). -/
def Engine.decoded (e : Engine) : Except Reject Instr := decodeOp e.opcode e.rsvdOk

/-- The engine's step while BUSY = 1: a wait step while more than one busy step remains (R144), else
the completion (R142). An ILLEGAL command completes with IllegalCommand before any other check
(R143, R151, R315). -/
def engineStep (e : Engine) (s : State) : Host.Outcome State Fault Refusal :=
  if 1 < e.steps then .next (waitStep e s)
  else
    match e.decoded with
    | .ok i => exec i s
    | .error _ => .next (complete (.error .illegalCommand) s)

/-- Whether the engine moves next while BUSY = 1: the host has used up the accesses drawn to come
before the engine's step, or has none left (R71, R144; log 4). -/
def engineTurn (s : State) : Bool := s.hostTurns == 0 || s.program.isEmpty

/-- One event of the machine (R71): the engine's step when the engine is busy and its turn, else the
host's. -/
def machineStep (s : State) : Host.Outcome State Fault Refusal :=
  match s.engine with
  | none => .next (hostStep s)
  | some e => if engineTurn s then engineStep e s else .next (hostStep s)

/-- The state in which a command word has been accepted with BUSY_STEPS = 1 and no host access comes
before the engine's step, so that the very next step completes it (R141, R142; log 10). -/
def placeCommand (w : Word) (s : State) : State := acceptWith 1 0 w s

end Sys2Proof.Machine
end

