-- ==== Sys2Proof/Machine/Step.lean ====
section
/-! DEFINITION. The step of the machine: one event, of the engine or of the host (20_memory R71). -/

namespace Sys2Proof.Machine

/-- One event of the machine (R71). -/
def step (s : State) : Host.Outcome State Fault Refusal := machineStep s

/-- The block fetches nothing (R21): a command is the value of one CMD write (R76). This is the state
right after that write was accepted, about to complete (log 10). -/
def State.withFetchWord (s : State) (nbits w : Nat) : State :=
  placeCommand (BitVec.ofNat 32 (w % 2 ^ nbits)) s

end Sys2Proof.Machine
end

