-- ==== Sys2Proof/Safety.lean ====
section
/-! DEFINITION. What counts as a safe state and a safe run of the block, and the terms in which claims
about one step say what a command did: it completed with an output, it completed with an error, and
what it left alone. -/

namespace Sys2Proof.Machine

/-- What every run keeps: the capacities are legal (00_scope R8); both buffers are in canonical form;
the specified bytes of OUT_BUF are exactly OUT_BUF[0..OUT_LEN) (R35, R142), which fit; ERRCODE is a
defined code, 0 exactly when ERR = 0 (R26, R310), and an error leaves OUT_LEN = 0 (R32); while
BUSY = 1, DONE, ERR and ERRCODE are 0 (R26, R141), at least one busy step remains, and the latched
record equals the live registers (R39); the two buffers' unspecified bytes come from different draws
already made (log 12). -/
structure State.Inv (s : State) : Prop where
  inCapLegal : Config.capLegal s.inCap = true
  outCapLegal : Config.capLegal s.outCap = true
  inBufCanonical : Memory.wf s.inCap.toNat s.inBuf.cells = true
  outBufCanonical : Memory.wf s.outCap.toNat s.outBuf.cells = true
  outputSpecified : s.outBuf.cells.map Prod.fst = List.range s.outLen.toNat
  outputFits : s.outLen.toNat ≤ s.outCap.toNat
  codeDefined : s.errcode.toNat ≤ 6
  codeIffErr : s.err = true ↔ s.errcode ≠ 0
  errEmpty : s.err = true → s.outLen = 0
  busyClear : s.busy = true → s.done = false ∧ s.err = false
  latched : ∀ e, s.engine = some e → 1 ≤ e.steps ∧ e.inLen = s.inLen ∧ e.inLen = s.statOrig ∧
    e.win = s.lzWindow ∧ e.look = s.lzLookahead
  drawsMade : s.inBuf.epoch < s.draws ∧ s.outBuf.epoch < s.draws ∧ s.inBuf.epoch ≠ s.outBuf.epoch

/-- A step that goes on: neither a fault nor a refusal. -/
def Goes (o : Host.Outcome State Fault Refusal) : Prop := ∃ t, o = .next t

/-- A safe run: `k` steps from `s` all go on. -/
def SafeRun (k : Nat) (s : State) : Prop := ∃ t, Host.Core.run core k s = .next t

/-- What a completion leaves alone (R142, R319, R344): IN_BUF, IN_LEN, LZ_WINDOW, LZ_LOOKAHEAD, CTRL,
BUSERR, STAT_ORIG, the capacities, and the host. -/
structure KeptByCompletion (s t : State) : Prop where
  inBuf : t.inBuf = s.inBuf
  inLen : t.inLen = s.inLen
  lzWindow : t.lzWindow = s.lzWindow
  lzLookahead : t.lzLookahead = s.lzLookahead
  irqEn : t.irqEn = s.irqEn
  buserr : t.buserr = s.buserr
  statOrig : t.statOrig = s.statOrig
  inCap : t.inCap = s.inCap
  outCap : t.outCap = s.outCap
  program : t.program = s.program
  returned : t.returned = s.returned

/-- The completion of a successful command with output `out` (R142). -/
structure CompletedOk (out : List Byte) (s t : State) : Prop where
  length : t.outLen.toNat = out.length
  bytes : ∀ k (h : k < out.length), t.outBuf.byte k = out[k]
  err : t.err = false
  errcode : t.errcode = 0
  done : t.done = true
  idle : t.busy = false
  kept : KeptByCompletion s t

/-- The completion of a command that ended in an error (R142, R319). -/
structure CompletedErr (k : ErrKind) (s t : State) : Prop where
  length : t.outLen = 0
  err : t.err = true
  errcode : t.errcode = k.code
  done : t.done = true
  idle : t.busy = false
  kept : KeptByCompletion s t

/-- Command `i` completes with output `out`: the machine goes on to a state that says so (R142). -/
def Completes (i : Instr) (s : State) (out : List Byte) : Prop :=
  ∃ t, exec i s = .next t ∧ CompletedOk out s t

/-- Command `i` ends with error `k`, and the machine goes on (R319). -/
def EndsIn (i : Instr) (s : State) (k : ErrKind) : Prop :=
  ∃ t, exec i s = .next t ∧ CompletedErr k s t

/-- IN_LEN as the command sees it is legal (R143). -/
def LegalLen (s : State) : Prop := s.command.inLen.toNat ≤ s.inCap.toNat

/-- The output fits OUT_BUF (R143). -/
def Fits (s : State) (out : List Byte) : Prop := out.length ≤ s.outCap.toNat

/-- Command `i`, whose function gives `out` on the input of `s`: ParameterError when IN_LEN is above
IN_CAP, CapacityError when `out` does not fit OUT_BUF, else a completion with `out` (R143). -/
def Answers (i : Instr) (s : State) (out : List Byte) : Prop :=
  (¬ LegalLen s → EndsIn i s .parameter) ∧ (LegalLen s → Fits s out → Completes i s out) ∧
    (LegalLen s → ¬ Fits s out → EndsIn i s .capacity)

/-- Command `i`, whose function raises `k` on the input of `s`: ParameterError when IN_LEN is above
IN_CAP, else `k` (R143). -/
def Fails (i : Instr) (s : State) (k : ErrKind) : Prop :=
  (¬ LegalLen s → EndsIn i s .parameter) ∧ (LegalLen s → EndsIn i s k)

/-- OUT_BUF[0..OUT_LEN) (R35). -/
def State.outBytes (s : State) : List Byte := (List.range s.outLen.toNat).map s.outBuf.byte

/-- The engine completes its command in this step: it is its turn and one busy step is left (R142). -/
def Completing (s : State) (e : Engine) : Prop :=
  s.engine = some e ∧ e.steps ≤ 1 ∧ engineTurn s = true

/-- The host performs `op` in this step: it is the oldest entry of its program, and the engine is idle
or it is not the engine's turn (R71). -/
def HostPerforms (s : State) (op : HostOp) (rest : List HostOp) : Prop :=
  s.program = op :: rest ∧ (s.engine = none ∨ engineTurn s = false)

/-- The state after the host's bookkeeping of one access and before its effect: its program is one
entry shorter and one of its turns is used up (log 4). -/
def State.afterIssue (s : State) (rest : List HostOp) : State :=
  { s with program := rest, hostTurns := s.hostTurns - 1 }

end Sys2Proof.Machine
end

