-- ==== Sys2Proof/Safety/Formats.lean ====
section
/-! DEFINITION. What the formats and the engines' results ARE, said without saying how they are
computed: runs, packed bits, codeword lists, Huffman tables, trees, headers and artifacts, LZ77
triples. Statements compare what `exec` writes with these. -/

namespace Sys2Proof.Spec

open Sys2Proof.Machine

/-! ### Text (30_encoding R100) -/

/-- Every symbol is a text symbol (R13). -/
def IsText (t : List Nat) : Prop := ∀ x ∈ t, x ≤ 0x10FFFF

/-- The input of an encoder holds the symbol sequence `sym` (R99, R100). -/
def Holds : Variant → List Byte → List Nat → Prop
  | .raw, input, sym => sym = input.map BitVec.toNat
  | .text, input, sym => input = txt sym ∧ IsText sym

/-- `rd32(s, p)` (R11), with 0 for a byte past the end. -/
def rd32At (s : List Byte) (p : Nat) : Nat :=
  rd32 (s.getD p 0) (s.getD (p + 1) 0) (s.getD (p + 2) 0) (s.getD (p + 3) 0)

/-- A byte sequence that is no text (R147, R148): not whole words, or a word above 0x10FFFF. -/
def BadText (s : List Byte) : Prop :=
  s.length % 4 ≠ 0 ∨ ∃ k, 4 * k + 4 ≤ s.length ∧ 0x10FFFF < rd32At s (4 * k)

/-! ### RLE (44_rle) -/

/-- What runs stand for (R101, R280). -/
def expandRuns {α : Type} (rs : List (Nat × α)) : List α := rs.flatMap fun r => List.replicate r.1 r.2

/-- The runs of a sequence: they expand to it, every count is at least 1 and at most the limit if
there is one, and neighbours carry the same symbol only when the first has the limit as its count
(R280, R281). -/
structure RunsOf {α : Type} (lim : Option Nat) (s : List α) (rs : List (Nat × α)) : Prop where
  expands : expandRuns rs = s
  counts : ∀ r ∈ rs, 1 ≤ r.1 ∧ ∀ m ∈ lim, r.1 ≤ m
  maximal : rs.IsChain fun a b => a.2 = b.2 → lim = some a.1

/-- The raw records `[count][byte]` (R101). -/
def rawRecords (rs : List (Nat × Byte)) : List Byte := rs.flatMap fun r => [byteOf r.1, r.2]

/-- The decimal digits of a count as symbols, most significant first (R285). -/
def decimal (c : Nat) : List Nat := ((Nat.digits 10 c).map (0x30 + ·)).reverse

/-- The text framing: symbol, decimal count, `';'` (R102). -/
def framed (rs : List (Nat × Nat)) : List Nat := rs.flatMap fun r => r.2 :: (decimal r.1 ++ [0x3B])

/-! ### Bit streams (41_bitstream) -/

/-- `bytes` and `pad` are `b` packed: fewer than 8 `0` bits fill it up (R160). -/
def PackOf (b : Bits) (bytes : List Byte) (pad : Nat) : Prop :=
  pad ≤ 7 ∧ bitsOfBytes bytes = b ++ List.replicate pad false

/-- A codeword list (R108): records `[LEN] ++ CODE`. -/
inductive CodewordList : List Bits → List Byte → Prop
  | nil : CodewordList [] []
  | cons {c : Bits} {code : List Byte} {pad : Nat} {cs : List Bits} {rest : List Byte} :
      c.length ≤ 255 → PackOf c code pad → CodewordList cs rest →
      CodewordList (c :: cs) (byteOf c.length :: (code ++ rest))

/-! ### Huffman (42_huffman) -/

/-- The frequency table: the symbols that occur, in order of first appearance, with how often each
occurs (R181). -/
structure FreqOf (sym : List Nat) (t : List (Nat × Nat)) : Prop where
  occurs : ∀ x, x ∈ t.map Prod.fst ↔ x ∈ sym
  counts : ∀ p ∈ t, p.2 = sym.count p.1
  order : t.Pairwise fun p q => sym.idxOf p.1 < sym.idxOf q.1

/-- The weights list as (symbol, weight): by ascending weight, equal weights in order of first
appearance (R183). -/
structure WeightsOf (sym : List Nat) (l : List (Nat × Nat)) : Prop where
  occurs : ∀ x, x ∈ l.map Prod.fst ↔ x ∈ sym
  counts : ∀ p ∈ l, p.2 = sym.count p.1
  order : l.Pairwise fun p q => p.2 < q.2 ∨ (p.2 = q.2 ∧ sym.idxOf p.1 < sym.idxOf q.1)

/-- The output of a weights command (R111). -/
def weightsBytes (v : Variant) (l : List (Nat × Nat)) : List Byte :=
  l.flatMap fun p => symBytes v p.1 ++ be32 p.2

/-- The leaves of a frequency table: the i-th symbol's leaf has seq i (R182). -/
def leaves (t : List (Nat × Nat)) : List HufTree := t.zipIdx.map fun p => HufTree.leaf p.1.2 p.2 p.1.1

/-- The tree builder on a queue in any order (R186): while more than one node is left, remove the node
`a` that is less than every other, then the node `b` that is less than every other, and insert the
node with left child `a`, right child `b`, their summed weight and the next seq key (R184, R187). -/
inductive Builds : Nat → List HufTree → HufTree → Prop
  | done (next : Nat) (t : HufTree) : Builds next [t] t
  | merge {next : Nat} {queue rest : List HufTree} {a b t : HufTree} :
      queue.Perm (a :: b :: rest) → (∀ v ∈ b :: rest, nodeLess a v = true) →
      (∀ v ∈ rest, nodeLess b v = true) →
      Builds (next + 1) (HufTree.node (a.weight + b.weight) next a b :: rest) t → Builds next queue t

/-- The tree of a symbol sequence with at least two distinct symbols (R186). -/
def TreeOf (sym : List Nat) (tree : HufTree) : Prop :=
  ∃ t, FreqOf sym t ∧ 2 ≤ t.length ∧ Builds t.length (leaves t) tree

/-- The path to a symbol's leaf: `0` on left descent, `1` on right descent (R189). -/
inductive CodeIn : HufTree → Nat → Bits → Prop
  | leaf (w q x : Nat) : CodeIn (.leaf w q x) x []
  | left {w q x : Nat} {l r : HufTree} {c : Bits} : CodeIn l x c → CodeIn (.node w q l r) x (false :: c)
  | right {w q x : Nat} {l r : HufTree} {c : Bits} : CodeIn r x c → CodeIn (.node w q l r) x (true :: c)

/-- The code table of a symbol sequence, in order of first appearance (R189, R192): empty for the empty
sequence (R188). -/
def TableOf (sym : List Nat) (table : CodeTable) : Prop :=
  (∃ t, FreqOf sym t ∧ table.map Prod.fst = t.map Prod.fst) ∧
    (sym = [] ∨ ∃ tree, TreeOf sym tree ∧ ∀ e ∈ table, CodeIn tree e.1 e.2)

/-- A symbol that a variant's header entry can hold (R105, R197). -/
def SymFits : Variant → Nat → Prop
  | .raw, x => x ≤ 255
  | .text, x => x ≤ 0x10FFFF

/-- The entries of a header (R105): SYM, LEN, CODE, codewords of 1 to 255 bits. -/
inductive HeaderEntries (v : Variant) : CodeTable → List Byte → Prop
  | nil : HeaderEntries v [] []
  | cons {x : Nat} {c : Bits} {code : List Byte} {pad : Nat} {table : CodeTable} {rest : List Byte} :
      SymFits v x → 1 ≤ c.length → c.length ≤ 255 → PackOf c code pad → HeaderEntries v table rest →
      HeaderEntries v ((x, c) :: table) (symBytes v x ++ (byteOf c.length :: (code ++ rest)))

/-- The header H of a table and a padding count (R104). -/
def HeaderOf (v : Variant) (table : CodeTable) (pad : Nat) (h : List Byte) : Prop :=
  ∃ entries, HeaderEntries v table entries ∧ table.length < 2 ^ 32 ∧ pad ≤ 255 ∧
    h = tagOf v :: byteOf pad :: (be32 table.length ++ entries)

/-- `c` is the concatenation of the codewords that a table gives the symbols `sym` (R191). -/
def Spells (table : CodeTable) (sym : List Nat) (c : Bits) : Prop :=
  ∃ es : CodeTable, (∀ e ∈ es, e ∈ table) ∧ es.map Prod.fst = sym ∧ c = es.flatMap Prod.snd

/-- Distinct symbols and no codeword a prefix of another (R190, R198). -/
def PrefixFree (table : CodeTable) : Prop :=
  table.Pairwise fun u w => u.1 ≠ w.1 ∧ ¬ u.2 <+: w.2 ∧ ¬ w.2 <+: u.2

/-- The header and data that the encoder of a variant makes of a symbol sequence (R191 to R193). -/
def EncodesTo (v : Variant) (sym : List Nat) (h data : List Byte) : Prop :=
  ∃ table pad b, TableOf sym table ∧ Spells table sym b ∧ PackOf b data pad ∧ HeaderOf v table pad h

/-- An artifact of a header and data (R103). -/
def artifactOf (h data : List Byte) : List Byte := be32 h.length ++ h ++ data

/-- What a decoder of a variant accepts, and the symbols it gives (R197 to R200): a well-formed header
with a prefix-free table, and data that spell the symbols once the last PAD bits, whatever they are,
are removed (R161). -/
def DecodesTo (v : Variant) (art : List Byte) (sym : List Nat) : Prop :=
  ∃ table pad h data b junk, HeaderOf v table pad h ∧ h.length < 2 ^ 32 ∧ art = artifactOf h data ∧
    PrefixFree table ∧ pad ≤ 7 ∧ junk.length = pad ∧ Spells table sym b ∧ bitsOfBytes data = b ++ junk

/-! ### LZ77 (43_lz77) -/

/-- `s[j + t] = s[i + t]` for every t below k (R243). -/
def Agree (s : List Nat) (j i k : Nat) : Prop := ∀ t < k, s[j + t]? = s[i + t]?

/-- A match the encoder may make at cursor i from candidate j: in the window (R242), within the cap
(R244), symbol by symbol equal (R243). -/
def Matches (s : List Nat) (win look i j k : Nat) : Prop :=
  i - win ≤ j ∧ j < i ∧ k ≤ min look (s.length - i - 1) ∧ Agree s j i k

/-- The matcher's choice at cursor i (R245): (0, 0) when no candidate matches a symbol; else a longest
match, and of the candidates that reach its length the oldest. -/
def Chosen (s : List Nat) (win look i o l : Nat) : Prop :=
  (l = 0 ∧ o = 0 ∧ ∀ j k, Matches s win look i j k → k = 0) ∨
    (0 < l ∧ o ≤ i ∧ Matches s win look i (i - o) l ∧
      ∀ j k, Matches s win look i j k → k ≤ l ∧ (k = l → i - o ≤ j))

/-- The encode loop from cursor i (R246): the chosen match, then the literal after it. -/
inductive LzParse (s : List Nat) (win look : Nat) : Nat → List Triple → Prop
  | done : LzParse s win look s.length []
  | step {i o l c : Nat} {ts : List Triple} :
      Chosen s win look i o l → s[i + l]? = some c → LzParse s win look (i + l + 1) ts →
      LzParse s win look i (⟨o, l, some c⟩ :: ts)

/-- Every offset and length fits 16 bits (R246). -/
def Fits16 (ts : List Triple) : Prop := ∀ t ∈ ts, t.offset ≤ 65535 ∧ t.length ≤ 65535

/-- Sequential application of triples to an output (R251): a copy has a source, and each copied symbol
is the one `o` places before it, which may itself have just been copied; then the literal. -/
inductive LzExpands : List Nat → List Triple → List Nat → Prop
  | done (out : List Nat) : LzExpands out [] out
  | step {out seg fin : List Nat} {o l : Nat} {lit : Option Nat} {ts : List Triple} :
      (0 < l → 0 < o ∧ o ≤ out.length) → seg.length = l →
      (∀ q < l, (out ++ seg)[out.length + q]? = (out ++ seg)[out.length + q - o]?) →
      LzExpands (out ++ seg ++ lit.toList) ts fin → LzExpands out (⟨o, l, lit⟩ :: ts) fin

/-- The triples that raw records can hold (R106, R249). -/
def RawTriples (ts : List Triple) : Prop :=
  ∀ t ∈ ts, t.offset ≤ 65535 ∧ t.length ≤ 65535 ∧ ∃ c ≤ 255, t.lit = some c

/-- The triples that text records can hold (R107, R250). -/
def TxtTriples (ts : List Triple) : Prop :=
  ∀ t ∈ ts, t.offset < 2 ^ 32 ∧ t.length < 2 ^ 32 ∧ ∀ c ∈ t.lit, c ≤ 0x10FFFF

/-- The raw artifact of triples (R106). -/
def rawTriples (ts : List Triple) : List Byte :=
  ts.flatMap fun t => be16 t.offset ++ be16 t.length ++ [byteOf (t.lit.getD 0)]

/-- The text record stream of triples, the empty literal as 0xFFFFFFFF (R107). -/
def txtTriples (ts : List Triple) : List Byte :=
  ts.flatMap fun t => be32 t.offset ++ be32 t.length ++ be32 (t.lit.getD 0xFFFFFFFF)

/-! ### The aperture (20_memory) -/

/-- The registers' offsets (10_state section 2). -/
def RegOffset (o : Nat) : Prop :=
  o = 0x000 ∨ o = 0x004 ∨ o = 0x008 ∨ o = 0x010 ∨ o = 0x014 ∨ o = 0x018 ∨ o = 0x020 ∨ o = 0x024 ∨
    o = 0x028 ∨ o = 0x02C ∨ o = 0x030

/-- The offset lies in the IN_BUF window (R61). -/
def InWindow (s : State) (o : Nat) : Prop := 0x100000 ≤ o ∧ o < 0x100000 + s.inCap.toNat

/-- The offset lies in the OUT_BUF window (R61). -/
def OutWindow (s : State) (o : Nat) : Prop := 0x200000 ≤ o ∧ o < 0x200000 + s.outCap.toNat

/-- A width a buffer admits at an offset: 1 byte, or 4 bytes at a multiple of 4 (R63). -/
def BufferWidth (o width : Nat) : Prop := width = 1 ∨ (width = 4 ∧ o % 4 = 0)

/-- An access that is no bus error by where it goes and how wide it is (R62, R63 a to d). -/
def LegalAccess (s : State) (off : Offset) (width : Nat) : Prop :=
  (RegOffset off.toNat ∧ width = 4) ∨
    ((InWindow s off.toNat ∨ OutWindow s off.toNat) ∧ BufferWidth off.toNat width)

/-- A register that only the block writes (R37). -/
def ReadOnlyOffset (o : Nat) : Prop := o = 0x000 ∨ o = 0x004 ∨ o = 0x008 ∨ o = 0x024 ∨ o = 0x030

/-- A write target that is locked while BUSY = 1 (R36). -/
def LockedOffset (s : State) (off : Offset) (width : Nat) : Prop :=
  (width = 4 ∧ (off.toNat = 0x010 ∨ off.toNat = 0x020 ∨ off.toNat = 0x028 ∨ off.toNat = 0x02C)) ∨
    (InWindow s off.toNat ∧ BufferWidth off.toNat width)

/-! ### Commands by variant (30_encoding R92) -/

/-- The Huffman encoder of a variant. -/
def hufEnc : Variant → Instr
  | .raw => .hufRawEnc
  | .text => .hufTxtEnc

/-- The Huffman decoder of a variant. -/
def hufDec : Variant → Instr
  | .raw => .hufRawDec
  | .text => .hufTxtDec

/-- The code-table command of a variant. -/
def hufTable : Variant → Instr
  | .raw => .hufRawTable
  | .text => .hufTxtTable

/-- The weights command of a variant. -/
def hufWeights : Variant → Instr
  | .raw => .hufRawWeights
  | .text => .hufTxtWeights

/-! ### Round trips -/

/-- What encoding command `enc` completes with, decoding command `dec` turns back into the input: for
every state in which `enc` ends without an error, and every state whose input is that output and whose
OUT_BUF can hold the original. -/
def RoundTrip (enc dec : Instr) : Prop :=
  ∀ s t u : State, exec enc s = .next t → t.err = false → LegalLen u → u.input = t.outBytes →
    Fits u s.input → Completes dec u s.input

end Sys2Proof.Spec
end

