-- ==== Sys2Proof/Certificates/Slice0/Obligations.lean ====
section
/-! DEFINITION. The statements about the model, for the provers. Each docstring names the rules of spec/
that the statement formalises. -/

open Sys2Proof Sys2Proof.Machine Sys2Proof.Spec

/-! ### Command words (30_encoding) -/

/-- R92, R94: the decoder and the encoder agree, on every word and every command; no two commands share
a word. -/
def Obligations.DecodeIsTheInverseOfEncode : Prop :=
  ∀ (w : Word) (i : Instr), decode w = .ok i ↔ w = encode i

/-- R91, R95: a word is a command exactly when RSVD is 0 and its fields are no unused combination. -/
def Obligations.WordIsCommandExactlyWhenFieldsAreLegal : Prop :=
  ∀ w : Word, (∃ i, decode w = .ok i) ↔ (fieldsOf w).wf = true

/-- R92: words of each family written out bit by bit, and words that are ILLEGAL. -/
def Obligations.WrittenOutWordsDecode : Prop :=
  decode 0b00000000000000000000000000000000#32 = .ok .nop ∧
  decode 0b00000000000000000000000000010010#32 = .ok .rleTxtEnc ∧
  decode 0b00000000000000000000000000100001#32 = .ok .hufRawDec ∧
  decode 0b00000000000000000000000000101010#32 = .ok .hufTxtWeights ∧
  decode 0b00000000000000000000000000110001#32 = .ok .bsUnpack ∧
  decode 0b00000000000000000000000001000010#32 = .ok .lzTxtEnc ∧
  decode 0b00000000000000000000000000100101#32 = .error .opcodeNotInMap ∧
  decode 0b00000000000000000000000100010000#32 = .error .rsvdNotZero

/-! ### The command's life (40_commands) -/

/-- R142, R143: the completion step of the engine runs the command that the latched word decodes to,
and nothing around it; and a word placed to be the next command is run by the very next step (how a word
is placed is the model's choice, log 10). -/
def Obligations.StepRunsTheDecodedCommand : Prop :=
  (∀ (s : State) e i, Completing s e → e.decoded = .ok i → step s = exec i s) ∧
  ∀ (s : State) i, step (s.withFetchWord 32 (encode i).toNat) = exec i (s.withFetchWord 32 (encode i).toNat)

/-- R151, R315, R317: a word that decodes to ILLEGAL completes with IllegalCommand, whatever IN_LEN. -/
def Obligations.IllegalWordCompletesWithIllegalCommand : Prop :=
  ∀ (s : State) e r, Completing s e → e.decoded = .error r →
    ∃ t, step s = .next t ∧ CompletedErr .illegalCommand s t

/-- R141: a write of CMD while idle, of any word, is accepted: what it sets and latches, and what it
leaves alone. The number of busy steps is free, at least 1 (log 3). -/
def Obligations.IdleCommandWriteIsAccepted : Prop :=
  ∀ (s : State) w rest, s.engine = none → s.program = .write 0x010 4 w :: rest →
    ∃ t e, step s = .next t ∧ t.engine = some e ∧ e.decoded = decode w ∧
      e.inLen = s.inLen ∧ e.win = s.lzWindow ∧ e.look = s.lzLookahead ∧ 1 ≤ e.steps ∧
      t.busy = true ∧ t.done = false ∧ t.err = false ∧ t.errcode = 0 ∧ t.statOrig = s.inLen ∧
      t.buserr = s.buserr ∧ t.irqEn = s.irqEn ∧ t.inLen = s.inLen ∧ t.lzWindow = s.lzWindow ∧
      t.lzLookahead = s.lzLookahead ∧ t.inBuf = s.inBuf ∧ t.inCap = s.inCap ∧ t.outCap = s.outCap ∧
      t.program = rest ∧ t.returned = s.returned

/-- R144: a wait step takes one busy step off and changes nothing else of the block. Whose turn it is,
and the redrawn host turns, are the model's choice (log 4). -/
def Obligations.WaitStepOnlyCountsDown : Prop :=
  ∀ (s : State) e, s.engine = some e → 1 < e.steps → engineTurn s = true →
    ∃ t, step s = .next t ∧
      t = { s with engine := some { e with steps := e.steps - 1 }, hostTurns := t.hostTurns,
                   draws := t.draws }

/-- R144: every accepted command completes, or is abandoned by a reset, after finitely many steps,
whatever the host does meanwhile. That finitely many host accesses come between two engine steps is the
model's choice for weak fairness (log 4). -/
def Obligations.EveryAcceptedCommandEnds : Prop :=
  ∀ (s : State), s.busy = true → ∃ n t, Host.Core.run core n s = .next t ∧ t.busy = false

/-- R319, R321: no step stops the machine; errors and bus errors are reported in STATUS. -/
def Obligations.NoRunEverStops : Prop := ∀ k (s : State), SafeRun k s

/-- R142, R319, R344: what every command leaves unchanged, and how STATUS reads after it. Every byte
of IN_BUF reads as before; OUT_BUF is the commands' destination, and its bytes past OUT_LEN are
unspecified. -/
def Obligations.CommandsChangeOnlyOutputAndStatus : Prop :=
  ∀ i (s : State) t, exec i s = .next t →
    KeptByCompletion s t ∧ (∀ a, t.inBuf.byte a = s.inBuf.byte a) ∧
      t.busy = false ∧ t.done = true ∧
      ((t.err = false ∧ t.errcode = 0) ∨
        (t.err = true ∧ 1 ≤ t.errcode.toNat ∧ t.errcode.toNat ≤ 6 ∧ t.outLen = 0))

/-- R145, R146: the result is a function of the operands: two states that agree on the latched lengths
and parameters, the capacities and the input bytes complete alike, whatever else they hold. -/
def Obligations.ResultDependsOnlyOnOperands : Prop :=
  ∀ i (s : State) (s' : State) t t', s'.command.inLen = s.command.inLen → s'.command.win = s.command.win →
    s'.command.look = s.command.look → s'.inCap = s.inCap → s'.outCap = s.outCap →
    s'.input = s.input → exec i s = .next t → exec i s' = .next t' →
    t'.outLen = t.outLen ∧ t'.err = t.err ∧ t'.errcode = t.errcode ∧ t'.outBytes = t.outBytes

/-- R241, R30, R31: an LZ77 encoder with W = 0 or L = 0 ends with ParameterError; every other command, the
decoders among them, reads neither register. -/
def Obligations.OnlyLzEncodersReadTheLzRegisters : Prop :=
  (∀ (s : State), s.command.win = 0 ∨ s.command.look = 0 →
    EndsIn .lzRawEnc s .parameter ∧ EndsIn .lzTxtEnc s .parameter) ∧
  ∀ i (s : State) (s' : State) t t', i ≠ .lzRawEnc → i ≠ .lzTxtEnc → s'.command.inLen = s.command.inLen →
    s'.inCap = s.inCap → s'.outCap = s.outCap → s'.input = s.input →
    exec i s = .next t → exec i s' = .next t' →
    t'.outLen = t.outLen ∧ t'.err = t.err ∧ t'.errcode = t.errcode ∧ t'.outBytes = t.outBytes

/-- R147, R241, R316: the three causes of ParameterError: IN_LEN above IN_CAP, for every command; W = 0 or
L = 0, for the LZ77 encoders; and an input that is no text, for the five text encoders. -/
def Obligations.ParameterErrorIsRaisedAsListed : Prop :=
  (∀ i (s : State), s.inCap.toNat < s.command.inLen.toNat → EndsIn i s .parameter) ∧
  (∀ (s : State), s.window = 0 ∨ s.lookahead = 0 →
    EndsIn .lzRawEnc s .parameter ∧ EndsIn .lzTxtEnc s .parameter) ∧
  ∀ (s : State), BadText s.input →
    EndsIn .rleTxtEnc s .parameter ∧ EndsIn .hufTxtEnc s .parameter ∧
    EndsIn .hufTxtTable s .parameter ∧ EndsIn .hufTxtWeights s .parameter ∧
    EndsIn .lzTxtEnc s .parameter

/-- R312, R313, R315: which commands can end in FormatError and in RangeError, and that no legal command
ends in IllegalCommand. -/
def Obligations.ErrorKindsBelongToTheirCommands : Prop :=
  ∀ i (s : State),
    (EndsIn i s .format → i = .bsPack ∨ i = .bsUnpack ∨ i = .hufRawDec ∨ i = .hufTxtDec ∨
      i = .lzRawDec ∨ i = .lzTxtDec ∨ i = .rleRawDec ∨ i = .rleTxtDec) ∧
    (EndsIn i s .range → i = .lzRawEnc ∨ i = .hufRawEnc ∨ i = .hufTxtEnc ∨ i = .hufRawTable ∨
      i = .hufTxtTable) ∧
    ¬ EndsIn i s .illegalCommand

/-- R150: NOP completes with the empty output, whatever the buffer holds, but that IN_LEN above IN_CAP
gives ParameterError. -/
def Obligations.NopCompletesEmpty : Prop :=
  ∀ (s : State), (LegalLen s → Completes .nop s []) ∧ (¬ LegalLen s → EndsIn .nop s .parameter)

/-! ### The aperture (10_state, 20_memory) -/

/-- R63: every bus error, by where the access goes, its width, its alignment, or because the write is
locked: the read returns 0 and the write is ignored, and nothing changes but BUSERR. -/
def Obligations.BusErrorsOnlySetBuserr : Prop :=
  ∀ (s : State) off width v, Config.capLegal s.inCap = true →
    (¬ LegalAccess s off width → busRead off width s = (0, { s with buserr := true })) ∧
    (¬ LegalAccess s off width ∨ OutWindow s off.toNat ∨ ReadOnlyOffset off.toNat ∨
        (s.busy = true ∧ LockedOffset s off width) →
      busWrite off width v s = { s with buserr := true })

/-- R37, R68: a legal read changes nothing, and is no bus error, but that a read of OUT_LEN or OUT_BUF
while BUSY = 1 takes a fresh unspecified value, which is a free value of the model (log 7). -/
def Obligations.LegalReadsHaveNoSideEffect : Prop :=
  ∀ (s : State) off width, LegalAccess s off width →
    (busRead off width s).2 = s ∨
      (s.busy = true ∧ (off.toNat = 0x024 ∨ OutWindow s off.toNat) ∧
        (busRead off width s).2 = { s with draws := s.draws + 1 })

/-- R22 to R26, R28 to R33, R62: what each register reads as, and where the fields of STATUS and CTRL
stand; every other bit of these two reads 0. -/
def Obligations.RegistersReadTheirValues : Prop :=
  ∀ (s : State), (busRead 0x000 4 s).1 = 0x44434331 ∧ (busRead 0x004 4 s).1 = s.inCap ∧
    (busRead 0x008 4 s).1 = s.outCap ∧ (busRead 0x010 4 s).1 = 0 ∧
    (busRead 0x014 4 s).1 = s.statusWord ∧ (busRead 0x018 4 s).1 = s.ctrlWord ∧
    (busRead 0x020 4 s).1 = s.inLen ∧ (s.busy = false → (busRead 0x024 4 s).1 = s.outLen) ∧
    (busRead 0x028 4 s).1 = s.lzWindow ∧ (busRead 0x02C 4 s).1 = s.lzLookahead ∧
    (busRead 0x030 4 s).1 = s.statOrig ∧
    s.statusWord.getLsbD 0 = s.busy ∧ s.statusWord.getLsbD 1 = s.done ∧
    s.statusWord.getLsbD 2 = s.err ∧ s.statusWord.getLsbD 3 = s.buserr ∧
    s.statusWord.extractLsb' 4 4 = 0 ∧ s.statusWord.extractLsb' 8 4 = s.errcode ∧
    s.statusWord.extractLsb' 12 20 = 0 ∧
    s.ctrlWord.getLsbD 0 = s.irqEn ∧ s.ctrlWord.extractLsb' 1 31 = 0

/-- R27, R28, R36: a write of STATUS clears DONE and BUSERR where it writes 1 and does nothing else; a
write of CTRL without SRST sets IRQ_EN and nothing else, and with SRST the block is reset and IRQ_EN is 0
whatever was written; each busy or not. -/
def Obligations.StatusAndControlWritesDoOnlyWhatTheySay : Prop :=
  ∀ (s : State) v,
    busWrite 0x014 4 v s =
      { s with done := s.done && !v.getLsbD 1, buserr := s.buserr && !v.getLsbD 3 } ∧
    (v.getLsbD 1 = false → busWrite 0x018 4 v s = { s with irqEn := v.getLsbD 0 }) ∧
    (v.getLsbD 1 = true → busWrite 0x018 4 v s = resetBlock s ∧ (busWrite 0x018 4 v s).irqEn = false)

/-- R29, R30, R31: IN_LEN, LZ_WINDOW and LZ_LOOKAHEAD store any value while idle. -/
def Obligations.IdleParameterWritesStore : Prop :=
  ∀ (s : State) v, s.busy = false →
    busWrite 0x020 4 v s = { s with inLen := v } ∧ busWrite 0x028 4 v s = { s with lzWindow := v } ∧
    busWrite 0x02C 4 v s = { s with lzLookahead := v }

/-- R36, R347: while BUSY = 1, a write to CMD, IN_LEN, LZ_WINDOW, LZ_LOOKAHEAD or IN_BUF does nothing but
set BUSERR; a write to STATUS clears what it writes 1 to, and a write to CTRL sets IRQ_EN or resets the
block, as while idle. -/
def Obligations.BusyWritesAreLost : Prop :=
  ∀ (s : State) off width v, s.busy = true →
    (LockedOffset s off width → busWrite off width v s = { s with buserr := true }) ∧
    busWrite 0x014 4 v s =
      { s with done := s.done && !v.getLsbD 1, buserr := s.buserr && !v.getLsbD 3 } ∧
    busWrite 0x018 4 v s =
      (if v.getLsbD 1 then resetBlock s else { s with irqEn := v.getLsbD 0 })

/-- R37: writes to read-only registers only set BUSERR; writes to the reserved fields of STATUS and CTRL
are ignored without error; a read of any defined register is no bus error. -/
def Obligations.ReadOnlyAndReservedWritesAreIgnored : Prop :=
  (∀ (s : State) (off : Offset) v, ReadOnlyOffset off.toNat →
    busWrite off 4 v s = { s with buserr := true }) ∧
  (∀ (s : State) (v : Word), v &&& 0xA = 0 → busWrite 0x014 4 v s = s) ∧
  (∀ (s : State) (v : Word), v &&& 0x3 = BitVec.setWidth 32 (BitVec.ofBool s.irqEn) →
    busWrite 0x018 4 v s = s) ∧
  (∀ (s : State) (off : Offset), RegOffset off.toNat → (busRead off 4 s).2.buserr = s.buserr)

/-- R34, R64: a 1-byte access reads the byte zero-extended; while idle it writes the low byte of the
value to that index of IN_BUF and to no other, and nothing else changes. -/
def Obligations.ByteAccessReadsAndWritesOneByte : Prop :=
  ∀ (s : State) i v, Config.capLegal s.inCap = true → Config.capLegal s.outCap = true →
    (i < s.inCap.toNat →
      (busRead (BitVec.ofNat 22 (0x100000 + i)) 1 s).1 = (s.inBuf.byte i).setWidth 32 ∧
      (s.busy = false → ∃ b, busWrite (BitVec.ofNat 22 (0x100000 + i)) 1 v s = { s with inBuf := b } ∧
        b.byte i = v.extractLsb' 0 8 ∧ ∀ j, j ≠ i → b.byte j = s.inBuf.byte j)) ∧
    (i < s.outCap.toNat → s.busy = false →
      (busRead (BitVec.ofNat 22 (0x200000 + i)) 1 s).1 = (s.outBuf.byte i).setWidth 32)

/-- R65: a 4-byte access is big-endian: byte 4k + j is bits [31 - 8j : 24 - 8j]. -/
def Obligations.WordAccessIsBigEndian : Prop :=
  ∀ (s : State) k v, Config.capLegal s.inCap = true → Config.capLegal s.outCap = true →
    (4 * k < s.inCap.toNat →
      (∀ j < 4, ((busRead (BitVec.ofNat 22 (0x100000 + 4 * k)) 4 s).1).extractLsb' (24 - 8 * j) 8 =
        s.inBuf.byte (4 * k + j)) ∧
      (s.busy = false → ∃ b,
        busWrite (BitVec.ofNat 22 (0x100000 + 4 * k)) 4 v s = { s with inBuf := b } ∧
        (∀ j < 4, b.byte (4 * k + j) = v.extractLsb' (24 - 8 * j) 8) ∧
        ∀ a, (a < 4 * k ∨ 4 * k + 4 ≤ a) → b.byte a = s.inBuf.byte a)) ∧
    (4 * k < s.outCap.toNat → s.busy = false →
      ∀ j < 4, ((busRead (BitVec.ofNat 22 (0x200000 + 4 * k)) 4 s).1).extractLsb' (24 - 8 * j) 8 =
        s.outBuf.byte (4 * k + j))

/-- R67: a byte written to IN_BUF shows in the word read at its place. -/
def Obligations.ByteWriteShowsInWordRead : Prop :=
  ∀ (s : State) k j v, Config.capLegal s.inCap = true → s.busy = false → 4 * k < s.inCap.toNat → j < 4 →
    ((busRead (BitVec.ofNat 22 (0x100000 + 4 * k)) 4
      (busWrite (BitVec.ofNat 22 (0x100000 + 4 * k + j)) 1 v s)).1).extractLsb' (24 - 8 * j) 8 =
      v.extractLsb' 0 8

/-- R71, R98, R352: the host's accesses take effect one a step, oldest first, and a read's value is
recorded. The list of accesses and the list of values are the model's own fields (log 9). -/
def Obligations.HostAccessTakesEffectInOneStep : Prop :=
  ∀ (s : State) off width v rest,
    (HostPerforms s (.write off width v) rest →
      step s = .next (busWrite off width v (s.afterIssue rest))) ∧
    (HostPerforms s (.read off width) rest →
      ∃ t, step s = .next t ∧
        t = { (busRead off width (s.afterIssue rest)).2 with
              returned := (busRead off width (s.afterIssue rest)).1 :: s.returned })

/-- R68: a host read changes no register but BUSERR and no buffer, and leaves a running command
running. -/
def Obligations.HostReadsLeaveTheBlockAlone : Prop :=
  ∀ (s : State) off width rest, HostPerforms s (.read off width) rest →
    ∃ t, step s = .next t ∧ t.done = s.done ∧ t.err = s.err ∧ t.errcode = s.errcode ∧
      t.irqEn = s.irqEn ∧ t.inLen = s.inLen ∧ t.lzWindow = s.lzWindow ∧
      t.lzLookahead = s.lzLookahead ∧ t.outLen = s.outLen ∧ t.statOrig = s.statOrig ∧
      t.engine = s.engine ∧ t.inBuf = s.inBuf ∧ t.outBuf = s.outBuf ∧ t.inCap = s.inCap ∧
      t.outCap = s.outCap ∧ (s.buserr = true → t.buserr = true)

/-- R98: POLL reads STATUS and ends when the read returned BUSY = 0; COPYOUT reads OUT_LEN and goes on
with the 1-byte reads of OUT_BUF[0..OUT_LEN), in order. The list of accesses is the model's own field
(log 9). -/
def Obligations.PollAndCopyOutFollowTheirExpansions : Prop :=
  ∀ (s : State) rest,
    (HostPerforms s .poll rest →
      ∃ t, step s = .next t ∧ t.returned = s.statusWord :: s.returned ∧
        t.program = (if s.busy then .poll :: rest else rest)) ∧
    (HostPerforms s .copyOut rest → s.busy = false →
      ∃ t, step s = .next t ∧ t.returned = s.outLen :: s.returned ∧
        t.program = (List.range s.outLen.toNat).map
          (fun i => HostOp.read (BitVec.ofNat 22 (0x200000 + i)) 1) ++ rest)

/-! ### Rules of the whole machine -/

/-- R22 to R24: IN_CAP and OUT_CAP read as the capacities of the buffers, and no step, not even a reset,
changes them. -/
def Obligations.CapacitiesNeverChange : Prop :=
  ∀ (s : State), (busRead 0x004 4 s).1 = s.inCap ∧ (busRead 0x008 4 s).1 = s.outCap ∧
    ∀ t, step s = .next t → t.inCap = s.inCap ∧ t.outCap = s.outCap

/-- R26: BUSERR is sticky: it is cleared only by a write of STATUS with bit 3 set or by a reset. -/
def Obligations.BuserrIsSticky : Prop :=
  ∀ (s : State) t, step s = .next t → s.buserr = true → t.buserr = false →
    ∃ op rest, HostPerforms s op rest ∧
      (op = .reset ∨ (∃ v, op = .write 0x014 4 v ∧ v.getLsbD 3 = true) ∨
        ∃ v, op = .write 0x018 4 v ∧ v.getLsbD 1 = true)

/-- R34, R69: the engine never writes IN_BUF; it changes only by a host write to its window while idle,
or by a reset. -/
def Obligations.InputBufferChangesOnlyByHostOrReset : Prop :=
  ∀ (s : State) t, step s = .next t → t.inBuf ≠ s.inBuf →
    ∃ op rest, HostPerforms s op rest ∧
      (op = .reset ∨ (∃ v, op = .write 0x018 4 v ∧ v.getLsbD 1 = true) ∨
        (s.busy = false ∧ ∃ off width v, op = .write off width v ∧ InWindow s off.toNat))

/-- R73, R348: the output stands until the next completion or reset. -/
def Obligations.OutputStandsUntilNextCompletionOrReset : Prop :=
  ∀ (s : State) t, step s = .next t → (t.outBuf ≠ s.outBuf ∨ t.outLen ≠ s.outLen) →
    (∃ e, Completing s e) ∨
      ∃ op rest, HostPerforms s op rest ∧
        (op = .reset ∨ ∃ v, op = .write 0x018 4 v ∧ v.getLsbD 1 = true)

/-- R26, R321: DONE is set only by a completion. -/
def Obligations.DoneIsSetOnlyByCompletion : Prop :=
  ∀ (s : State) t, step s = .next t → s.done = false → t.done = true → ∃ e, Completing s e

/-- R43, R318: the interrupt output is IRQ_EN and DONE: raised by a completion while IRQ_EN = 1 and by
setting IRQ_EN while DONE = 1; masked by IRQ_EN = 0; cleared by acknowledging DONE, by an acceptance and
by a reset. -/
def Obligations.InterruptFollowsEnableAndDone : Prop :=
  (∀ (s : State), s.irq = (s.irqEn && s.done)) ∧
  (∀ (s : State) e t, Completing s e → step s = .next t → t.irq = s.irqEn) ∧
  (∀ (s : State) v, v.getLsbD 1 = false → (busWrite 0x018 4 v s).irq = (v.getLsbD 0 && s.done)) ∧
  (∀ (s : State) v, v.getLsbD 1 = true → (busWrite 0x014 4 v s).irq = false) ∧
  (∀ (s : State) w, s.busy = false → (busWrite 0x010 4 w s).irq = false) ∧
  ∀ (s : State), (resetBlock s).irq = false

/-! ### Reset (70_reset_and_hazards) -/

/-- R340, R42, R342: a hardware reset leaves every register at the value of R42, abandons a command in
flight, and leaves both buffers with unspecified bytes, whatever was written before; and so stand the
registers of the machine's reset state. That the unspecified bytes are the free bytes of the draws
`s.draws` and `s.draws + 1` is the model's choice (logs 5 and 12): R340 says any value. -/
def Obligations.ResetLeavesTheSpecifiedValues : Prop :=
  (∀ (s : State) rest, HostPerforms s .reset rest →
    ∃ t, step s = .next t ∧ t.busy = false ∧ t.done = false ∧ t.err = false ∧ t.buserr = false ∧
      t.errcode = 0 ∧ t.irqEn = false ∧ t.inLen = 0 ∧ t.lzWindow = 0 ∧ t.lzLookahead = 0 ∧
      t.outLen = 0 ∧ t.statOrig = 0 ∧ t.engine = none ∧ t.irq = false ∧
      t.inCap = s.inCap ∧ t.outCap = s.outCap ∧
      (∀ i, t.inBuf.byte i = Config.bufferByte s.draws i) ∧
      ∀ i, t.outBuf.byte i = Config.bufferByte (s.draws + 1) i) ∧
  State.reset.statusWord = 0 ∧ State.reset.ctrlWord = 0 ∧ State.reset.inLen = 0 ∧
    State.reset.lzWindow = 0 ∧ State.reset.lzLookahead = 0 ∧ State.reset.outLen = 0 ∧
    State.reset.statOrig = 0 ∧ State.reset.engine = none ∧ State.reset.irq = false

/-- R341: a write of CTRL with SRST has exactly the effect of a hardware reset at that point. -/
def Obligations.SoftResetIsHardwareReset : Prop :=
  ∀ (s : State) v rest, (s.engine = none ∨ s.hostTurns ≠ 0) → v.getLsbD 1 = true →
    step { s with program := .write 0x018 4 v :: rest } = step { s with program := .reset :: rest }

/-- R8, R26, R42: the reset state has the invariant. Its capacities are free legal values, and its
counters the model's own fields (logs 2 and 12). -/
def Obligations.ResetStateHasTheInvariant : Prop := State.Inv State.reset

/-- R26, R35, R39, R310: every step keeps the invariant: legal capacities, canonical buffers,
OUT_BUF[0..OUT_LEN) specified and fitting, ERR and ERRCODE agreeing, DONE and ERR clear while busy, and
the latched record equal to the registers it was latched from. The canonical form and the counters are
the model's own (logs 5 and 12). -/
def Obligations.EveryStepKeepsTheInvariant : Prop :=
  ∀ (s : State) t, s.Inv → step s = .next t → t.Inv

/-! ### BitStream (41_bitstream) -/

/-- R160, R162: packing gives the bits followed by fewer than 8 zeros, in as many bytes as that takes,
and unpacking what was packed gives the bits back; and a legal PAD is above the number of bits only when
there is no byte and PAD is at least 1. -/
def Obligations.UnpackInvertsPack : Prop :=
  (∀ cw : List Bits, PackOf cw.flatten (pack cw).1 (pack cw).2 ∧
    unpack (pack cw).1 (pack cw).2 = .ok cw.flatten ∧
    (pack cw).1.length = (cw.flatten.length + 7) / 8) ∧
  ∀ (bytes : List Byte) pad, pad ≤ 7 →
    (8 * bytes.length < pad ↔ bytes = [] ∧ 1 ≤ pad) ∧
    (unpack bytes pad = .error .format ↔ bytes = [] ∧ 1 ≤ pad)

/-- R160, R163, R164: BS_PACK of a codeword list writes PAD and the packed bits; of anything else it is
FormatError. -/
def Obligations.BsPackPacksACodewordList : Prop :=
  ∀ (s : State),
    (∀ cw data pad, CodewordList cw s.input → PackOf cw.flatten data pad →
      Answers .bsPack s (byteOf pad :: data)) ∧
    (∀ cw, CodewordList cw s.input → ∃ data pad, PackOf cw.flatten data pad) ∧
    ((¬ ∃ cw, CodewordList cw s.input) → Fails .bsPack s .format)

/-- R161, R165: BS_UNPACK writes the bits of DATA, most significant first, without the last PAD, one a
byte; no PAD byte, PAD > 7 or PAD > 8*|DATA| is FormatError. -/
def Obligations.BsUnpackListsTheBits : Prop :=
  ∀ (s : State),
    (∀ pad data out, s.input = pad :: data → pad.toNat ≤ 7 → pad.toNat ≤ 8 * data.length →
      out.length = 8 * data.length - pad.toNat →
      (∀ k (h : k < out.length),
        out[k] = if (data.getD (k / 8) 0).getLsbD (7 - k % 8) then 1 else 0) →
      Answers .bsUnpack s out) ∧
    (s.input = [] → Fails .bsUnpack s .format) ∧
    (∀ pad data, s.input = pad :: data → (7 < pad.toNat ∨ 8 * data.length < pad.toNat) →
      Fails .bsUnpack s .format)

/-! ### RLE (44_rle) -/

/-- R281, R282: RLE_RAW_ENC writes one record `[count][byte]` for each run of the input, runs split at
255; and every input has such runs. -/
def Obligations.RleRawEncWritesItsRuns : Prop :=
  (∀ (s : State) rs, RunsOf (some 255) s.input rs → Answers .rleRawEnc s (rawRecords rs)) ∧
  ∀ x : List Byte, ∃ rs, RunsOf (some 255) x rs

/-- R283: RLE_RAW_DEC expands records of counts 1 to 255; an odd length or a count 0 is FormatError. -/
def Obligations.RleRawDecExpandsItsRecords : Prop :=
  ∀ (s : State),
    (∀ rs : List (Nat × Byte), (∀ r ∈ rs, 1 ≤ r.1 ∧ r.1 ≤ 255) → s.input = rawRecords rs →
      Answers .rleRawDec s (expandRuns rs)) ∧
    ((s.input.length % 2 = 1 ∨ ∃ k, 2 * k + 1 < s.input.length ∧ s.input.getD (2 * k) 0 = 0) →
      Fails .rleRawDec s .format)

/-- R147, R284 to R286: RLE_TXT_ENC writes symbol, decimal count and `';'` for each maximal run; every
text has such runs; and an input that is no text is ParameterError. -/
def Obligations.RleTxtEncFramesItsRuns : Prop :=
  (∀ (s : State) t rs, Holds .text s.input t → RunsOf none t rs →
    Answers .rleTxtEnc s (txt (framed rs))) ∧
  (∀ t : List Nat, ∃ rs, RunsOf none t rs) ∧
  ∀ (s : State), BadText s.input → EndsIn .rleTxtEnc s .parameter

/-- R148, R287, R288: RLE_TXT_DEC expands exactly the texts of the framing, runs of any counts from 1 on;
everything else is FormatError. -/
def Obligations.RleTxtDecParsesExactlyTheFraming : Prop :=
  ∀ (s : State),
    (∀ rs, (∀ r ∈ rs, 1 ≤ r.1 ∧ r.2 ≤ 0x10FFFF) → s.input = txt (framed rs) →
      Answers .rleTxtDec s (txt (expandRuns rs))) ∧
    ((¬ ∃ rs, (∀ r ∈ rs, 1 ≤ r.1 ∧ r.2 ≤ 0x10FFFF) ∧ s.input = txt (framed rs)) →
      Fails .rleTxtDec s .format)

/-! ### Huffman (42_huffman) -/

/-- R181, R183, R205, R206: the weights commands write the symbols with their counts, by ascending count
and then first appearance; every sequence has such a list; and a text command's input that is no text
is ParameterError. -/
def Obligations.HufWeightsListSortedCounts : Prop :=
  (∀ v (s : State) sym l, Holds v s.input sym → WeightsOf sym l →
    Answers (hufWeights v) s (weightsBytes v l)) ∧
  (∀ sym : List Nat, ∃ l, WeightsOf sym l) ∧
  ∀ (s : State), BadText s.input → EndsIn .hufTxtWeights s .parameter

/-- R186, R190: every sequence with at least two distinct symbols has exactly one tree; the tree's weight
is the sequence's length; every symbol has exactly one codeword, which is not empty; and no codeword
is a prefix of another symbol's. -/
def Obligations.HuffmanTreeIsUniqueAndPrefixFree : Prop :=
  ∀ sym : List Nat, (∃ x ∈ sym, ∃ y ∈ sym, x ≠ y) →
    ∃ tree, TreeOf sym tree ∧ (∀ tree', TreeOf sym tree' → tree' = tree) ∧
      tree.weight = sym.length ∧
      (∀ x, x ∈ sym ↔ ∃ c, CodeIn tree x c) ∧
      (∀ x c d, CodeIn tree x c → CodeIn tree x d → c = d) ∧
      (∀ x c, CodeIn tree x c → c ≠ []) ∧
      ∀ x y c d, CodeIn tree x c → CodeIn tree y d → x ≠ y → ¬ c <+: d

/-- R194: no codeword of a sequence of at most 0x100000 symbols is longer than 28 bits, and no Huffman
encoder or table command of a block with at most one megabyte of IN_BUF ends in RangeError. -/
def Obligations.CodewordsStayWithin28Bits : Prop :=
  (∀ sym tree x c, sym.length ≤ 0x100000 → TreeOf sym tree → CodeIn tree x c → c.length ≤ 28) ∧
  ∀ v (s : State), s.inCap.toNat ≤ 0x100000 →
    ¬ EndsIn (hufEnc v) s .range ∧ ¬ EndsIn (hufTable v) s .range

/-- R191 to R193, R195, R196: the Huffman encoders write header length, header and data of the code
table of their input, which includes the empty input; every input of a block with at most one megabyte
of IN_BUF has them unless it has exactly one distinct symbol, which is DegenerateInputError; and a text
encoder's input that is no text is ParameterError. -/
def Obligations.HuffmanEncoderWritesItsArtifact : Prop :=
  (∀ v (s : State) sym h data, Holds v s.input sym → EncodesTo v sym h data →
    Answers (hufEnc v) s (artifactOf h data)) ∧
  (∀ v (s : State) sym, LegalLen s → s.inCap.toNat ≤ 0x100000 → Holds v s.input sym →
    (sym = [] ∨ ∃ x ∈ sym, ∃ y ∈ sym, x ≠ y) → ∃ h data, EncodesTo v sym h data) ∧
  (∀ v (s : State) sym x, Holds v s.input sym → sym ≠ [] → (∀ y ∈ sym, y = x) →
    Fails (hufEnc v) s .degenerateInput) ∧
  (∀ v (s : State), ¬ LegalLen s → EndsIn (hufEnc v) s .parameter) ∧
  ∀ (s : State), BadText s.input → EndsIn .hufTxtEnc s .parameter

/-- R112, R203, R204: the table commands write the header that the encoder would write, and end with the
encoder's errors. -/
def Obligations.HuffmanTableWritesTheHeader : Prop :=
  (∀ v (s : State) sym h data, Holds v s.input sym → EncodesTo v sym h data →
    Answers (hufTable v) s h) ∧
  (∀ v (s : State) sym x, Holds v s.input sym → sym ≠ [] → (∀ y ∈ sym, y = x) →
    Fails (hufTable v) s .degenerateInput) ∧
  (∀ v (s : State), ¬ LegalLen s → EndsIn (hufTable v) s .parameter) ∧
  ∀ (s : State), BadText s.input → EndsIn .hufTxtTable s .parameter

/-- R188, R311: exactly one distinct symbol ends the encoders and the table commands with
DegenerateInputError, and nothing else does: no command ends so on any other input, and no decoder and
no weights command on any. -/
def Obligations.DegenerateInputIsExactlyOneSymbol : Prop :=
  (∀ v (s : State) sym x, Holds v s.input sym → sym ≠ [] → (∀ y ∈ sym, y = x) →
    Fails (hufEnc v) s .degenerateInput ∧ Fails (hufTable v) s .degenerateInput) ∧
  ∀ i (s : State), EndsIn i s .degenerateInput →
    ∃ v sym x, (i = hufEnc v ∨ i = hufTable v) ∧ Holds v s.input sym ∧ sym ≠ [] ∧ ∀ y ∈ sym, y = x

/-- R197 to R202: the Huffman decoders give the symbols of every artifact of the format, and end with
FormatError on everything else. -/
def Obligations.HuffmanDecoderAcceptsExactlyTheFormat : Prop :=
  ∀ v (s : State),
    (∀ sym, DecodesTo v s.input sym → Answers (hufDec v) s (symsOut v sym)) ∧
    ((¬ ∃ sym, DecodesTo v s.input sym) → Fails (hufDec v) s .format)

/-! ### LZ77 (43_lz77) -/

/-- R241 to R247, R252: LZ_RAW_ENC writes the records of the greedy parse by longest match, the oldest of
equals; a triple with a value above 65535 is RangeError; every input has such a parse; and W = 0 or
L = 0 is ParameterError. -/
def Obligations.LzRawEncWritesTheGreedyParse : Prop :=
  (∀ (s : State) ts, s.window ≠ 0 → s.lookahead ≠ 0 →
    LzParse (s.input.map BitVec.toNat) s.window s.lookahead 0 ts →
    (Fits16 ts → Answers .lzRawEnc s (rawTriples ts)) ∧
    (¬ Fits16 ts → Fails .lzRawEnc s .range)) ∧
  (∀ x win look, ∃ ts, LzParse x win look 0 ts) ∧
  ∀ (s : State), s.window = 0 ∨ s.lookahead = 0 → EndsIn .lzRawEnc s .parameter

/-- R147, R241 to R246, R248, R254: LZ_TXT_ENC writes the text records of the greedy parse; an input that
is no text, W = 0 or L = 0 is ParameterError. -/
def Obligations.LzTxtEncWritesTheGreedyParse : Prop :=
  (∀ (s : State) t ts, s.window ≠ 0 → s.lookahead ≠ 0 → Holds .text s.input t →
    LzParse t s.window s.lookahead 0 ts → Answers .lzTxtEnc s (txtTriples ts)) ∧
  (∀ x win look, ∃ ts, LzParse x win look 0 ts) ∧
  ∀ (s : State), BadText s.input ∨ s.window = 0 ∨ s.lookahead = 0 → EndsIn .lzTxtEnc s .parameter

/-- R249, R251, R253: LZ_RAW_DEC applies the triples in order, and ends with FormatError when the length
is no multiple of 5 or the triples cannot be applied. -/
def Obligations.LzRawDecAppliesItsTriples : Prop :=
  ∀ (s : State),
    (∀ ts out, RawTriples ts → s.input = rawTriples ts → LzExpands [] ts out →
      Answers .lzRawDec s (out.map byteOf)) ∧
    ((¬ ∃ ts out, RawTriples ts ∧ s.input = rawTriples ts ∧ LzExpands [] ts out) →
      Fails .lzRawDec s .format)

/-- R250, R251, R255: LZ_TXT_DEC applies the triples of its records, where the empty literal appends
nothing, and ends with FormatError on everything else. -/
def Obligations.LzTxtDecAppliesItsTriples : Prop :=
  ∀ (s : State),
    (∀ ts out, TxtTriples ts → s.input = txtTriples ts → LzExpands [] ts out →
      Answers .lzTxtDec s (txt out)) ∧
    ((¬ ∃ ts out, TxtTriples ts ∧ s.input = txtTriples ts ∧ LzExpands [] ts out) →
      Fails .lzTxtDec s .format)

/-- R256: the laws of an encoder's triples: a copy has 1 <= offset <= W and offset at most its cursor, a
triple without a copy has offset 0, every length is at most L, the lengths plus one sum to the input's
length, and the decoder gives the input back, for every window and lookahead. -/
def Obligations.LzTriplesObeyTheirLaws : Prop :=
  (∀ x win look ts, LzParse x win look 0 ts →
    (∀ t ∈ ts, (0 < t.length → 1 ≤ t.offset ∧ t.offset ≤ win) ∧ (t.length = 0 → t.offset = 0) ∧
      t.length ≤ look) ∧
    (∀ before t after, ts = before ++ t :: after →
      t.offset ≤ (before.map fun u => u.length + 1).sum) ∧
    (ts.map fun t => t.length + 1).sum = x.length ∧ LzExpands [] ts x) ∧
  RoundTrip .lzRawEnc .lzRawDec ∧ RoundTrip .lzTxtEnc .lzTxtDec

/-! ### Round trips -/

/-- R289: every count of the raw encoder's runs is in 1 to 255, the counts sum to the input's length, and
the round trips hold, for every input. -/
def Obligations.RleRoundTrips : Prop :=
  (∀ x rs, RunsOf (some 255) (x : List Byte) rs →
    (∀ r ∈ rs, 1 ≤ r.1 ∧ r.1 ≤ 255) ∧ (rs.map Prod.fst).sum = x.length) ∧
  RoundTrip .rleRawEnc .rleRawDec ∧ RoundTrip .rleTxtEnc .rleTxtDec

/-- R207: the Huffman round trips, for every input that the encoder accepts. -/
def Obligations.HuffmanRoundTrips : Prop :=
  RoundTrip .hufRawEnc .hufRawDec ∧ RoundTrip .hufTxtEnc .hufTxtDec
end

