-- ==== Sys2Proof/Laws/Bytes.lean ====
section
/-! SUPPORT. The laws of the byte order and bit order (00_scope R11, R12), of text in buffers
(30_encoding R100), and of grouping bits into bytes (41_bitstream R160, R161). -/

namespace Sys2Proof.Machine

/-! ### Bytes and words -/

theorem toNat_byteOf (v : Nat) : (byteOf v).toNat = v % 256 := BitVec.toNat_ofNat v 8

@[simp] theorem byteOf_toNat (b : Byte) : byteOf b.toNat = b := by simp [byteOf]

theorem byteOf_toNat_of_lt {v : Nat} (h : v < 256) : (byteOf v).toNat = v := by
  rw [toNat_byteOf, Nat.mod_eq_of_lt h]

theorem byte_lt (b : Byte) : b.toNat < 256 := b.isLt

theorem byteOf_injective {v w : Nat} (hv : v < 256) (hw : w < 256) (h : byteOf v = byteOf w) : v = w := by
  rw [← byteOf_toNat_of_lt hv, h, byteOf_toNat_of_lt hw]

theorem rd32_lt (a b c d : Byte) : rd32 a b c d < 2 ^ 32 := by
  unfold rd32
  have := byte_lt a; have := byte_lt b; have := byte_lt c; have := byte_lt d
  omega

theorem rd16_lt (a b : Byte) : rd16 a b < 2 ^ 16 := by
  unfold rd16
  have := byte_lt a; have := byte_lt b
  omega

@[simp] theorem be32_length (v : Nat) : (be32 v).length = 4 := rfl
@[simp] theorem be16_length (v : Nat) : (be16 v).length = 2 := rfl

/-- The four bytes of a value below 2^32 read back as it (R11). -/
theorem rd32_be32 {v : Nat} (h : v < 2 ^ 32) :
    rd32 (byteOf (v / 2 ^ 24)) (byteOf (v / 2 ^ 16)) (byteOf (v / 2 ^ 8)) (byteOf v) = v := by
  simp only [rd32, toNat_byteOf]
  omega

theorem rd16_be16 {v : Nat} (h : v < 2 ^ 16) : rd16 (byteOf (v / 256)) (byteOf v) = v := by
  simp only [rd16, toNat_byteOf]
  omega

/-- The value read from four bytes has those bytes (R11). -/
theorem be32_rd32 (a b c d : Byte) : be32 (rd32 a b c d) = [a, b, c, d] := by
  have := byte_lt a; have := byte_lt b; have := byte_lt c; have := byte_lt d
  have h (x : Byte) (n : Nat) (hn : n % 256 = x.toNat) : byteOf n = x := by
    apply BitVec.eq_of_toNat_eq
    rw [toNat_byteOf, hn]
  unfold be32 rd32
  rw [h a, h b, h c, h d] <;> omega

theorem be16_rd16 (a b : Byte) : be16 (rd16 a b) = [a, b] := by
  have := byte_lt a; have := byte_lt b
  have h (x : Byte) (n : Nat) (hn : n % 256 = x.toNat) : byteOf n = x := by
    apply BitVec.eq_of_toNat_eq
    rw [toNat_byteOf, hn]
  unfold be16 rd16
  rw [h a, h b] <;> omega

/-! ### Text (R100) -/

@[simp] theorem txt_nil : txt [] = [] := rfl
@[simp] theorem txt_cons (x : Nat) (t : List Nat) : txt (x :: t) = be32 x ++ txt t := rfl
theorem txt_append (s t : List Nat) : txt (s ++ t) = txt s ++ txt t := by simp [txt]
@[simp] theorem txt_length (t : List Nat) : (txt t).length = 4 * t.length := by
  induction t with
  | nil => rfl
  | cons x t ih => simp [ih]; omega

theorem words32_be32 {v : Nat} (h : v < 2 ^ 32) (rest : List Byte) :
    words32 (be32 v ++ rest) = (words32 rest).map (v :: ·) := by
  show (words32 rest).map (rd32 _ _ _ _ :: ·) = _
  rw [rd32_be32 h]

/-- Words written big-endian read back. -/
theorem words32_txt {t : List Nat} (h : ∀ x ∈ t, x < 2 ^ 32) : words32 (txt t) = some t := by
  induction t with
  | nil => rfl
  | cons x t ih =>
    rw [txt_cons, words32_be32 (h x (by simp)), ih fun y hy => h y (by simp [hy])]
    rfl

/-- The words read from a byte sequence write it back, and each is below 2^32. -/
theorem txt_words32 {s : List Byte} {t : List Nat} (h : words32 s = some t) :
    s = txt t ∧ ∀ x ∈ t, x < 2 ^ 32 := by
  induction s using words32.induct generalizing t with
  | case1 => cases h; exact ⟨rfl, by simp⟩
  | case2 a b c d rest ih =>
    simp only [words32, Option.map_eq_some_iff] at h
    obtain ⟨u, hu, rfl⟩ := h
    obtain ⟨h1, h2⟩ := ih hu
    refine ⟨by rw [txt_cons, be32_rd32, h1]; rfl, ?_⟩
    intro x hx
    rcases List.mem_cons.mp hx with rfl | hx
    · exact rd32_lt a b c d
    · exact h2 x hx
  | case3 s h1 h2 =>
    unfold words32 at h
    split at h
    · exact absurd rfl h1
    · exact absurd rfl (h2 _ _ _ _ _)
    · cases h

/-- `untxt` gives exactly the texts (R100). -/
theorem untxt_eq_some {s : List Byte} {t : List Nat} :
    untxt s = some t ↔ s = txt t ∧ Spec.IsText t := by
  unfold untxt
  constructor
  · intro h
    split at h
    · rename_i ws hws
      split at h
      · rename_i hall
        cases h
        exact ⟨(txt_words32 hws).1, fun x hx => of_decide_eq_true (List.all_eq_true.mp hall x hx)⟩
      · cases h
    · cases h
  · rintro ⟨rfl, ht⟩
    have h32 : ∀ x ∈ t, x < 2 ^ 32 := fun x hx => Nat.lt_of_le_of_lt (ht x hx) (by decide)
    rw [words32_txt h32]
    have : (t.all fun x => decide (x ≤ maxScalar)) = true :=
      List.all_eq_true.mpr fun x hx => decide_eq_true (ht x hx)
    simp [this]

theorem txt_injective {s t : List Nat} (hs : ∀ x ∈ s, x < 2 ^ 32) (ht : ∀ x ∈ t, x < 2 ^ 32)
    (h : txt s = txt t) : s = t := by
  have := words32_txt hs
  rw [h, words32_txt ht] at this
  exact (Option.some.inj this).symm

/-- A byte sequence whose length is a multiple of 4 is words. -/
theorem words32_isSome {s : List Byte} (h : s.length % 4 = 0) : ∃ t, words32 s = some t := by
  induction s using words32.induct with
  | case1 => exact ⟨[], rfl⟩
  | case2 a b c d rest ih =>
    obtain ⟨t, ht⟩ := ih (by simp only [List.length_cons] at h; omega)
    exact ⟨_, by simp only [words32, ht]; rfl⟩
  | case3 s h1 h2 =>
    exfalso
    match s with
    | [] => exact h1 rfl
    | [_] => simp at h
    | [_, _] => simp at h
    | [_, _, _] => simp at h
    | a :: b :: c :: d :: rest => exact h2 a b c d rest rfl

/-- The word `4k` bytes into a text's bytes (R65). -/
theorem rd32At_txt {t : List Nat} (h : ∀ x ∈ t, x < 2 ^ 32) (k : Nat) (hk : k < t.length) :
    Spec.rd32At (txt t) (4 * k) = t[k] := by
  induction t generalizing k with
  | nil => simp at hk
  | cons x t ih =>
    cases k with
    | zero => exact rd32_be32 (h x (by simp))
    | succ k =>
      have := ih (fun y hy => h y (by simp [hy])) k (by simpa using hk)
      rw [List.getElem_cons_succ, ← this]
      rfl

/-- `untxt` is undefined exactly on what is no text (R147, R148). -/
theorem untxt_eq_none {s : List Byte} : untxt s = none ↔ Spec.BadText s := by
  constructor
  · intro h
    by_cases hl : s.length % 4 = 0
    · right
      obtain ⟨t, ht⟩ := words32_isSome hl
      obtain ⟨rfl, h32⟩ := txt_words32 ht
      have : ¬ Spec.IsText t := fun hT => by
        rw [untxt_eq_some.mpr ⟨rfl, hT⟩] at h
        cases h
      simp only [Spec.IsText, not_forall, Nat.not_le] at this
      obtain ⟨x, hx, hbig⟩ := this
      obtain ⟨k, hk, rfl⟩ := List.mem_iff_getElem.mp hx
      exact ⟨k, by rw [txt_length]; omega, by rw [rd32At_txt h32 k hk]; exact hbig⟩
    · exact .inl hl
  · intro h
    cases hu : untxt s with
    | none => rfl
    | some t =>
      exfalso
      obtain ⟨rfl, ht⟩ := untxt_eq_some.mp hu
      have h32 : ∀ x ∈ t, x < 2 ^ 32 := fun x hx => Nat.lt_of_le_of_lt (ht x hx) (by decide)
      rcases h with h | ⟨k, hk, hbig⟩
      · exact h (by rw [txt_length]; omega)
      · have hk' : k < t.length := by rw [txt_length] at hk; omega
        rw [rd32At_txt h32 k hk'] at hbig
        exact absurd (ht _ (List.getElem_mem hk')) (Nat.not_le.mpr hbig)

theorem textIn_eq_ok {s : List Byte} {t : List Nat} :
    textIn s = .ok t ↔ s = txt t ∧ Spec.IsText t := by
  rw [← untxt_eq_some, textIn]
  cases untxt s <;> simp

theorem textIn_of_bad {s : List Byte} (h : Spec.BadText s) : textIn s = .error .parameter := by
  rw [textIn, untxt_eq_none.mpr h]

theorem textArt_eq_ok {s : List Byte} {t : List Nat} :
    textArt s = .ok t ↔ s = txt t ∧ Spec.IsText t := by
  rw [← untxt_eq_some, textArt]
  cases untxt s <;> simp

theorem textArt_of_not {s : List Byte} (h : ∀ t, ¬ (s = txt t ∧ Spec.IsText t)) :
    textArt s = .error .format := by
  cases hu : untxt s with
  | none => simp [textArt, hu]
  | some t => exact absurd (untxt_eq_some.mp hu) (h t)

/-- An encoder reads exactly the sequences its input holds (R99, R147, R149). -/
theorem symsIn_eq_ok {v : Variant} {s : List Byte} {sym : List Nat} :
    symsIn v s = .ok sym ↔ Spec.Holds v s sym := by
  cases v with
  | raw => simp [symsIn, Spec.Holds, rawSyms, eq_comm]
  | text => exact textIn_eq_ok

@[simp] theorem symBytes_raw (x : Nat) : symBytes .raw x = [byteOf x] := rfl
@[simp] theorem symBytes_text (x : Nat) : symBytes .text x = be32 x := rfl

/-- The symbols an input holds are its bytes again (R99, R100). -/
theorem symsOut_of_holds {v : Variant} {s : List Byte} {sym : List Nat} (h : Spec.Holds v s sym) :
    symsOut v sym = s := by
  cases v with
  | raw =>
    cases h
    induction s with
    | nil => rfl
    | cons b s ih => simpa [symsOut] using ih
  | text => exact h.1.symm

/-! ### Bits (R12, R160, R161) -/

@[simp] theorem bits8_length (b : Byte) : (bits8 b).length = 8 := rfl

@[simp] theorem bitsOfBytes_nil : bitsOfBytes [] = [] := rfl
@[simp] theorem bitsOfBytes_cons (b : Byte) (l : List Byte) :
    bitsOfBytes (b :: l) = bits8 b ++ bitsOfBytes l := rfl
@[simp] theorem bitsOfBytes_append (k l : List Byte) :
    bitsOfBytes (k ++ l) = bitsOfBytes k ++ bitsOfBytes l := by simp [bitsOfBytes]
@[simp] theorem bitsOfBytes_length (l : List Byte) : (bitsOfBytes l).length = 8 * l.length := by
  induction l with
  | nil => rfl
  | cons b l ih => simp [ih]; omega

/-- A byte made of eight bits has those bits (R160). -/
theorem bits8_byteOfBits (a b c d e f g h : Bool) :
    bits8 (byteOfBits a b c d e f g h) = [a, b, c, d, e, f, g, h] := by
  cases a <;> cases b <;> cases c <;> cases d <;> cases e <;> cases f <;> cases g <;> cases h <;> rfl

theorem byteOfBits_bits8 : ∀ b : Byte, bytesOfBits (bits8 b) = [b] := by decide

theorem bits8_injective {a b : Byte} (h : bits8 a = bits8 b) : a = b := by
  have := byteOfBits_bits8 a
  rw [h, byteOfBits_bits8 b] at this
  exact (List.cons.inj this).1.symm

/-- Bits grouped into bytes and spread again. -/
theorem bitsOfBytes_bytesOfBits {b : Bits} (h : b.length % 8 = 0) : bitsOfBytes (bytesOfBits b) = b := by
  induction b using bytesOfBits.induct with
  | case1 a b c d e f g h' rest ih =>
    have : rest.length % 8 = 0 := by simp only [List.length_cons] at h; omega
    simp [bytesOfBits, bits8_byteOfBits, ih this]
  | case2 b hb =>
    match b with
    | [] => rfl
    | [_] | [_, _] | [_, _, _] | [_, _, _, _] | [_, _, _, _, _] | [_, _, _, _, _, _]
    | [_, _, _, _, _, _, _] => simp at h
    | a :: b :: c :: d :: e :: f :: g :: h' :: rest => exact absurd rfl (hb a b c d e f g h' rest)

/-- Different byte sequences have different bits. -/
theorem bitsOfBytes_injective {k l : List Byte} (h : bitsOfBytes k = bitsOfBytes l) : k = l := by
  induction k generalizing l with
  | nil =>
    cases l with
    | nil => rfl
    | cons b l => simp [bits8] at h
  | cons a k ih =>
    cases l with
    | nil => simp [bits8] at h
    | cons b l =>
      rw [bitsOfBytes_cons, bitsOfBytes_cons] at h
      obtain ⟨h1, h2⟩ := List.append_inj h rfl
      rw [bits8_injective h1, ih h2]

theorem bitsOfBytes_take (l : List Byte) (n : Nat) :
    bitsOfBytes (l.take n) = (bitsOfBytes l).take (8 * n) := by
  induction n generalizing l with
  | zero => simp
  | succ n ih =>
    cases l with
    | nil => simp
    | cons b l =>
      rw [List.take_succ_cons, bitsOfBytes_cons, bitsOfBytes_cons, ih,
        show 8 * (n + 1) = (bits8 b).length + 8 * n by rw [bits8_length]; omega,
        List.take_length_add_append]

/-- The k-th bit of a byte sequence (R12). -/
theorem bitsOfBytes_getElem? (l : List Byte) (k : Nat) (h : k < 8 * l.length) :
    (bitsOfBytes l)[k]? = some ((l.getD (k / 8) 0).getLsbD (7 - k % 8)) := by
  induction l generalizing k with
  | nil => simp at h
  | cons b l ih =>
    rw [bitsOfBytes_cons]
    by_cases hk : k < 8
    · rw [List.getElem?_append_left (by simpa using hk), Nat.div_eq_of_lt hk, Nat.mod_eq_of_lt hk]
      rcases (by omega : k = 0 ∨ k = 1 ∨ k = 2 ∨ k = 3 ∨ k = 4 ∨ k = 5 ∨ k = 6 ∨ k = 7) with
        rfl | rfl | rfl | rfl | rfl | rfl | rfl | rfl <;> rfl
    · have h8 : (bits8 b).length ≤ k := by rw [bits8_length]; omega
      rw [List.getElem?_append_right h8, bits8_length, ih (k - 8) (by simp only [List.length_cons] at h; omega)]
      have h1 : k / 8 = (k - 8) / 8 + 1 := by omega
      have h2 : k % 8 = (k - 8) % 8 := by omega
      rw [h1, h2, List.getD_cons_succ]

end Sys2Proof.Machine
end

