-- ==== Sys2Proof/Laws/BitStream.lean ====
section
/-! SUPPORT. What packing, unpacking, reading a codeword and reading a codeword list give, each said once
(41_bitstream R160 to R163). -/

namespace Sys2Proof.Machine

open Sys2Proof.Spec

theorem padCount_le (n : Nat) : padCount n ≤ 7 := by unfold padCount; omega

theorem add_padCount (n : Nat) : (n + padCount n) % 8 = 0 := by unfold padCount; omega

/-- Packing packs (R160). -/
theorem packOf_packBits (b : Bits) : PackOf b (packBits b).1 (packBits b).2 := by
  refine ⟨padCount_le _, ?_⟩
  refine bitsOfBytes_bytesOfBits ?_
  rw [List.length_append, List.length_replicate]
  exact add_padCount _

/-- A bit string has one packing (R160). -/
theorem packOf_unique {b : Bits} {d : List Byte} {p : Nat} (h : PackOf b d p) :
    (packBits b).1 = d ∧ (packBits b).2 = p := by
  obtain ⟨hp, hb⟩ := h
  have hl := congrArg List.length hb
  simp only [bitsOfBytes_length, List.length_append, List.length_replicate] at hl
  have hpc : padCount b.length = p := by unfold padCount; omega
  refine ⟨bitsOfBytes_injective ?_, hpc⟩
  rw [(packOf_packBits b).2, hb]
  show b ++ List.replicate (padCount b.length) false = _
  rw [hpc]

theorem packOf_iff {b : Bits} {d : List Byte} {p : Nat} :
    PackOf b d p ↔ d = (packBits b).1 ∧ p = (packBits b).2 := by
  refine ⟨fun h => ?_, ?_⟩
  · obtain ⟨h1, h2⟩ := packOf_unique h
    exact ⟨h1.symm, h2.symm⟩
  · rintro ⟨rfl, rfl⟩
    exact packOf_packBits b

theorem packBits_length (b : Bits) : (packBits b).1.length = (b.length + 7) / 8 := by
  have h := congrArg List.length (packOf_packBits b).2
  simp only [bitsOfBytes_length, List.length_append, List.length_replicate] at h
  have : (packBits b).2 ≤ 7 := (packOf_packBits b).1
  omega

/-- Unpacking succeeds exactly when the last `pad` bits, whatever they are, can be removed (R161). -/
theorem unpack_eq_ok {d : List Byte} {pad : Nat} {b : Bits} :
    unpack d pad = .ok b ↔ pad ≤ 7 ∧ ∃ junk : Bits, junk.length = pad ∧ bitsOfBytes d = b ++ junk := by
  unfold unpack
  constructor
  · intro h
    split at h
    · cases h
    · split at h
      · cases h
      · rename_i h1 h2
        cases h
        refine ⟨by omega, (bitsOfBytes d).drop (8 * d.length - pad), ?_, (List.take_append_drop _ _).symm⟩
        rw [List.length_drop, bitsOfBytes_length]
        omega
  · rintro ⟨hp, junk, rfl, hb⟩
    have hl := congrArg List.length hb
    simp only [bitsOfBytes_length, List.length_append] at hl
    rw [if_neg (by omega), if_neg (by omega), hb, show 8 * d.length - junk.length = b.length by omega,
      List.take_left']
    rfl

theorem unpack_cases (d : List Byte) (pad : Nat) :
    (∃ b, unpack d pad = .ok b) ∨ unpack d pad = .error .format := by
  unfold unpack
  split
  · exact .inr rfl
  · split
    · exact .inr rfl
    · exact .inl ⟨_, rfl⟩

/-- Unpacking what was packed (R162). -/
theorem unpack_packBits (b : Bits) : unpack (packBits b).1 (packBits b).2 = .ok b :=
  unpack_eq_ok.mpr ⟨(packOf_packBits b).1, _, List.length_replicate .., (packOf_packBits b).2⟩

/-- Reading a codeword of `len` bits takes exactly the packing of such a codeword (R105, R163). -/
theorem readCode_eq_some {len : Nat} {s rest : List Byte} {c : Bits} :
    readCode len s = some (c, rest) ↔
      c.length = len ∧ ∃ code pad, PackOf c code pad ∧ s = code ++ rest := by
  unfold readCode
  simp only
  constructor
  · intro h
    split at h
    · cases h
    · split at h
      · cases h
      · rename_i h1 h2
        cases h
        have hlen : (bitsOfBytes (s.take (ceilDiv8 len))).length = 8 * ceilDiv8 len := by
          rw [bitsOfBytes_length, List.length_take]
          omega
        have hc : len ≤ 8 * ceilDiv8 len := by unfold ceilDiv8; omega
        have hz : ((bitsOfBytes (s.take (ceilDiv8 len))).drop len).any id = false := by simpa using h2
        refine ⟨by rw [List.length_take, hlen]; omega, s.take (ceilDiv8 len), 8 * ceilDiv8 len - len,
          ⟨by unfold ceilDiv8; omega, ?_⟩, (List.take_append_drop _ _).symm⟩
        conv => lhs; rw [← List.take_append_drop len (bitsOfBytes (s.take (ceilDiv8 len)))]
        congr 1
        rw [List.eq_replicate_iff]
        refine ⟨by rw [List.length_drop, hlen], fun x hx => ?_⟩
        have := List.any_eq_false.mp hz x hx
        simpa using this
  · rintro ⟨rfl, code, pad, hp, rfl⟩
    have hcl : code.length = ceilDiv8 c.length := by
      rw [← (packOf_unique hp).1, packBits_length]; rfl
    have ht : (code ++ rest).take (ceilDiv8 c.length) = code := by rw [← hcl, List.take_left' rfl]
    have hd : (code ++ rest).drop (ceilDiv8 c.length) = rest := by rw [← hcl, List.drop_left' rfl]
    rw [if_neg (by rw [List.length_append, hcl]; omega), ht, hd, hp.2, List.drop_left' rfl,
      List.take_left' rfl, if_neg (by simp)]

theorem readCode_length {len : Nat} {s rest : List Byte} {c : Bits} (h : readCode len s = some (c, rest)) :
    rest.length ≤ s.length := by
  obtain ⟨-, code, pad, -, rfl⟩ := readCode_eq_some.mp h
  simp

/-- Reading a codeword list succeeds exactly on codeword lists (R108, R163). -/
theorem parseCodewordsFuel_eq_ok {fuel : Nat} {s : List Byte} {cw : List Bits} (hf : s.length ≤ fuel) :
    parseCodewordsFuel fuel s = .ok cw ↔ CodewordList cw s := by
  induction fuel generalizing s cw with
  | zero =>
    have : s = [] := by simpa using hf
    subst this
    constructor
    · intro h; cases h; exact .nil
    · intro h; cases h; rfl
  | succ fuel ih =>
    cases s with
    | nil =>
      constructor
      · intro h; cases h; exact .nil
      · intro h; cases h; rfl
    | cons len s =>
      simp only [parseCodewordsFuel]
      constructor
      · intro h
        cases hr : readCode len.toNat s with
        | none => rw [hr] at h; cases h
        | some p =>
          obtain ⟨c, rest⟩ := p
          rw [hr] at h
          simp only at h
          cases hp : parseCodewordsFuel fuel rest with
          | error e => rw [hp] at h; cases h
          | ok cs =>
            rw [hp] at h
            cases h
            have hle := readCode_length hr
            have hcs := (ih (s := rest) (cw := cs) (by simp only [List.length_cons] at hf; omega)).mp hp
            obtain ⟨hl, code, pad, hpk, rfl⟩ := readCode_eq_some.mp hr
            have := CodewordList.cons (c := c) (by have := byte_lt len; omega) hpk hcs
            rwa [hl, byteOf_toNat] at this
      · intro h
        cases h with
        | @cons c code pad cs rest hl hpk hcs =>
          have hr : readCode (byteOf c.length).toNat (code ++ rest) = some (c, rest) :=
            readCode_eq_some.mpr ⟨(byteOf_toNat_of_lt (by omega)).symm, code, pad, hpk, rfl⟩
          rw [hr]
          have hle : rest.length ≤ fuel := by
            simp only [List.length_cons, List.length_append] at hf; omega
          simp only [(ih hle).mpr hcs]
          rfl

theorem parseCodewordsFuel_cases (fuel : Nat) (s : List Byte) :
    (∃ cw, parseCodewordsFuel fuel s = .ok cw) ∨ parseCodewordsFuel fuel s = .error .format := by
  induction fuel generalizing s with
  | zero => cases s <;> simp [parseCodewordsFuel]
  | succ fuel ih =>
    cases s with
    | nil => exact .inl ⟨[], rfl⟩
    | cons len s =>
      simp only [parseCodewordsFuel]
      cases readCode len.toNat s with
      | none => exact .inr rfl
      | some p =>
        rcases ih p.2 with ⟨cw, h⟩ | h <;> simp only [h]
        · exact .inl ⟨_, rfl⟩
        · exact .inr rfl

theorem parseCodewords_eq_ok {s : List Byte} {cw : List Bits} :
    parseCodewords s = .ok cw ↔ CodewordList cw s := parseCodewordsFuel_eq_ok (Nat.le_refl _)

theorem parseCodewords_of_not {s : List Byte} (h : ¬ ∃ cw, CodewordList cw s) :
    parseCodewords s = .error .format := by
  rcases parseCodewordsFuel_cases s.length s with ⟨cw, hc⟩ | hc
  · exact absurd ⟨cw, parseCodewords_eq_ok.mp hc⟩ h
  · exact hc

end Sys2Proof.Machine
end

