-- ==== Sys2Proof/Laws/State.lean ====
section
/-! SUPPORT. What each named update of the state does to each field: one lemma per field per update,
true by `rfl`, so that no later proof unfolds a record update. -/

namespace Sys2Proof.Machine

/-! ### After acceptance (R141) -/

@[simp] theorem acceptWith_done (n k : Nat) (w : Word) (s : State) : (acceptWith n k w s).done = false := rfl
@[simp] theorem acceptWith_err (n k : Nat) (w : Word) (s : State) : (acceptWith n k w s).err = false := rfl
@[simp] theorem acceptWith_buserr (n k : Nat) (w : Word) (s : State) : (acceptWith n k w s).buserr = s.buserr := rfl
@[simp] theorem acceptWith_errcode (n k : Nat) (w : Word) (s : State) : (acceptWith n k w s).errcode = 0 := rfl
@[simp] theorem acceptWith_irqEn (n k : Nat) (w : Word) (s : State) : (acceptWith n k w s).irqEn = s.irqEn := rfl
@[simp] theorem acceptWith_inLen (n k : Nat) (w : Word) (s : State) : (acceptWith n k w s).inLen = s.inLen := rfl
@[simp] theorem acceptWith_lzWindow (n k : Nat) (w : Word) (s : State) : (acceptWith n k w s).lzWindow = s.lzWindow := rfl
@[simp] theorem acceptWith_lzLookahead (n k : Nat) (w : Word) (s : State) : (acceptWith n k w s).lzLookahead = s.lzLookahead := rfl
@[simp] theorem acceptWith_outLen (n k : Nat) (w : Word) (s : State) : (acceptWith n k w s).outLen = s.outLen := rfl
@[simp] theorem acceptWith_statOrig (n k : Nat) (w : Word) (s : State) : (acceptWith n k w s).statOrig = s.inLen := rfl
@[simp] theorem acceptWith_inCap (n k : Nat) (w : Word) (s : State) : (acceptWith n k w s).inCap = s.inCap := rfl
@[simp] theorem acceptWith_outCap (n k : Nat) (w : Word) (s : State) : (acceptWith n k w s).outCap = s.outCap := rfl
@[simp] theorem acceptWith_engine (n k : Nat) (w : Word) (s : State) : (acceptWith n k w s).engine = some (latch n w s) := rfl
@[simp] theorem acceptWith_inBuf (n k : Nat) (w : Word) (s : State) : (acceptWith n k w s).inBuf = s.inBuf := rfl
@[simp] theorem acceptWith_outBuf (n k : Nat) (w : Word) (s : State) : (acceptWith n k w s).outBuf = s.outBuf := rfl
@[simp] theorem acceptWith_program (n k : Nat) (w : Word) (s : State) : (acceptWith n k w s).program = s.program := rfl
@[simp] theorem acceptWith_returned (n k : Nat) (w : Word) (s : State) : (acceptWith n k w s).returned = s.returned := rfl
@[simp] theorem acceptWith_draws (n k : Nat) (w : Word) (s : State) : (acceptWith n k w s).draws = s.draws + 1 := rfl
@[simp] theorem acceptWith_hostTurns (n k : Nat) (w : Word) (s : State) : (acceptWith n k w s).hostTurns = k := rfl
@[simp] theorem acceptWith_busy (n k : Nat) (w : Word) (s : State) : (acceptWith n k w s).busy = true := rfl

/-! ### After a wait step (R144) -/

@[simp] theorem waitStep_done (e : Engine) (s : State) : (waitStep e s).done = s.done := rfl
@[simp] theorem waitStep_err (e : Engine) (s : State) : (waitStep e s).err = s.err := rfl
@[simp] theorem waitStep_buserr (e : Engine) (s : State) : (waitStep e s).buserr = s.buserr := rfl
@[simp] theorem waitStep_errcode (e : Engine) (s : State) : (waitStep e s).errcode = s.errcode := rfl
@[simp] theorem waitStep_irqEn (e : Engine) (s : State) : (waitStep e s).irqEn = s.irqEn := rfl
@[simp] theorem waitStep_inLen (e : Engine) (s : State) : (waitStep e s).inLen = s.inLen := rfl
@[simp] theorem waitStep_lzWindow (e : Engine) (s : State) : (waitStep e s).lzWindow = s.lzWindow := rfl
@[simp] theorem waitStep_lzLookahead (e : Engine) (s : State) : (waitStep e s).lzLookahead = s.lzLookahead := rfl
@[simp] theorem waitStep_outLen (e : Engine) (s : State) : (waitStep e s).outLen = s.outLen := rfl
@[simp] theorem waitStep_statOrig (e : Engine) (s : State) : (waitStep e s).statOrig = s.statOrig := rfl
@[simp] theorem waitStep_inCap (e : Engine) (s : State) : (waitStep e s).inCap = s.inCap := rfl
@[simp] theorem waitStep_outCap (e : Engine) (s : State) : (waitStep e s).outCap = s.outCap := rfl
@[simp] theorem waitStep_engine (e : Engine) (s : State) : (waitStep e s).engine = some { e with steps := e.steps - 1 } := rfl
@[simp] theorem waitStep_inBuf (e : Engine) (s : State) : (waitStep e s).inBuf = s.inBuf := rfl
@[simp] theorem waitStep_outBuf (e : Engine) (s : State) : (waitStep e s).outBuf = s.outBuf := rfl
@[simp] theorem waitStep_program (e : Engine) (s : State) : (waitStep e s).program = s.program := rfl
@[simp] theorem waitStep_returned (e : Engine) (s : State) : (waitStep e s).returned = s.returned := rfl
@[simp] theorem waitStep_draws (e : Engine) (s : State) : (waitStep e s).draws = s.draws + 1 := rfl
@[simp] theorem waitStep_hostTurns (e : Engine) (s : State) : (waitStep e s).hostTurns = Config.hostTurns s.draws := rfl
@[simp] theorem waitStep_busy (e : Engine) (s : State) : (waitStep e s).busy = true := rfl

/-! ### After a successful completion (R142) -/

@[simp] theorem completeOk_done (out : List Byte) (s : State) : (completeOk out s).done = true := rfl
@[simp] theorem completeOk_err (out : List Byte) (s : State) : (completeOk out s).err = false := rfl
@[simp] theorem completeOk_buserr (out : List Byte) (s : State) : (completeOk out s).buserr = s.buserr := rfl
@[simp] theorem completeOk_errcode (out : List Byte) (s : State) : (completeOk out s).errcode = 0 := rfl
@[simp] theorem completeOk_irqEn (out : List Byte) (s : State) : (completeOk out s).irqEn = s.irqEn := rfl
@[simp] theorem completeOk_inLen (out : List Byte) (s : State) : (completeOk out s).inLen = s.inLen := rfl
@[simp] theorem completeOk_lzWindow (out : List Byte) (s : State) : (completeOk out s).lzWindow = s.lzWindow := rfl
@[simp] theorem completeOk_lzLookahead (out : List Byte) (s : State) : (completeOk out s).lzLookahead = s.lzLookahead := rfl
@[simp] theorem completeOk_outLen (out : List Byte) (s : State) : (completeOk out s).outLen = BitVec.ofNat 32 out.length := rfl
@[simp] theorem completeOk_statOrig (out : List Byte) (s : State) : (completeOk out s).statOrig = s.statOrig := rfl
@[simp] theorem completeOk_inCap (out : List Byte) (s : State) : (completeOk out s).inCap = s.inCap := rfl
@[simp] theorem completeOk_outCap (out : List Byte) (s : State) : (completeOk out s).outCap = s.outCap := rfl
@[simp] theorem completeOk_engine (out : List Byte) (s : State) : (completeOk out s).engine = none := rfl
@[simp] theorem completeOk_inBuf (out : List Byte) (s : State) : (completeOk out s).inBuf = s.inBuf := rfl
@[simp] theorem completeOk_outBuf (out : List Byte) (s : State) : (completeOk out s).outBuf = Buffer.holding out s.draws := rfl
@[simp] theorem completeOk_program (out : List Byte) (s : State) : (completeOk out s).program = s.program := rfl
@[simp] theorem completeOk_returned (out : List Byte) (s : State) : (completeOk out s).returned = s.returned := rfl
@[simp] theorem completeOk_draws (out : List Byte) (s : State) : (completeOk out s).draws = s.draws + 1 := rfl
@[simp] theorem completeOk_hostTurns (out : List Byte) (s : State) : (completeOk out s).hostTurns = 0 := rfl
@[simp] theorem completeOk_busy (out : List Byte) (s : State) : (completeOk out s).busy = false := rfl

/-! ### After a completion with an error (R142, R319) -/

@[simp] theorem completeErr_done (k : ErrKind) (s : State) : (completeErr k s).done = true := rfl
@[simp] theorem completeErr_err (k : ErrKind) (s : State) : (completeErr k s).err = true := rfl
@[simp] theorem completeErr_buserr (k : ErrKind) (s : State) : (completeErr k s).buserr = s.buserr := rfl
@[simp] theorem completeErr_errcode (k : ErrKind) (s : State) : (completeErr k s).errcode = k.code := rfl
@[simp] theorem completeErr_irqEn (k : ErrKind) (s : State) : (completeErr k s).irqEn = s.irqEn := rfl
@[simp] theorem completeErr_inLen (k : ErrKind) (s : State) : (completeErr k s).inLen = s.inLen := rfl
@[simp] theorem completeErr_lzWindow (k : ErrKind) (s : State) : (completeErr k s).lzWindow = s.lzWindow := rfl
@[simp] theorem completeErr_lzLookahead (k : ErrKind) (s : State) : (completeErr k s).lzLookahead = s.lzLookahead := rfl
@[simp] theorem completeErr_outLen (k : ErrKind) (s : State) : (completeErr k s).outLen = 0 := rfl
@[simp] theorem completeErr_statOrig (k : ErrKind) (s : State) : (completeErr k s).statOrig = s.statOrig := rfl
@[simp] theorem completeErr_inCap (k : ErrKind) (s : State) : (completeErr k s).inCap = s.inCap := rfl
@[simp] theorem completeErr_outCap (k : ErrKind) (s : State) : (completeErr k s).outCap = s.outCap := rfl
@[simp] theorem completeErr_engine (k : ErrKind) (s : State) : (completeErr k s).engine = none := rfl
@[simp] theorem completeErr_inBuf (k : ErrKind) (s : State) : (completeErr k s).inBuf = s.inBuf := rfl
@[simp] theorem completeErr_outBuf (k : ErrKind) (s : State) : (completeErr k s).outBuf = Buffer.holding [] s.draws := rfl
@[simp] theorem completeErr_program (k : ErrKind) (s : State) : (completeErr k s).program = s.program := rfl
@[simp] theorem completeErr_returned (k : ErrKind) (s : State) : (completeErr k s).returned = s.returned := rfl
@[simp] theorem completeErr_draws (k : ErrKind) (s : State) : (completeErr k s).draws = s.draws + 1 := rfl
@[simp] theorem completeErr_hostTurns (k : ErrKind) (s : State) : (completeErr k s).hostTurns = 0 := rfl
@[simp] theorem completeErr_busy (k : ErrKind) (s : State) : (completeErr k s).busy = false := rfl

/-! ### After a reset (R340) -/

@[simp] theorem resetBlock_done (s : State) : (resetBlock s).done = false := rfl
@[simp] theorem resetBlock_err (s : State) : (resetBlock s).err = false := rfl
@[simp] theorem resetBlock_buserr (s : State) : (resetBlock s).buserr = false := rfl
@[simp] theorem resetBlock_errcode (s : State) : (resetBlock s).errcode = 0 := rfl
@[simp] theorem resetBlock_irqEn (s : State) : (resetBlock s).irqEn = false := rfl
@[simp] theorem resetBlock_inLen (s : State) : (resetBlock s).inLen = 0 := rfl
@[simp] theorem resetBlock_lzWindow (s : State) : (resetBlock s).lzWindow = 0 := rfl
@[simp] theorem resetBlock_lzLookahead (s : State) : (resetBlock s).lzLookahead = 0 := rfl
@[simp] theorem resetBlock_outLen (s : State) : (resetBlock s).outLen = 0 := rfl
@[simp] theorem resetBlock_statOrig (s : State) : (resetBlock s).statOrig = 0 := rfl
@[simp] theorem resetBlock_inCap (s : State) : (resetBlock s).inCap = s.inCap := rfl
@[simp] theorem resetBlock_outCap (s : State) : (resetBlock s).outCap = s.outCap := rfl
@[simp] theorem resetBlock_engine (s : State) : (resetBlock s).engine = none := rfl
@[simp] theorem resetBlock_inBuf (s : State) : (resetBlock s).inBuf = ⟨[], s.draws⟩ := rfl
@[simp] theorem resetBlock_outBuf (s : State) : (resetBlock s).outBuf = ⟨[], s.draws + 1⟩ := rfl
@[simp] theorem resetBlock_program (s : State) : (resetBlock s).program = s.program := rfl
@[simp] theorem resetBlock_returned (s : State) : (resetBlock s).returned = s.returned := rfl
@[simp] theorem resetBlock_draws (s : State) : (resetBlock s).draws = s.draws + 2 := rfl
@[simp] theorem resetBlock_hostTurns (s : State) : (resetBlock s).hostTurns = 0 := rfl
@[simp] theorem resetBlock_busy (s : State) : (resetBlock s).busy = false := rfl

/-! ### After a bus error (R63) -/

@[simp] theorem busError_done (s : State) : (busError s).done = s.done := rfl
@[simp] theorem busError_err (s : State) : (busError s).err = s.err := rfl
@[simp] theorem busError_buserr (s : State) : (busError s).buserr = true := rfl
@[simp] theorem busError_errcode (s : State) : (busError s).errcode = s.errcode := rfl
@[simp] theorem busError_irqEn (s : State) : (busError s).irqEn = s.irqEn := rfl
@[simp] theorem busError_inLen (s : State) : (busError s).inLen = s.inLen := rfl
@[simp] theorem busError_lzWindow (s : State) : (busError s).lzWindow = s.lzWindow := rfl
@[simp] theorem busError_lzLookahead (s : State) : (busError s).lzLookahead = s.lzLookahead := rfl
@[simp] theorem busError_outLen (s : State) : (busError s).outLen = s.outLen := rfl
@[simp] theorem busError_statOrig (s : State) : (busError s).statOrig = s.statOrig := rfl
@[simp] theorem busError_inCap (s : State) : (busError s).inCap = s.inCap := rfl
@[simp] theorem busError_outCap (s : State) : (busError s).outCap = s.outCap := rfl
@[simp] theorem busError_engine (s : State) : (busError s).engine = s.engine := rfl
@[simp] theorem busError_inBuf (s : State) : (busError s).inBuf = s.inBuf := rfl
@[simp] theorem busError_outBuf (s : State) : (busError s).outBuf = s.outBuf := rfl
@[simp] theorem busError_program (s : State) : (busError s).program = s.program := rfl
@[simp] theorem busError_returned (s : State) : (busError s).returned = s.returned := rfl
@[simp] theorem busError_draws (s : State) : (busError s).draws = s.draws := rfl
@[simp] theorem busError_hostTurns (s : State) : (busError s).hostTurns = s.hostTurns := rfl
@[simp] theorem busError_busy (s : State) : (busError s).busy = s.busy := rfl

/-! ### After a write of STATUS (R27) -/

@[simp] theorem writeStatus_done (v : Word) (s : State) : (writeStatus v s).done = (s.done && !v.getLsbD 1) := rfl
@[simp] theorem writeStatus_err (v : Word) (s : State) : (writeStatus v s).err = s.err := rfl
@[simp] theorem writeStatus_buserr (v : Word) (s : State) : (writeStatus v s).buserr = (s.buserr && !v.getLsbD 3) := rfl
@[simp] theorem writeStatus_errcode (v : Word) (s : State) : (writeStatus v s).errcode = s.errcode := rfl
@[simp] theorem writeStatus_irqEn (v : Word) (s : State) : (writeStatus v s).irqEn = s.irqEn := rfl
@[simp] theorem writeStatus_inLen (v : Word) (s : State) : (writeStatus v s).inLen = s.inLen := rfl
@[simp] theorem writeStatus_lzWindow (v : Word) (s : State) : (writeStatus v s).lzWindow = s.lzWindow := rfl
@[simp] theorem writeStatus_lzLookahead (v : Word) (s : State) : (writeStatus v s).lzLookahead = s.lzLookahead := rfl
@[simp] theorem writeStatus_outLen (v : Word) (s : State) : (writeStatus v s).outLen = s.outLen := rfl
@[simp] theorem writeStatus_statOrig (v : Word) (s : State) : (writeStatus v s).statOrig = s.statOrig := rfl
@[simp] theorem writeStatus_inCap (v : Word) (s : State) : (writeStatus v s).inCap = s.inCap := rfl
@[simp] theorem writeStatus_outCap (v : Word) (s : State) : (writeStatus v s).outCap = s.outCap := rfl
@[simp] theorem writeStatus_engine (v : Word) (s : State) : (writeStatus v s).engine = s.engine := rfl
@[simp] theorem writeStatus_inBuf (v : Word) (s : State) : (writeStatus v s).inBuf = s.inBuf := rfl
@[simp] theorem writeStatus_outBuf (v : Word) (s : State) : (writeStatus v s).outBuf = s.outBuf := rfl
@[simp] theorem writeStatus_program (v : Word) (s : State) : (writeStatus v s).program = s.program := rfl
@[simp] theorem writeStatus_returned (v : Word) (s : State) : (writeStatus v s).returned = s.returned := rfl
@[simp] theorem writeStatus_draws (v : Word) (s : State) : (writeStatus v s).draws = s.draws := rfl
@[simp] theorem writeStatus_hostTurns (v : Word) (s : State) : (writeStatus v s).hostTurns = s.hostTurns := rfl
@[simp] theorem writeStatus_busy (v : Word) (s : State) : (writeStatus v s).busy = s.busy := rfl

/-! ### After a write to IN_BUF (R64, R65) -/

@[simp] theorem writeInBuf_done (i n : Nat) (v : Word) (s : State) : (writeInBuf i n v s).done = s.done := rfl
@[simp] theorem writeInBuf_err (i n : Nat) (v : Word) (s : State) : (writeInBuf i n v s).err = s.err := rfl
@[simp] theorem writeInBuf_buserr (i n : Nat) (v : Word) (s : State) : (writeInBuf i n v s).buserr = s.buserr := rfl
@[simp] theorem writeInBuf_errcode (i n : Nat) (v : Word) (s : State) : (writeInBuf i n v s).errcode = s.errcode := rfl
@[simp] theorem writeInBuf_irqEn (i n : Nat) (v : Word) (s : State) : (writeInBuf i n v s).irqEn = s.irqEn := rfl
@[simp] theorem writeInBuf_inLen (i n : Nat) (v : Word) (s : State) : (writeInBuf i n v s).inLen = s.inLen := rfl
@[simp] theorem writeInBuf_lzWindow (i n : Nat) (v : Word) (s : State) : (writeInBuf i n v s).lzWindow = s.lzWindow := rfl
@[simp] theorem writeInBuf_lzLookahead (i n : Nat) (v : Word) (s : State) : (writeInBuf i n v s).lzLookahead = s.lzLookahead := rfl
@[simp] theorem writeInBuf_outLen (i n : Nat) (v : Word) (s : State) : (writeInBuf i n v s).outLen = s.outLen := rfl
@[simp] theorem writeInBuf_statOrig (i n : Nat) (v : Word) (s : State) : (writeInBuf i n v s).statOrig = s.statOrig := rfl
@[simp] theorem writeInBuf_inCap (i n : Nat) (v : Word) (s : State) : (writeInBuf i n v s).inCap = s.inCap := rfl
@[simp] theorem writeInBuf_outCap (i n : Nat) (v : Word) (s : State) : (writeInBuf i n v s).outCap = s.outCap := rfl
@[simp] theorem writeInBuf_engine (i n : Nat) (v : Word) (s : State) : (writeInBuf i n v s).engine = s.engine := rfl
@[simp] theorem writeInBuf_inBuf (i n : Nat) (v : Word) (s : State) : (writeInBuf i n v s).inBuf = if n = 1 then s.inBuf.setByte i (v.extractLsb' 0 8) else s.inBuf.setWord i v := rfl
@[simp] theorem writeInBuf_outBuf (i n : Nat) (v : Word) (s : State) : (writeInBuf i n v s).outBuf = s.outBuf := rfl
@[simp] theorem writeInBuf_program (i n : Nat) (v : Word) (s : State) : (writeInBuf i n v s).program = s.program := rfl
@[simp] theorem writeInBuf_returned (i n : Nat) (v : Word) (s : State) : (writeInBuf i n v s).returned = s.returned := rfl
@[simp] theorem writeInBuf_draws (i n : Nat) (v : Word) (s : State) : (writeInBuf i n v s).draws = s.draws := rfl
@[simp] theorem writeInBuf_hostTurns (i n : Nat) (v : Word) (s : State) : (writeInBuf i n v s).hostTurns = s.hostTurns := rfl
@[simp] theorem writeInBuf_busy (i n : Nat) (v : Word) (s : State) : (writeInBuf i n v s).busy = s.busy := rfl

/-! ### The engine record that an acceptance latches (R39, R141) -/

@[simp] theorem latch_opcode (n : Nat) (w : Word) (s : State) : (latch n w s).opcode = opcodeOf w := rfl
@[simp] theorem latch_rsvdOk (n : Nat) (w : Word) (s : State) : (latch n w s).rsvdOk = rsvdOk w := rfl
@[simp] theorem latch_inLen (n : Nat) (w : Word) (s : State) : (latch n w s).inLen = s.inLen := rfl
@[simp] theorem latch_win (n : Nat) (w : Word) (s : State) : (latch n w s).win = s.lzWindow := rfl
@[simp] theorem latch_look (n : Nat) (w : Word) (s : State) : (latch n w s).look = s.lzLookahead := rfl
@[simp] theorem latch_steps (n : Nat) (w : Word) (s : State) : (latch n w s).steps = n := rfl
@[simp] theorem latch_decoded (n : Nat) (w : Word) (s : State) : (latch n w s).decoded = decode w := rfl

/-! ### BUSY and the record (R39) -/

theorem busy_eq_true_iff (s : State) : s.busy = true ↔ ∃ e, s.engine = some e :=
  Option.isSome_iff_exists

theorem busy_eq_false_iff (s : State) : s.busy = false ↔ s.engine = none := by
  cases h : s.engine <;> simp [State.busy, h]

@[simp] theorem complete_ok (out : List Byte) (s : State) : complete (.ok out) s = completeOk out s := rfl
@[simp] theorem complete_error (k : ErrKind) (s : State) : complete (.error k) s = completeErr k s := rfl

end Sys2Proof.Machine
end

