-- ==== Sys2Proof/Laws/Memory.lean ====
section
/-! SUPPORT. The laws of a buffer's memory: a read after a write gives the value written, a write leaves
every other address alone, and every memory operation keeps the canonical form. -/

namespace Sys2Proof.Machine

/-! ### Reading after writing -/

theorem get_put_self (a : Nat) (v : Byte) (m : Memory) : (m.put a v).get a = some v := by
  induction m with
  | nil => simp [Memory.put, Memory.get]
  | cons c rest ih =>
    obtain ⟨b, w⟩ := c
    simp only [Memory.put]
    split
    · simp [Memory.get]
    · split
      · simp [Memory.get]
      · rename_i h
        have hb : (a == b) = false := by simpa using h
        simpa [Memory.get, List.lookup, hb] using ih

theorem get_put_of_ne {a j : Nat} (h : j ≠ a) (v : Byte) (m : Memory) :
    (m.put a v).get j = m.get j := by
  have hja : (j == a) = false := by simpa using h
  induction m with
  | nil => simp [Memory.put, Memory.get, List.lookup, hja]
  | cons c rest ih =>
    obtain ⟨b, w⟩ := c
    simp only [Memory.put]
    split
    · simp [Memory.get, List.lookup, hja]
    · split
      · rename_i hab
        subst hab
        simp [Memory.get, List.lookup, hja]
      · cases hjb : j == b <;> simp [Memory.get, List.lookup, hjb]
        simpa [Memory.get] using ih

theorem get_ofBytes (a i : Nat) (l : List Byte) :
    (Memory.ofBytes a l).get i = if a ≤ i then l[i - a]? else none := by
  induction l generalizing a with
  | nil => simp [Memory.ofBytes, Memory.get]
  | cons v rest ih =>
    have ih' := ih (a + 1)
    simp only [Memory.get, Memory.ofBytes, List.lookup] at ih' ⊢
    by_cases hia : i = a
    · subst hia; simp
    · have : (i == a) = false := by simpa using hia
      rw [this]
      simp only [ih']
      by_cases hle : a + 1 ≤ i
      · have h1 : a ≤ i := by omega
        have h2 : i - a = (i - (a + 1)) + 1 := by omega
        simp [hle, h1, h2]
      · have h1 : ¬ a ≤ i := by omega
        simp [hle, h1]

/-! ### Canonical form -/

theorem risesFrom_mono {lo lo' hi : Nat} (h : lo' ≤ lo) {m : Memory} (hm : m.risesFrom lo hi = true) :
    m.risesFrom lo' hi = true := by
  cases m with
  | nil => rfl
  | cons c rest =>
    simp only [Memory.risesFrom, Bool.and_eq_true, decide_eq_true_eq] at hm ⊢
    exact ⟨⟨by omega, hm.1.2⟩, hm.2⟩

theorem risesFrom_put {lo hi a : Nat} (v : Byte) {m : Memory} (hm : m.risesFrom lo hi = true)
    (hlo : lo ≤ a) (hhi : a < hi) : (m.put a v).risesFrom lo hi = true := by
  induction m generalizing lo with
  | nil => simp [Memory.put, Memory.risesFrom, hlo, hhi]
  | cons c rest ih =>
    obtain ⟨b, w⟩ := c
    simp only [Memory.risesFrom, Bool.and_eq_true, decide_eq_true_eq] at hm
    obtain ⟨⟨hlb, hbh⟩, hrest⟩ := hm
    simp only [Memory.put]
    split
    · simp only [Memory.risesFrom, Bool.and_eq_true, decide_eq_true_eq]
      exact ⟨⟨hlo, hhi⟩, ⟨by omega, hbh⟩, hrest⟩
    · split
      · rename_i hab
        subst hab
        simp only [Memory.risesFrom, Bool.and_eq_true, decide_eq_true_eq]
        exact ⟨⟨hlo, hhi⟩, hrest⟩
      · simp only [Memory.risesFrom, Bool.and_eq_true, decide_eq_true_eq]
        exact ⟨⟨hlb, hbh⟩, ih hrest (by omega)⟩

theorem risesFrom_ofBytes (a hi : Nat) (l : List Byte) (h : a + l.length ≤ hi) :
    (Memory.ofBytes a l).risesFrom a hi = true := by
  induction l generalizing a with
  | nil => rfl
  | cons v rest ih =>
    simp only [List.length_cons] at h
    simp only [Memory.ofBytes, Memory.risesFrom, Bool.and_eq_true, decide_eq_true_eq]
    exact ⟨⟨Nat.le_refl a, by omega⟩, ih (a + 1) (by omega)⟩

/-- Writing a byte keeps the canonical form. -/
theorem wf_put {cap a : Nat} (v : Byte) {m : Memory} (hm : m.wf cap = true) (ha : a < cap) :
    (m.put a v).wf cap = true := risesFrom_put v hm (Nat.zero_le a) ha

/-- A completion's output is in canonical form. -/
theorem wf_ofBytes {cap : Nat} {l : List Byte} (h : l.length ≤ cap) :
    (Memory.ofBytes 0 l).wf cap = true := risesFrom_ofBytes 0 cap l (by omega)

/-- The memory with nothing listed is in canonical form. -/
@[simp] theorem wf_nil (cap : Nat) : Memory.wf cap [] = true := rfl

/-- Reset's buffers are in canonical form. -/
theorem reset_wf : State.reset.inBuf.cells.wf State.reset.inCap.toNat = true ∧
    State.reset.outBuf.cells.wf State.reset.outCap.toNat = true := ⟨rfl, rfl⟩

theorem fst_ofBytes (a : Nat) (l : List Byte) :
    (Memory.ofBytes a l).map Prod.fst = List.range' a l.length := by
  induction l generalizing a with
  | nil => rfl
  | cons v rest ih => simp [Memory.ofBytes, ih, List.range'_succ]

/-! ### Buffers -/

@[simp] theorem setByte_epoch (b : Buffer) (i : Nat) (v : Byte) : (b.setByte i v).epoch = b.epoch := rfl
@[simp] theorem setWord_epoch (b : Buffer) (i : Nat) (v : Word) : (b.setWord i v).epoch = b.epoch := rfl
@[simp] theorem holding_epoch (l : List Byte) (n : Nat) : (Buffer.holding l n).epoch = n := rfl
@[simp] theorem holding_cells (l : List Byte) (n : Nat) :
    (Buffer.holding l n).cells = Memory.ofBytes 0 l := rfl

@[simp] theorem byte_setByte_self (b : Buffer) (i : Nat) (v : Byte) : (b.setByte i v).byte i = v := by
  simp [Buffer.byte, Buffer.setByte, get_put_self]

theorem byte_setByte_of_ne (b : Buffer) {i j : Nat} (h : j ≠ i) (v : Byte) :
    (b.setByte i v).byte j = b.byte j := by
  simp [Buffer.byte, Buffer.setByte, get_put_of_ne h]

/-- What storing a word does to every byte (R65). -/
theorem byte_setWord (b : Buffer) (i j : Nat) (v : Word) :
    (b.setWord i v).byte j =
      if j = i then v.extractLsb' 24 8 else if j = i + 1 then v.extractLsb' 16 8
      else if j = i + 2 then v.extractLsb' 8 8 else if j = i + 3 then v.extractLsb' 0 8
      else b.byte j := by
  unfold Buffer.setWord
  by_cases h3 : j = i + 3
  · subst h3; simp
  rw [byte_setByte_of_ne _ h3]
  by_cases h2 : j = i + 2
  · subst h2; simp
  rw [byte_setByte_of_ne _ h2]
  by_cases h1 : j = i + 1
  · subst h1; simp
  rw [byte_setByte_of_ne _ h1]
  by_cases h0 : j = i
  · subst h0; simp
  rw [byte_setByte_of_ne _ h0]
  simp [h0, h1, h2, h3]

/-- The bytes of a buffer that holds an output (R142). -/
theorem byte_holding (l : List Byte) (n k : Nat) (h : k < l.length) :
    (Buffer.holding l n).byte k = l[k] := by
  simp [Buffer.byte, get_ofBytes, h]

/-- The bytes past an output are free (R35, U3). -/
theorem byte_holding_past (l : List Byte) (n k : Nat) (h : l.length ≤ k) :
    (Buffer.holding l n).byte k = Config.bufferByte n k := by
  simp [Buffer.byte, get_ofBytes, h]

theorem wf_setByte {cap i : Nat} (v : Byte) {b : Buffer} (hb : b.cells.wf cap = true) (hi : i < cap) :
    (b.setByte i v).cells.wf cap = true := wf_put v hb hi

theorem wf_setWord {cap i : Nat} (v : Word) {b : Buffer} (hb : b.cells.wf cap = true)
    (hi : i + 3 < cap) : (b.setWord i v).cells.wf cap = true :=
  wf_setByte _ (wf_setByte _ (wf_setByte _ (wf_setByte _ hb (by omega)) (by omega)) (by omega)) hi

end Sys2Proof.Machine
end

