-- ==== Sys2Proof/Laws/Command.lean ====
section
/-! SUPPORT. Every command's meaning is its function `F_op` run by `runCommand` (40_commands R143), and
what `runCommand` can do is said once: it completes with an output or with an error. -/

namespace Sys2Proof.Machine

/-- `F_op` (R143). -/
def commandFn : Instr → List Byte → Nat → Nat → Result
  | .nop => fNop
  | .rleRawEnc => fRleRawEnc
  | .rleRawDec => fRleRawDec
  | .rleTxtEnc => fRleTxtEnc
  | .rleTxtDec => fRleTxtDec
  | .hufRawEnc => fHufRawEnc
  | .hufRawDec => fHufRawDec
  | .hufTxtEnc => fHufTxtEnc
  | .hufTxtDec => fHufTxtDec
  | .hufRawTable => fHufRawTable
  | .hufTxtTable => fHufTxtTable
  | .hufRawWeights => fHufRawWeights
  | .hufTxtWeights => fHufTxtWeights
  | .bsPack => fBsPack
  | .bsUnpack => fBsUnpack
  | .lzRawEnc => fLzRawEnc
  | .lzRawDec => fLzRawDec
  | .lzTxtEnc => fLzTxtEnc
  | .lzTxtDec => fLzTxtDec

theorem exec_eq_runCommand (i : Instr) (s : State) : exec i s = runCommand (commandFn i) s := by
  cases i <;> rfl

theorem exec_eq_complete (i : Instr) (s : State) :
    exec i s = .next (complete (execResult (commandFn i) s) s) := exec_eq_runCommand i s

/-! ### Exec (R143) -/

theorem execResult_of_illegalLen {f : List Byte → Nat → Nat → Result} {s : State}
    (h : s.inCap.toNat < s.command.inLen.toNat) : execResult f s = .error .parameter := by
  simp [execResult, h]

theorem execResult_of_error {f : List Byte → Nat → Nat → Result} {s : State} {k : ErrKind}
    (h : LegalLen s) (hf : f s.input s.window s.lookahead = .error k) :
    execResult f s = .error k := by
  have : ¬ s.inCap.toNat < s.command.inLen.toNat := Nat.not_lt.mpr h
  simp [execResult, this, hf]

theorem execResult_of_ok {f : List Byte → Nat → Nat → Result} {s : State} {out : List Byte}
    (h : LegalLen s) (hf : f s.input s.window s.lookahead = .ok out) (hfit : Fits s out) :
    execResult f s = .ok out := by
  have h1 : ¬ s.inCap.toNat < s.command.inLen.toNat := Nat.not_lt.mpr h
  have h2 : ¬ s.outCap.toNat < out.length := Nat.not_lt.mpr hfit
  simp [execResult, h1, hf, h2]

theorem execResult_of_overflow {f : List Byte → Nat → Nat → Result} {s : State} {out : List Byte}
    (h : LegalLen s) (hf : f s.input s.window s.lookahead = .ok out)
    (hbig : s.outCap.toNat < out.length) : execResult f s = .error .capacity := by
  have h1 : ¬ s.inCap.toNat < s.command.inLen.toNat := Nat.not_lt.mpr h
  simp [execResult, h1, hf, hbig]

/-- A successful result: the length is legal, the function succeeded and its output fits. -/
theorem execResult_eq_ok {f : List Byte → Nat → Nat → Result} {s : State} {out : List Byte}
    (h : execResult f s = .ok out) :
    LegalLen s ∧ f s.input s.window s.lookahead = .ok out ∧ Fits s out := by
  unfold execResult at h
  split at h
  · cases h
  · rename_i h1
    split at h
    · cases h
    · rename_i o ho
      split at h
      · cases h
      · rename_i h2
        cases h
        exact ⟨Nat.not_lt.mp h1, ho, Nat.not_lt.mp h2⟩

/-- Every way in which a command ends with an error (R143, R317). -/
theorem execResult_eq_error {f : List Byte → Nat → Nat → Result} {s : State} {k : ErrKind}
    (h : execResult f s = .error k) :
    (s.inCap.toNat < s.command.inLen.toNat ∧ k = .parameter) ∨
      (LegalLen s ∧ f s.input s.window s.lookahead = .error k) ∨
      (LegalLen s ∧ k = .capacity ∧
        ∃ out, f s.input s.window s.lookahead = .ok out ∧ s.outCap.toNat < out.length) := by
  unfold execResult at h
  split at h
  · rename_i h1
    cases h
    exact .inl ⟨h1, rfl⟩
  · rename_i h1
    have hl : LegalLen s := Nat.not_lt.mp h1
    split at h
    · rename_i e he
      cases h
      exact .inr (.inl ⟨hl, he⟩)
    · rename_i o ho
      split at h
      · rename_i h2
        cases h
        exact .inr (.inr ⟨hl, rfl, o, ho, h2⟩)
      · cases h

/-! ### Completions -/

theorem kept_completeOk (out : List Byte) (s : State) : KeptByCompletion s (completeOk out s) :=
  ⟨rfl, rfl, rfl, rfl, rfl, rfl, rfl, rfl, rfl, rfl, rfl⟩

theorem kept_completeErr (k : ErrKind) (s : State) : KeptByCompletion s (completeErr k s) :=
  ⟨rfl, rfl, rfl, rfl, rfl, rfl, rfl, rfl, rfl, rfl, rfl⟩

theorem kept_complete (r : Result) (s : State) : KeptByCompletion s (complete r s) := by
  cases r with
  | ok out => exact kept_completeOk out s
  | error k => exact kept_completeErr k s

theorem completedOk_completeOk {out : List Byte} {s : State} (h : Fits s out) :
    CompletedOk out s (completeOk out s) where
  length := by
    have hlt : out.length < 2 ^ 32 := Nat.lt_of_le_of_lt h s.outCap.isLt
    rw [completeOk_outLen, BitVec.toNat_ofNat, Nat.mod_eq_of_lt hlt]
  bytes k hk := by simp [byte_holding _ _ _ hk]
  err := rfl
  errcode := rfl
  done := rfl
  idle := rfl
  kept := kept_completeOk out s

theorem completedErr_completeErr (k : ErrKind) (s : State) : CompletedErr k s (completeErr k s) where
  length := rfl
  err := rfl
  errcode := rfl
  done := rfl
  idle := rfl
  kept := kept_completeErr k s

/-- A command whose function gives a fitting output completes with it. -/
theorem completes_of_fn {i : Instr} {s : State} {out : List Byte} (h : LegalLen s)
    (hf : commandFn i s.input s.window s.lookahead = .ok out) (hfit : Fits s out) :
    Completes i s out := by
  refine ⟨completeOk out s, ?_, completedOk_completeOk hfit⟩
  rw [exec_eq_complete, execResult_of_ok h hf hfit, complete_ok]

theorem endsIn_of_result {i : Instr} {s : State} {k : ErrKind}
    (h : execResult (commandFn i) s = .error k) : EndsIn i s k := by
  refine ⟨completeErr k s, ?_, completedErr_completeErr k s⟩
  rw [exec_eq_complete, h, complete_error]

/-- A command whose function raises an error ends with it, when IN_LEN is legal. -/
theorem endsIn_of_fn {i : Instr} {s : State} {k : ErrKind} (h : LegalLen s)
    (hf : commandFn i s.input s.window s.lookahead = .error k) : EndsIn i s k :=
  endsIn_of_result (execResult_of_error h hf)

/-- A command whose function raises ParameterError ends with it, whatever IN_LEN. -/
theorem endsIn_parameter_of_fn {i : Instr} {s : State}
    (hf : commandFn i s.input s.window s.lookahead = .error .parameter) : EndsIn i s .parameter := by
  by_cases h : LegalLen s
  · exact endsIn_of_fn h hf
  · exact endsIn_of_result (execResult_of_illegalLen (Nat.not_le.mp h))

/-- A command whose function gives an output answers with it. -/
theorem answers_of_fn {i : Instr} {s : State} {out : List Byte}
    (hf : commandFn i s.input s.window s.lookahead = .ok out) : Answers i s out :=
  ⟨fun h => endsIn_of_result (execResult_of_illegalLen (Nat.not_le.mp h)),
    fun h => completes_of_fn h hf,
    fun h hb => endsIn_of_result (execResult_of_overflow h hf (Nat.not_le.mp hb))⟩

/-- A command whose function raises an error fails with it. -/
theorem fails_of_fn {i : Instr} {s : State} {k : ErrKind}
    (hf : commandFn i s.input s.window s.lookahead = .error k) : Fails i s k :=
  ⟨fun h => endsIn_of_result (execResult_of_illegalLen (Nat.not_le.mp h)), fun h => endsIn_of_fn h hf⟩

theorem code_injective {k k' : ErrKind} (h : k.code = k'.code) : k = k' := by
  cases k <;> cases k' <;> first | rfl | exact absurd h (by decide)

/-- A command ends with an error exactly when Exec answers it. -/
theorem endsIn_iff {i : Instr} {s : State} {k : ErrKind} :
    EndsIn i s k ↔ execResult (commandFn i) s = .error k := by
  refine ⟨?_, endsIn_of_result⟩
  rintro ⟨t, ht, hc⟩
  rw [exec_eq_complete] at ht
  cases ht
  cases hr : execResult (commandFn i) s with
  | ok out =>
    have := hc.err
    rw [hr] at this
    cases this
  | error k' =>
    have := hc.errcode
    rw [hr] at this
    rw [code_injective (k := k') (k' := k) this]

/-- A command that completes with an output: its function gave one of that length, and its bytes. -/
theorem completes_inv {i : Instr} {s : State} {out : List Byte} (h : Completes i s out) :
    LegalLen s ∧ commandFn i s.input s.window s.lookahead = .ok out ∧ Fits s out := by
  obtain ⟨t, ht, hc⟩ := h
  rw [exec_eq_complete] at ht
  cases ht
  cases hr : execResult (commandFn i) s with
  | error k =>
    have := hc.err
    rw [hr] at this
    cases this
  | ok o =>
    obtain ⟨hl, hf, hfit⟩ := execResult_eq_ok hr
    have hlen := hc.length
    have hbytes := hc.bytes
    rw [hr] at hlen hbytes
    have hlen' : out.length = o.length := by
      exact hlen.symm.trans (completedOk_completeOk hfit).length
    have : out = o := by
      refine List.ext_getElem hlen' fun k h1 h2 => ?_
      rw [← hbytes k h1]
      exact (completedOk_completeOk hfit).bytes k h2
    subst this
    exact ⟨hl, hf, hfit⟩

/-- The bytes that a completed command leaves in OUT_BUF[0..OUT_LEN). -/
theorem outBytes_completeOk {out : List Byte} {s : State} (h : Fits s out) :
    (completeOk out s).outBytes = out := by
  have hc := completedOk_completeOk (s := s) h
  refine List.ext_getElem ?_ fun k h1 h2 => ?_
  · simp only [State.outBytes, List.length_map, List.length_range]
    exact hc.length
  · simp only [State.outBytes, List.getElem_map, List.getElem_range]
    exact hc.bytes k h2

theorem outBytes_completeErr (k : ErrKind) (s : State) : (completeErr k s).outBytes = [] := rfl

end Sys2Proof.Machine
end

