-- ==== Sys2Proof/Laws/Step.lean ====
section
/-! SUPPORT. What one step can do, said once: which agent moves and what it does (20_memory R71), what a
host write can do (10_state, 20_memory), and what a host read can do (20_memory R68). -/

namespace Sys2Proof.Machine

/-! ### Which agent moves -/

theorem step_idle {s : State} (h : s.engine = none) : step s = .next (hostStep s) := by
  simp [step, machineStep, h]

theorem step_host {s : State} {e : Engine} (h : s.engine = some e) (ht : engineTurn s = false) :
    step s = .next (hostStep s) := by
  simp [step, machineStep, h, ht]

theorem step_engine {s : State} {e : Engine} (h : s.engine = some e) (ht : engineTurn s = true) :
    step s = engineStep e s := by
  simp [step, machineStep, h, ht]

theorem step_wait {s : State} {e : Engine} (h : s.engine = some e) (ht : engineTurn s = true)
    (hs : 1 < e.steps) : step s = .next (waitStep e s) := by
  rw [step_engine h ht]
  simp [engineStep, hs]

theorem step_completing {s : State} {e : Engine} {i : Instr} (h : Completing s e)
    (hd : e.decoded = .ok i) : step s = exec i s := by
  obtain ⟨h1, h2, h3⟩ := h
  rw [step_engine h1 h3]
  simp [engineStep, Nat.not_lt.mpr h2, hd]

theorem step_illegal {s : State} {e : Engine} {r : Reject} (h : Completing s e)
    (hd : e.decoded = .error r) : step s = .next (completeErr .illegalCommand s) := by
  obtain ⟨h1, h2, h3⟩ := h
  rw [step_engine h1 h3]
  simp [engineStep, Nat.not_lt.mpr h2, hd]

theorem hostStep_performs {s : State} {op : HostOp} {rest : List HostOp} (h : HostPerforms s op rest) :
    step s = .next (perform op (s.afterIssue rest)) := by
  obtain ⟨hp, he⟩ := h
  have hh : hostStep s = perform op (s.afterIssue rest) := by
    unfold hostStep; rw [hp]; rfl
  cases hs : s.engine with
  | none => rw [step_idle hs, hh]
  | some e =>
    have ht : engineTurn s = false := by
      cases he with
      | inl h => rw [hs] at h; cases h
      | inr h => exact h
    rw [step_host hs ht, hh]

/-- Everything one step can be: nothing is left to do; the host performs the oldest entry of its
program; the engine waits; the engine completes, with a result or, for an ILLEGAL word, with
IllegalCommand. -/
theorem step_cases (s : State) :
    (s.engine = none ∧ s.program = [] ∧ step s = .next s) ∨
    (∃ op rest, HostPerforms s op rest ∧ step s = .next (perform op (s.afterIssue rest))) ∨
    (∃ e, s.engine = some e ∧ 1 < e.steps ∧ engineTurn s = true ∧ step s = .next (waitStep e s)) ∨
    (∃ e r, Completing s e ∧ step s = .next (complete r s) ∧
      ((∃ i, e.decoded = .ok i ∧ r = execResult (commandFn i) s) ∨
        ∃ x, e.decoded = .error x ∧ r = .error .illegalCommand)) := by
  cases hs : s.engine with
  | none =>
    cases hp : s.program with
    | nil => exact .inl ⟨rfl, rfl, by rw [step_idle hs]; simp [hostStep, hp]⟩
    | cons op rest =>
      have h : HostPerforms s op rest := ⟨hp, .inl hs⟩
      exact .inr (.inl ⟨op, rest, h, hostStep_performs h⟩)
  | some e =>
    cases ht : engineTurn s with
    | false =>
      cases hp : s.program with
      | nil => simp [engineTurn, hp] at ht
      | cons op rest =>
        have h : HostPerforms s op rest := ⟨hp, .inr ht⟩
        exact .inr (.inl ⟨op, rest, h, hostStep_performs h⟩)
    | true =>
      by_cases hw : 1 < e.steps
      · exact .inr (.inr (.inl ⟨e, rfl, hw, rfl, step_wait hs ht hw⟩))
      · have hc : Completing s e := ⟨hs, Nat.not_lt.mp hw, ht⟩
        cases hd : e.decoded with
        | ok i =>
          refine .inr (.inr (.inr ⟨e, _, hc, ?_, .inl ⟨i, hd, rfl⟩⟩))
          rw [step_completing hc hd, exec_eq_complete]
        | error x =>
          refine .inr (.inr (.inr ⟨e, .error .illegalCommand, hc, ?_, .inr ⟨x, hd, rfl⟩⟩))
          rw [step_illegal hc hd, complete_error]

/-! ### Host reads -/

/-- Everything a read can do to the state: nothing, one draw while busy, or a bus error. -/
theorem busRead_state (off : Offset) (width : Nat) (s : State) :
    (busRead off width s).2 = s ∨
      (s.busy = true ∧ (busRead off width s).2 = { s with draws := s.draws + 1 }) ∨
      busRead off width s = (0, busError s) := by
  unfold busRead
  split
  · rename_i r _
    cases r <;> simp [readReg]
    split
    · rename_i hb
      exact .inr (.inl ⟨hb, rfl⟩)
    · exact .inl rfl
  · exact .inl rfl
  · split
    · rename_i hb
      exact .inr (.inl ⟨hb, rfl⟩)
    · exact .inl rfl
  · exact .inr (.inr rfl)

/-! ### Host writes -/

theorem target_reg {s : State} {off : Offset} {width : Nat} {r : Reg}
    (h : target s off width = some (.reg r)) : width = 4 ∧ regAt off.toNat = some r := by
  unfold target at h
  simp only at h
  split at h
  · split at h
    · rename_i hw
      refine ⟨hw, ?_⟩
      cases hr : regAt off.toNat <;> simp [hr] at h
      rw [h]
    · cases h
  · split at h
    · split at h <;> cases h
    · split at h
      · split at h <;> cases h
      · cases h

theorem target_inBuf {s : State} {off : Offset} {width i : Nat}
    (h : target s off width = some (.inBuf i)) :
    inBase ≤ off.toNat ∧ i = off.toNat - inBase ∧ i < s.inCap.toNat ∧
      (width = 1 ∨ (width = 4 ∧ off.toNat % 4 = 0)) := by
  unfold target at h
  simp only at h
  split at h
  · split at h
    · cases hr : regAt off.toNat <;> simp [hr] at h
    · cases h
  · split at h
    · rename_i hw
      split at h
      · rename_i hb
        simp only [Option.some.injEq, Target.inBuf.injEq] at h
        refine ⟨hw.1, h.symm, ?_, by simpa [bufferAccess] using hb⟩
        rw [← h]
        exact Nat.sub_lt_left_of_lt_add hw.1 hw.2
      · cases h
    · split at h
      · split at h <;> cases h
      · cases h

/-- The offset of each register (10_state section 2). -/
def regOffset : Reg → Nat
  | .id => 0x000
  | .inCap => 0x004
  | .outCap => 0x008
  | .cmd => 0x010
  | .status => 0x014
  | .ctrl => 0x018
  | .inLen => 0x020
  | .outLen => 0x024
  | .lzWindow => 0x028
  | .lzLookahead => 0x02C
  | .statOrig => 0x030

theorem regAt_regOffset (r : Reg) : regAt (regOffset r) = some r := by cases r <;> rfl

theorem regAt_eq {o : Nat} {r : Reg} (h : regAt o = some r) : o = regOffset r := by
  simp only [regAt, List.lookup] at h
  repeat'
    split at h
    · rename_i hb
      have ho := eq_of_beq hb
      cases h
      exact ho
  cases h

/-- Everything a write can do (R25 to R37, R63 to R65). -/
theorem busWrite_cases (off : Offset) (width : Nat) (v : Word) (s : State) :
    busWrite off width v s = busError s ∨
    (s.engine = none ∧ width = 4 ∧ off.toNat = 0x010 ∧ busWrite off width v s = accept v s) ∨
    (width = 4 ∧ off.toNat = 0x014 ∧ busWrite off width v s = writeStatus v s) ∨
    (width = 4 ∧ off.toNat = 0x018 ∧ v.getLsbD 1 = true ∧ busWrite off width v s = resetBlock s) ∨
    (width = 4 ∧ off.toNat = 0x018 ∧ v.getLsbD 1 = false ∧
      busWrite off width v s = { s with irqEn := v.getLsbD 0 }) ∨
    (s.engine = none ∧ busWrite off width v s = { s with inLen := v }) ∨
    (s.engine = none ∧ busWrite off width v s = { s with lzWindow := v }) ∨
    (s.engine = none ∧ busWrite off width v s = { s with lzLookahead := v }) ∨
    (s.engine = none ∧ ∃ i, target s off width = some (.inBuf i) ∧
      busWrite off width v s = writeInBuf i width v s) := by
  have idle (t : State) : (whenIdle s t = busError s) ∨ (s.engine = none ∧ whenIdle s t = t) := by
    cases hb : s.busy
    · exact .inr ⟨(busy_eq_false_iff s).mp hb, by simp [whenIdle, hb]⟩
    · exact .inl (by simp [whenIdle, hb])
  cases ht : target s off width with
  | none => exact .inl (by simp [busWrite, ht])
  | some tg =>
    cases tg with
    | outBuf i => exact .inl (by simp [busWrite, ht])
    | inBuf i =>
      have hw : busWrite off width v s = whenIdle s (writeInBuf i width v s) := by
        simp [busWrite, ht]
      rw [hw]
      rcases idle (writeInBuf i width v s) with h | ⟨he, h⟩
      · exact .inl h
      · exact .inr (.inr (.inr (.inr (.inr (.inr (.inr (.inr ⟨he, i, rfl, h⟩)))))))
    | reg r =>
      obtain ⟨hwid, hreg⟩ := target_reg ht
      have hoff := regAt_eq hreg
      have hw : busWrite off width v s = writeReg r v s := by simp [busWrite, ht]
      rw [hw]
      cases r with
      | id => exact .inl rfl
      | inCap => exact .inl rfl
      | outCap => exact .inl rfl
      | outLen => exact .inl rfl
      | statOrig => exact .inl rfl
      | status => exact .inr (.inr (.inl ⟨hwid, hoff, rfl⟩))
      | ctrl =>
        cases hv : v.getLsbD 1
        · exact .inr (.inr (.inr (.inr (.inl ⟨hwid, hoff, rfl, if_neg (by rw [hv]; decide)⟩))))
        · exact .inr (.inr (.inr (.inl ⟨hwid, hoff, rfl, if_pos hv⟩)))
      | cmd =>
        rcases idle (accept v s) with h | ⟨he, h⟩
        · exact .inl h
        · exact .inr (.inl ⟨he, hwid, hoff, h⟩)
      | inLen =>
        rcases idle { s with inLen := v } with h | ⟨he, h⟩
        · exact .inl h
        · exact .inr (.inr (.inr (.inr (.inr (.inl ⟨he, h⟩)))))
      | lzWindow =>
        rcases idle { s with lzWindow := v } with h | ⟨he, h⟩
        · exact .inl h
        · exact .inr (.inr (.inr (.inr (.inr (.inr (.inl ⟨he, h⟩))))))
      | lzLookahead =>
        rcases idle { s with lzLookahead := v } with h | ⟨he, h⟩
        · exact .inl h
        · exact .inr (.inr (.inr (.inr (.inr (.inr (.inr (.inl ⟨he, h⟩)))))))

end Sys2Proof.Machine
end

