-- ==== Sys2Proof/Laws/Bus.lean ====
section
/-! SUPPORT. What an access reaches, said once by offset and width (20_memory R61 to R65), and the bytes of
a bus word. -/

namespace Sys2Proof.Machine

open Sys2Proof.Spec

/-- A legal capacity is a multiple of 4 from 4 to 0x100000 (00_scope R8). -/
theorem capLegal_bound {c : Word} (h : Config.capLegal c = true) :
    c.toNat % 4 = 0 ∧ 4 ≤ c.toNat ∧ c.toNat ≤ 0x100000 := by
  simp [Config.capLegal] at h; omega

theorem not_regOffset_of_regAt {o : Nat} (h : regAt o = none) : ¬ RegOffset o := by
  intro hr
  rcases hr with rfl | rfl | rfl | rfl | rfl | rfl | rfl | rfl | rfl | rfl | rfl <;> cases h

theorem regAt_of_regOffset {o : Nat} (h : RegOffset o) : ∃ r, regAt o = some r ∧ o = regOffset r := by
  cases hr : regAt o with
  | none => exact absurd h (not_regOffset_of_regAt hr)
  | some r => exact ⟨r, rfl, regAt_eq hr⟩

theorem regOffset_lt {o : Nat} (h : RegOffset o) : o < 0x1000 := by
  rcases h with rfl | rfl | rfl | rfl | rfl | rfl | rfl | rfl | rfl | rfl | rfl <;> decide

theorem isRegOffset_regOffset (r : Reg) : RegOffset (regOffset r) := by
  cases r <;> simp [RegOffset, regOffset]

theorem bufferAccess_iff (o w : Nat) : bufferAccess o w = true ↔ BufferWidth o w := by
  simp [bufferAccess, BufferWidth]

/-- A 4-byte access at a register's offset reaches it (R61, R62). -/
theorem target_of_reg {s : State} {off : Offset} {r : Reg} (h : regAt off.toNat = some r) :
    target s off 4 = some (.reg r) := by
  have : off.toNat < 0x1000 := regOffset_lt (by rw [regAt_eq h]; exact isRegOffset_regOffset r)
  simp [target, this, h]

/-- A legal access in the IN_BUF window reaches its byte index (R61, R64, R65). -/
theorem target_of_in {s : State} {off : Offset} {w : Nat} (h : InWindow s off.toNat)
    (hb : BufferWidth off.toNat w) :
    target s off w = some (.inBuf (off.toNat - 0x100000)) := by
  obtain ⟨h1, h2⟩ := h
  have h0 : ¬ off.toNat < 0x1000 := by omega
  have := (bufferAccess_iff off.toNat w).mpr hb
  simp [target, h0, inBase, h1, h2, this]

/-- A legal access in the OUT_BUF window reaches its byte index (R61, R64, R65). -/
theorem target_of_out {s : State} {off : Offset} {w : Nat} (hc : Config.capLegal s.inCap = true)
    (h : OutWindow s off.toNat) (hb : BufferWidth off.toNat w) :
    target s off w = some (.outBuf (off.toNat - 0x200000)) := by
  obtain ⟨h1, h2⟩ := h
  have := capLegal_bound hc
  have h0 : ¬ off.toNat < 0x1000 := by omega
  have h3 : ¬ (off.toNat < 0x100000 + s.inCap.toNat) := by omega
  have := (bufferAccess_iff off.toNat w).mpr hb
  simp [target, h0, inBase, outBase, h1, h2, h3, this]

/-- What an access reaches is legal (R63). -/
theorem legal_of_target {s : State} {off : Offset} {w : Nat} {t : Target}
    (h : target s off w = some t) : LegalAccess s off w := by
  unfold target at h
  simp only at h
  split at h
  · split at h
    · rename_i hw
      cases hr : regAt off.toNat with
      | none => simp [hr] at h
      | some r => exact .inl ⟨by rw [regAt_eq hr]; exact isRegOffset_regOffset r, hw⟩
    · cases h
  · split at h
    · rename_i hw
      split at h
      · rename_i hb; exact .inr ⟨.inl hw, (bufferAccess_iff _ _).mp hb⟩
      · cases h
    · split at h
      · rename_i hw
        split at h
        · rename_i hb; exact .inr ⟨.inr hw, (bufferAccess_iff _ _).mp hb⟩
        · cases h
      · cases h

/-- An access that is not legal reaches nothing (R63 a to d). -/
theorem target_none {s : State} {off : Offset} {w : Nat} (h : ¬ LegalAccess s off w) :
    target s off w = none := by
  cases ht : target s off w with
  | none => rfl
  | some t => exact absurd (legal_of_target ht) h

theorem toNat_inOffset {s : State} {i : Nat} (hc : Config.capLegal s.inCap = true)
    (h : i < s.inCap.toNat) :
    (BitVec.ofNat 22 (0x100000 + i)).toNat = 0x100000 + i := by
  have := capLegal_bound hc
  simp; omega

theorem toNat_outOffset {s : State} {i : Nat} (hc : Config.capLegal s.outCap = true)
    (h : i < s.outCap.toNat) :
    (BitVec.ofNat 22 (0x200000 + i)).toNat = 0x200000 + i := by
  have := capLegal_bound hc
  simp; omega

/-- The offset of byte `i` of IN_BUF reaches it (R61). -/
theorem target_inIndex {s : State} {i w : Nat} (hc : Config.capLegal s.inCap = true) (h : i < s.inCap.toNat)
    (hw : BufferWidth i w) : target s (BitVec.ofNat 22 (0x100000 + i)) w = some (.inBuf i) := by
  have ho := toNat_inOffset hc h
  rw [target_of_in (by rw [ho]; exact ⟨by omega, by omega⟩)
    (by rw [ho]; unfold BufferWidth at *; omega), ho]
  simp

/-- The offset of byte `i` of OUT_BUF reaches it (R61). -/
theorem target_outIndex {s : State} {i w : Nat} (hci : Config.capLegal s.inCap = true)
    (hc : Config.capLegal s.outCap = true) (h : i < s.outCap.toNat) (hw : BufferWidth i w) : target s (BitVec.ofNat 22 (0x200000 + i)) w = some (.outBuf i) := by
  have ho := toNat_outOffset hc h
  rw [target_of_out hci (by rw [ho]; exact ⟨by omega, by omega⟩)
    (by rw [ho]; unfold BufferWidth at *; omega), ho]
  simp

theorem bytes_of_word (a b c d : Nat) (ha : a < 256) (hb : b < 256) (hc : c < 256) (hd : d < 256) :
    (a * 16777216 + b * 65536 + c * 256 + d) / 16777216 % 256 = a ∧
      (a * 16777216 + b * 65536 + c * 256 + d) / 65536 % 256 = b ∧
      (a * 16777216 + b * 65536 + c * 256 + d) / 256 % 256 = c ∧
      (a * 16777216 + b * 65536 + c * 256 + d) % 256 = d := by omega

/-- Byte `j` of a bus word stands in bits [31 - 8j : 24 - 8j] (R65). -/
theorem extract_word (b : Buffer) (i j : Nat) (hj : j < 4) :
    (b.word i).extractLsb' (24 - 8 * j) 8 = b.byte (i + j) := by
  apply BitVec.eq_of_toNat_eq
  have h := bytes_of_word _ _ _ _ (b.byte i).isLt (b.byte (i + 1)).isLt
    (b.byte (i + 2)).isLt (b.byte (i + 3)).isLt
  have hw : (b.word i).toNat = rd32 (b.byte i) (b.byte (i + 1)) (b.byte (i + 2)) (b.byte (i + 3)) :=
    (BitVec.toNat_ofNat _ _).trans (Nat.mod_eq_of_lt (rd32_lt _ _ _ _))
  rw [BitVec.extractLsb'_toNat, hw, Nat.shiftRight_eq_div_pow]
  rcases (by omega : j = 0 ∨ j = 1 ∨ j = 2 ∨ j = 3) with rfl | rfl | rfl | rfl
  · exact h.1
  · exact h.2.1
  · exact h.2.2.1
  · exact (congrArg (· % 256) (Nat.div_one _)).trans h.2.2.2

end Sys2Proof.Machine
end

