-- ==== Sys2Proof/Laws/Huffman.lean ====
section
/-! SUPPORT. What the frequency table, the weights sorter, the tree builder and the code-table generator
give, each said once (42_huffman R181 to R190). -/

namespace Sys2Proof.Machine

open Sys2Proof.Spec

/-! ### Sorted lists -/

/-- Two lists in the same strict order with the same elements are one list. -/
theorem eq_of_pairwise_of_mem_iff {α : Type} {r : α → α → Prop} (hasymm : ∀ a b, r a b → ¬ r b a)
    {k l : List α} (hk : k.Pairwise r) (hl : l.Pairwise r) (h : ∀ a, a ∈ k ↔ a ∈ l) : k = l := by
  induction k generalizing l with
  | nil =>
    cases l with
    | nil => rfl
    | cons b l => exact absurd ((h b).mpr (by simp)) (by simp)
  | cons a k ih =>
    cases l with
    | nil => exact absurd ((h a).mp (by simp)) (by simp)
    | cons b l =>
      have hirr : ∀ x, ¬ r x x := fun x hx => hasymm x x hx hx
      rw [List.pairwise_cons] at hk hl
      have hab : a = b := by
        rcases List.mem_cons.mp ((h a).mp (by simp)) with h1 | h1
        · exact h1
        · rcases List.mem_cons.mp ((h b).mpr (by simp)) with h2 | h2
          · exact h2.symm
          · exact absurd (hk.1 b h2) (hasymm _ _ (hl.1 a h1))
      subst hab
      congr 1
      refine ih hk.2 hl.2 fun x => ?_
      have hx := h x
      simp only [List.mem_cons] at hx
      constructor
      · intro hm
        rcases hx.mp (.inr hm) with rfl | h1
        · exact absurd (hk.1 _ hm) (hirr _)
        · exact h1
      · intro hm
        rcases hx.mpr (.inr hm) with rfl | h1
        · exact absurd (hl.1 _ hm) (hirr _)
        · exact h1

/-! ### The frequency table (R181) -/

theorem fst_countSym (x : Nat) (t : FreqTable) :
    (countSym x t).map Prod.fst = if x ∈ t.map Prod.fst then t.map Prod.fst else t.map Prod.fst ++ [x] := by
  induction t with
  | nil => rfl
  | cons p t ih =>
    obtain ⟨y, c⟩ := p
    unfold countSym
    split
    · rename_i h
      subst h
      simp
    · rename_i h
      rw [List.map_cons, ih]
      have hne : ¬ x = y := fun e => h e.symm
      simp only [List.map_cons, List.mem_cons, hne, false_or]
      split <;> simp

theorem mem_countSym {x : Nat} {t : FreqTable} (hn : (t.map Prod.fst).Nodup) {p : Nat × Nat}
    (hp : p ∈ countSym x t) :
    (p.1 = x ∧ ((p.2 = 1 ∧ x ∉ t.map Prod.fst) ∨ ∃ c, (x, c) ∈ t ∧ p.2 = c + 1)) ∨ (p.1 ≠ x ∧ p ∈ t) := by
  induction t with
  | nil =>
    simp only [countSym, List.mem_singleton] at hp
    subst hp
    exact .inl ⟨rfl, .inl ⟨rfl, by simp⟩⟩
  | cons q t ih =>
    obtain ⟨y, c⟩ := q
    rw [List.map_cons, List.nodup_cons] at hn
    unfold countSym at hp
    split at hp
    · rename_i h
      subst h
      rcases List.mem_cons.mp hp with rfl | hp
      · exact .inl ⟨rfl, .inr ⟨c, by simp, rfl⟩⟩
      · refine .inr ⟨fun e => hn.1 ?_, by simp [hp]⟩
        exact List.mem_map.mpr ⟨p, hp, e⟩
    · rename_i h
      rcases List.mem_cons.mp hp with rfl | hp
      · exact .inr ⟨h, by simp⟩
      · rcases ih hn.2 hp with ⟨h1, ⟨h2, h3⟩ | ⟨d, h2, h3⟩⟩ | ⟨h1, h2⟩
        · exact .inl ⟨h1, .inl ⟨h2, by simp only [List.map_cons, List.mem_cons, not_or]; exact ⟨fun e => h e.symm, h3⟩⟩⟩
        · exact .inl ⟨h1, .inr ⟨d, by simp [h2], h3⟩⟩
        · exact .inr ⟨h1, by simp [h2]⟩

theorem freqOf_nodup {sym : List Nat} {t : FreqTable} (h : FreqOf sym t) : (t.map Prod.fst).Nodup := by
  rw [List.Nodup, List.pairwise_map]
  exact h.order.imp fun {a b} hab e => by rw [e] at hab; exact Nat.lt_irrefl _ hab

theorem freq_append (sym : List Nat) (x : Nat) : freq (sym ++ [x]) = countSym x (freq sym) := by
  simp [freq]

/-- The linear scan gives the frequency table (R181). -/
theorem freq_freqOf (sym : List Nat) : FreqOf sym (freq sym) := by
  induction sym using List.reverseRecOn with
  | nil => exact ⟨by simp [freq], by simp [freq], by simp [freq]⟩
  | append_singleton sym x ih =>
    have hn := freqOf_nodup ih
    have hidx : ∀ y ∈ sym, (sym ++ [x]).idxOf y = sym.idxOf y := fun y hy => List.idxOf_append_of_mem hy
    have hfst : ((freq sym).map Prod.fst).Pairwise fun a b => (sym ++ [x]).idxOf a < (sym ++ [x]).idxOf b := by
      rw [List.pairwise_map]
      refine ih.order.imp_of_mem fun {a b} ha hb hab => ?_
      rw [hidx a.1 ((ih.occurs _).mp (List.mem_map_of_mem ha)),
        hidx b.1 ((ih.occurs _).mp (List.mem_map_of_mem hb))]
      exact hab
    rw [freq_append]
    refine ⟨fun y => ?_, fun p hp => ?_, ?_⟩
    · rw [fst_countSym]
      split
      · rename_i h
        rw [ih.occurs] at h ⊢
        simp only [List.mem_append, List.mem_singleton]
        exact ⟨.inl, fun h' => h'.elim id fun e => e ▸ h⟩
      · simp only [List.mem_append, List.mem_singleton, ih.occurs]
    · rw [List.count_append]
      rcases mem_countSym hn hp with ⟨h1, ⟨h2, h3⟩ | ⟨c, h2, h3⟩⟩ | ⟨h1, h2⟩
      · rw [h1, h2, List.count_eq_zero.mpr fun hx => h3 ((ih.occurs x).mpr hx)]
        simp
      · have := ih.counts _ h2
        simp only at this
        rw [h1, h3, this]
        simp
      · rw [ih.counts p h2, List.count_singleton, if_neg (by simpa using fun e => h1 e.symm)]
        omega
    · have : ((countSym x (freq sym)).map Prod.fst).Pairwise
          fun a b => (sym ++ [x]).idxOf a < (sym ++ [x]).idxOf b := by
        rw [fst_countSym]
        split
        · exact hfst
        · rename_i h
          have hx : x ∉ sym := fun hx => h ((ih.occurs x).mpr hx)
          rw [List.pairwise_append]
          refine ⟨hfst, by simp, fun a ha b hb => ?_⟩
          have ha' := (ih.occurs a).mp ha
          rw [List.mem_singleton.mp hb, hidx a ha', List.idxOf_append_of_notMem hx]
          have := List.idxOf_lt_length_of_mem ha'
          omega
      rwa [List.pairwise_map] at this

/-- A sequence has one frequency table (R181). -/
theorem freqOf_unique {sym : List Nat} {t u : FreqTable} (ht : FreqOf sym t) (hu : FreqOf sym u) : t = u := by
  refine eq_of_pairwise_of_mem_iff (r := fun p q => sym.idxOf p.1 < sym.idxOf q.1) (fun a b h => by omega)
    ht.order hu.order fun p => ?_
  have key : ∀ {t u : FreqTable}, FreqOf sym t → FreqOf sym u → p ∈ t → p ∈ u := by
    intro t u ht hu hp
    have hmem := (hu.occurs p.1).mpr ((ht.occurs p.1).mp (List.mem_map_of_mem hp))
    obtain ⟨q, hq, hqp⟩ := List.mem_map.mp hmem
    have : q = p := Prod.ext hqp (by rw [hu.counts q hq, ht.counts p hp, hqp])
    exact this ▸ hq
  exact ⟨key ht hu, key hu ht⟩

/-! ### Node order (R185) -/

theorem nodeLess_iff {u v : HufTree} :
    nodeLess u v = true ↔ u.weight < v.weight ∨ (u.weight = v.weight ∧ u.seq < v.seq) := by
  simp [nodeLess]

theorem nodeLess_asymm {u v : HufTree} (h : nodeLess u v = true) : ¬ nodeLess v u = true := by
  rw [nodeLess_iff] at h ⊢
  omega

theorem nodeLess_trans {u v w : HufTree} (h : nodeLess u v = true) (h' : nodeLess v w = true) :
    nodeLess u w = true := by
  rw [nodeLess_iff] at h h' ⊢
  omega

theorem nodeLess_total {u v : HufTree} (h : u.seq ≠ v.seq) : nodeLess u v = true ∨ nodeLess v u = true := by
  rw [nodeLess_iff, nodeLess_iff]
  omega

/-- A queue in node order. -/
def Ordered (q : List HufTree) : Prop := q.Pairwise fun u v => nodeLess u v = true

theorem insertNode_perm (u : HufTree) (q : List HufTree) : (insertNode u q).Perm (u :: q) := by
  induction q with
  | nil => exact .refl _
  | cons v q ih =>
    unfold insertNode
    split
    · exact .refl _
    · exact (ih.cons v).trans (.swap u v q)

theorem insertNode_ordered {u : HufTree} {q : List HufTree} (h : Ordered q) (hs : ∀ v ∈ q, u.seq ≠ v.seq) :
    Ordered (insertNode u q) := by
  induction q with
  | nil => exact List.pairwise_singleton _ _
  | cons v q ih =>
    unfold Ordered at h
    rw [List.pairwise_cons] at h
    unfold insertNode
    split
    · rename_i huv
      refine List.pairwise_cons.mpr ⟨fun w hw => ?_, List.pairwise_cons.mpr h⟩
      rcases List.mem_cons.mp hw with rfl | hw
      · exact huv
      · exact nodeLess_trans huv (h.1 w hw)
    · rename_i huv
      refine List.pairwise_cons.mpr ⟨fun w hw => ?_, ih h.2 fun w hw => hs w (by simp [hw])⟩
      rcases List.mem_cons.mp ((insertNode_perm u q).mem_iff.mp hw) with rfl | hw
      · exact (nodeLess_total (hs v (by simp))).resolve_left huv
      · exact h.1 w hw

/-- Distinct seq keys. -/
def DistinctSeqs (q : List HufTree) : Prop := (q.map HufTree.seq).Nodup

theorem foldl_insertNode {q l : List HufTree} (hq : Ordered q) (hd : DistinctSeqs (q ++ l)) :
    Ordered (l.foldl (fun k u => insertNode u k) q) ∧
      (l.foldl (fun k u => insertNode u k) q).Perm (q ++ l) := by
  induction l generalizing q with
  | nil => exact ⟨hq, by simp⟩
  | cons u l ih =>
    rw [List.foldl_cons]
    have hp : (insertNode u q ++ l).Perm (q ++ u :: l) :=
      ((insertNode_perm u q).append_right l).trans List.perm_middle.symm
    have hs : ∀ v ∈ q, u.seq ≠ v.seq := by
      intro v hv
      unfold DistinctSeqs at hd
      rw [List.map_append, List.nodup_append] at hd
      exact fun e => hd.2.2 v.seq (List.mem_map_of_mem hv) u.seq (by simp) e.symm
    obtain ⟨h1, h2⟩ := ih (insertNode_ordered hq hs)
      ((hp.map HufTree.seq).nodup_iff.mpr hd)
    exact ⟨h1, h2.trans hp⟩

/-! ### Leaves and weights (R182, R183) -/

theorem leavesFrom_eq (i : Nat) (t : FreqTable) :
    leavesFrom i t = (t.zipIdx i).map fun p => HufTree.leaf p.1.2 p.2 p.1.1 := by
  induction t generalizing i with
  | nil => rfl
  | cons p t ih => simp [leavesFrom, ih, List.zipIdx_cons]

theorem leavesFrom_zero (t : FreqTable) : leavesFrom 0 t = leaves t := leavesFrom_eq 0 t

theorem seqs_leaves (t : FreqTable) : (leaves t).map HufTree.seq = List.range t.length := by
  have : (leaves t).map HufTree.seq = t.zipIdx.map Prod.snd := by
    simp [leaves, Function.comp_def, HufTree.seq]
  rw [this, List.zipIdx_map_snd, List.range_eq_range']

theorem leaves_length (t : FreqTable) : (leaves t).length = t.length := by simp [leaves]

theorem leaves_distinct (t : FreqTable) : DistinctSeqs (leaves t) := by
  unfold DistinctSeqs
  rw [seqs_leaves]
  exact List.nodup_range

/-- The sorter gives the leaves in node order (R183). -/
theorem weights_spec (t : FreqTable) : Ordered (weights t) ∧ (weights t).Perm (leaves t) := by
  unfold weights
  rw [leavesFrom_zero]
  exact foldl_insertNode (q := []) List.Pairwise.nil (leaves_distinct t)

theorem mem_leaves {t : FreqTable} {u : HufTree} (h : u ∈ leaves t) :
    ∃ (i : Nat) (hi : i < t.length), u = .leaf t[i].2 i t[i].1 := by
  obtain ⟨p, hp, rfl⟩ := List.mem_map.mp h
  obtain ⟨⟨x, c⟩, i⟩ := p
  obtain ⟨h1, h2⟩ := List.mem_zipIdx' hp
  exact ⟨i, h1, by rw [← h2]⟩

theorem leaves_mem {t : FreqTable} {i : Nat} (hi : i < t.length) : .leaf t[i].2 i t[i].1 ∈ leaves t := by
  refine List.mem_map.mpr ⟨(t[i], i), ?_, rfl⟩
  rw [List.mem_zipIdx_iff_getElem?]
  simp [hi]

/-- A leaf as (symbol, weight). -/
def leafPair : HufTree → Nat × Nat
  | .leaf w _ x => (x, w)
  | .node w _ _ _ => (0, w)

/-- The sorted leaves are the weights list (R183). -/
theorem weightsOf_weights {sym : List Nat} {t : FreqTable} (h : FreqOf sym t) :
    WeightsOf sym ((weights t).map leafPair) := by
  obtain ⟨ho, hp⟩ := weights_spec t
  have hleaf : ∀ u ∈ weights t, ∃ (i : Nat) (hi : i < t.length), u = .leaf t[i].2 i t[i].1 :=
    fun u hu => mem_leaves (hp.mem_iff.mp hu)
  refine ⟨fun x => ?_, fun p hpm => ?_, ?_⟩
  · rw [← h.occurs x]
    constructor
    · intro hx
      obtain ⟨p, hpm, rfl⟩ := List.mem_map.mp hx
      obtain ⟨u, hu, rfl⟩ := List.mem_map.mp hpm
      obtain ⟨i, hi, rfl⟩ := hleaf u hu
      exact List.mem_map_of_mem (List.getElem_mem hi)
    · intro hx
      obtain ⟨p, hpm, rfl⟩ := List.mem_map.mp hx
      obtain ⟨i, hi, rfl⟩ := List.mem_iff_getElem.mp hpm
      refine List.mem_map.mpr ⟨_, List.mem_map.mpr ⟨_, hp.mem_iff.mpr (leaves_mem hi), rfl⟩, rfl⟩
  · obtain ⟨u, hu, rfl⟩ := List.mem_map.mp hpm
    obtain ⟨i, hi, rfl⟩ := hleaf u hu
    exact h.counts _ (List.getElem_mem hi)
  · rw [List.pairwise_map]
    refine List.Pairwise.imp_of_mem ?_ ho
    intro u v hu hv huv
    obtain ⟨i, hi, rfl⟩ := hleaf u hu
    obtain ⟨j, hj, rfl⟩ := hleaf v hv
    rw [nodeLess_iff] at huv
    rcases huv with h1 | ⟨h1, h2⟩
    · exact .inl h1
    · exact .inr ⟨h1, List.pairwise_iff_getElem.mp h.order i j hi hj h2⟩

/-- A sequence has one weights list (R183). -/
theorem weightsOf_unique {sym : List Nat} {k l : List (Nat × Nat)} (hk : WeightsOf sym k)
    (hl : WeightsOf sym l) : k = l := by
  refine eq_of_pairwise_of_mem_iff
    (r := fun p q => p.2 < q.2 ∨ (p.2 = q.2 ∧ sym.idxOf p.1 < sym.idxOf q.1)) (fun a b h => by omega)
    hk.order hl.order fun p => ?_
  have key : ∀ {t u : List (Nat × Nat)}, WeightsOf sym t → WeightsOf sym u → p ∈ t → p ∈ u := by
    intro t u ht hu hp
    have hmem := (hu.occurs p.1).mpr ((ht.occurs p.1).mp (List.mem_map_of_mem hp))
    obtain ⟨q, hq, hqp⟩ := List.mem_map.mp hmem
    have : q = p := Prod.ext hqp (by rw [hu.counts q hq, ht.counts p hp, hqp])
    exact this ▸ hq
  exact ⟨key hk hl, key hl hk⟩

theorem weights_bytes (v : Variant) (t : FreqTable) :
    (weights t).flatMap (weightBytes v) = weightsBytes v ((weights t).map leafPair) := by
  have hleaf : ∀ u ∈ weights t, ∃ w q x, u = .leaf w q x := fun u hu => by
    obtain ⟨i, hi, rfl⟩ := mem_leaves ((weights_spec t).2.mem_iff.mp hu)
    exact ⟨_, _, _, rfl⟩
  generalize weights t = l at hleaf
  induction l with
  | nil => rfl
  | cons u l ih =>
    obtain ⟨w, q, x, rfl⟩ := hleaf u (by simp)
    have := ih fun u hu => hleaf u (by simp [hu])
    simp only [weightsBytes] at this
    simp [weightsBytes, weightBytes, leafPair, this]

/-- What the weights commands compute (R205, R206). -/
theorem huffWeights_eq {v : Variant} {input : List Byte} {sym : List Nat} {l : List (Nat × Nat)}
    (hs : Holds v input sym) (hl : WeightsOf sym l) : huffWeights v input = .ok (weightsBytes v l) := by
  rw [huffWeights, symsIn_eq_ok.mpr hs,
    weightsOf_unique hl (weightsOf_weights (freq_freqOf sym)), ← weights_bytes]
  rfl

/-! ### The tree builder (R186) -/

/-- The builder's result is determined by the nodes in the queue, whatever their order. -/
theorem builds_unique {next : Nat} {q q' : List HufTree} {t t' : HufTree} (h : Builds next q t)
    (h' : Builds next q' t') (hp : q.Perm q') : t = t' := by
  induction h generalizing q' t' with
  | done next t =>
    cases h' with
    | done => simpa using hp
    | merge hq _ _ _ => exact absurd (hp.trans hq).length_eq (by simp)
  | @merge next queue rest a b t hq ha hb _ ih =>
    cases h' with
    | done => exact absurd (hp.symm.trans hq).length_eq (by simp)
    | @merge _ _ rest' a' b' _ hq' ha' hb' hrest' =>
      have h1 : (a :: b :: rest).Perm (a' :: b' :: rest') := hq.symm.trans (hp.trans hq')
      have least : ∀ {x y : HufTree} {k l : List HufTree}, (x :: k).Perm (y :: l) →
          (∀ v ∈ k, nodeLess x v = true) → (∀ v ∈ l, nodeLess y v = true) → x = y := by
        intro x y k l hxy hx hy
        rcases List.mem_cons.mp (hxy.mem_iff.mp List.mem_cons_self) with h | h
        · exact h
        · rcases List.mem_cons.mp (hxy.mem_iff.mpr List.mem_cons_self) with h2 | h2
          · exact h2.symm
          · exact absurd (hx y h2) (nodeLess_asymm (hy x h))
      have haa := least h1 ha ha'
      subst haa
      have h2 := h1.cons_inv
      have hbb := least h2 hb hb'
      subst hbb
      exact ih hrest' (h2.cons_inv.cons _)

/-- The order of the queue does not matter to the builder. -/
theorem builds_perm {next : Nat} {q q' : List HufTree} {t : HufTree} (h : Builds next q t)
    (hp : q.Perm q') : Builds next q' t := by
  cases h with
  | done =>
    cases List.perm_singleton.mp hp.symm
    exact .done _ _
  | merge hq ha hb hrest => exact .merge (hp.symm.trans hq) ha hb hrest

/-- The loop builds, on a queue in node order whose seq keys are distinct and below the next key. -/
theorem mergeAll_builds {fuel next : Nat} {q : List HufTree} (hq : Ordered q) (hd : DistinctSeqs q)
    (hn : ∀ u ∈ q, u.seq < next) (hf : q.length ≤ fuel + 1) (hne : q ≠ []) :
    ∃ t, mergeAll fuel next q = some t ∧ Builds next q t := by
  induction fuel generalizing next q with
  | zero =>
    match q with
    | [] => exact absurd rfl hne
    | [t] => exact ⟨t, rfl, .done next t⟩
    | _ :: _ :: _ => simp at hf
  | succ fuel ih =>
    match q, hq, hd, hn, hf with
    | [], _, _, _, _ => exact absurd rfl hne
    | [t], _, _, _, _ => exact ⟨t, rfl, .done next t⟩
    | a :: b :: rest, hq, hd, hn, hf =>
      unfold Ordered at hq
      rw [List.pairwise_cons, List.pairwise_cons] at hq
      have hdr : DistinctSeqs rest := by
        unfold DistinctSeqs at hd ⊢
        rw [List.map_cons, List.map_cons, List.nodup_cons, List.nodup_cons] at hd
        exact hd.2.2
      have hm : ∀ v ∈ rest, (mergeNodes next a b).seq ≠ v.seq := fun v hv =>
        Nat.ne_of_gt (hn v (by simp [hv]))
      have hp := insertNode_perm (mergeNodes next a b) rest
      obtain ⟨t, h1, h2⟩ := ih (next := next + 1) (q := insertNode (mergeNodes next a b) rest)
        (insertNode_ordered hq.2.2 hm)
        (by
          unfold DistinctSeqs
          rw [(hp.map HufTree.seq).nodup_iff, List.map_cons, List.nodup_cons]
          refine ⟨fun hmem => ?_, hdr⟩
          obtain ⟨v, hv, he⟩ := List.mem_map.mp hmem
          exact hm v hv he.symm)
        (by
          intro u hu
          rcases List.mem_cons.mp (hp.mem_iff.mp hu) with rfl | hu
          · exact Nat.lt_succ_self next
          · have := hn u (by simp [hu]); omega)
        (by rw [hp.length_eq]; simp only [List.length_cons] at hf ⊢; omega)
        (by intro h; rw [h] at hp; exact absurd hp.length_eq (by simp))
      refine ⟨t, h1, .merge (.refl _) (fun v hv => ?_) hq.2.1 ?_⟩
      · exact hq.1 v hv
      · exact builds_perm h2 hp

/-- The block's builder builds the tree of a frequency table with at least two symbols (R186). -/
theorem buildTree_builds {t : FreqTable} (h : 2 ≤ t.length) :
    ∃ tree, buildTree t = .ok (some tree) ∧ Builds t.length (leaves t) tree := by
  obtain ⟨ho, hp⟩ := weights_spec t
  have hlen : (weights t).length = t.length := hp.length_eq.trans (leaves_length t)
  obtain ⟨tree, h1, h2⟩ := mergeAll_builds (fuel := t.length) (next := t.length) ho
    ((hp.map HufTree.seq).nodup_iff.mpr (leaves_distinct t))
    (by
      intro u hu
      have := List.mem_map_of_mem (f := HufTree.seq) (hp.mem_iff.mp hu)
      rw [seqs_leaves] at this
      exact List.mem_range.mp this)
    (by omega)
    (by intro h0; rw [h0] at hlen; simp at hlen; omega)
  refine ⟨tree, ?_, builds_perm h2 hp⟩
  match t, h, h1 with
  | _ :: _ :: _, _, h1 => exact congrArg Except.ok h1

/-- A sequence with at least two distinct symbols has one tree, the block's (R186). -/
theorem treeOf_iff {sym : List Nat} {tree : HufTree} :
    TreeOf sym tree ↔ 2 ≤ (freq sym).length ∧ buildTree (freq sym) = .ok (some tree) := by
  constructor
  · rintro ⟨t, ht, h2, hb⟩
    rw [freqOf_unique ht (freq_freqOf sym)] at h2 hb
    obtain ⟨tree', h1, hb'⟩ := buildTree_builds h2
    rw [builds_unique hb hb' (.refl _)]
    exact ⟨h2, h1⟩
  · rintro ⟨h2, hb⟩
    obtain ⟨tree', h1, hb'⟩ := buildTree_builds h2
    rw [hb] at h1
    cases h1
    exact ⟨freq sym, freq_freqOf sym, h2, hb'⟩

theorem two_le_freq_iff {sym : List Nat} : 2 ≤ (freq sym).length ↔ ∃ x ∈ sym, ∃ y ∈ sym, x ≠ y := by
  have h := freq_freqOf sym
  constructor
  · intro h2
    have h0 : 0 < ((freq sym).map Prod.fst).length := by rw [List.length_map]; omega
    have h1 : 1 < ((freq sym).map Prod.fst).length := by rw [List.length_map]; omega
    refine ⟨_, (h.occurs _).mp (List.getElem_mem h0), _, (h.occurs _).mp (List.getElem_mem h1), ?_⟩
    intro e
    have := (List.Nodup.getElem_inj_iff (freqOf_nodup h)).mp e
    omega
  · rintro ⟨x, hx, y, hy, hne⟩
    obtain ⟨i, hi, rfl⟩ := List.mem_iff_getElem.mp ((h.occurs x).mpr hx)
    obtain ⟨j, hj, rfl⟩ := List.mem_iff_getElem.mp ((h.occurs y).mpr hy)
    rw [List.length_map] at hi hj
    by_contra hlt
    have : i = j := by omega
    subst this
    exact hne rfl

theorem freq_eq_nil_iff {sym : List Nat} : freq sym = [] ↔ sym = [] := by
  constructor
  · intro h
    rw [List.eq_nil_iff_forall_not_mem]
    intro x hx
    have := ((freq_freqOf sym).occurs x).mpr hx
    rw [h] at this
    simp at this
  · rintro rfl; rfl

/-! ### Codewords (R189, R190) -/

/-- The symbols of a tree's leaves, left to right. -/
def HufTree.syms : HufTree → List Nat
  | .leaf _ _ x => [x]
  | .node _ _ l r => l.syms ++ r.syms

theorem fst_codes (t : HufTree) (pre : Bits) : (codes t pre).map Prod.fst = t.syms := by
  induction t generalizing pre with
  | leaf w q x => rfl
  | node w q l r hl hr => simp [codes, hl, hr, HufTree.syms]

/-- The code table lists the paths to the leaves (R189). -/
theorem mem_codes {t : HufTree} {pre : Bits} {x : Nat} {c : Bits} :
    (x, c) ∈ codes t pre ↔ ∃ d, c = pre ++ d ∧ CodeIn t x d := by
  induction t generalizing pre with
  | leaf w q y =>
    simp only [codes, List.mem_singleton, Prod.mk.injEq]
    constructor
    · rintro ⟨rfl, rfl⟩
      exact ⟨[], by simp, .leaf w q x⟩
    · rintro ⟨d, rfl, hd⟩
      cases hd
      simp
  | node w q l r hl hr =>
    simp only [codes, List.mem_append, hl, hr]
    constructor
    · rintro (⟨d, rfl, hd⟩ | ⟨d, rfl, hd⟩)
      · exact ⟨false :: d, by simp, .left hd⟩
      · exact ⟨true :: d, by simp, .right hd⟩
    · rintro ⟨d, rfl, hd⟩
      cases hd with
      | left hd => exact .inl ⟨_, by simp, hd⟩
      | right hd => exact .inr ⟨_, by simp, hd⟩

theorem mem_codeTable {t : HufTree} {x : Nat} {c : Bits} :
    (x, c) ∈ codeTable (some t) ↔ CodeIn t x c := by
  rw [codeTable, mem_codes]
  simp

theorem codeIn_mem_syms {t : HufTree} {x : Nat} {c : Bits} (h : CodeIn t x c) : x ∈ t.syms := by
  rw [← fst_codes t []]
  exact List.mem_map.mpr ⟨(x, c), mem_codeTable.mpr h, rfl⟩

theorem exists_codeIn {t : HufTree} {x : Nat} (h : x ∈ t.syms) : ∃ c, CodeIn t x c := by
  rw [← fst_codes t []] at h
  obtain ⟨⟨y, c⟩, hm, rfl⟩ := List.mem_map.mp h
  exact ⟨c, mem_codeTable.mp hm⟩

/-- In a tree with distinct symbols, a codeword that begins another's is the same symbol's (R190). -/
theorem codeIn_prefix_free {t : HufTree} (hn : t.syms.Nodup) {x y : Nat} {c d : Bits} (hx : CodeIn t x c)
    (hy : CodeIn t y d) (h : c <+: d) : x = y ∧ c = d := by
  induction hx generalizing d with
  | leaf w q z => cases hy; exact ⟨rfl, rfl⟩
  | @left w q x l r c hx ih =>
    rw [HufTree.syms, List.nodup_append] at hn
    cases hy with
    | left hy =>
      obtain ⟨h1, h2⟩ := ih hn.1 hy (List.cons_prefix_cons.mp h).2
      exact ⟨h1, by rw [h2]⟩
    | right hy => exact absurd (List.cons_prefix_cons.mp h).1 (by simp)
  | @right w q x l r c hx ih =>
    rw [HufTree.syms, List.nodup_append] at hn
    cases hy with
    | left hy => exact absurd (List.cons_prefix_cons.mp h).1 (by simp)
    | right hy =>
      obtain ⟨h1, h2⟩ := ih hn.2.1 hy (List.cons_prefix_cons.mp h).2
      exact ⟨h1, by rw [h2]⟩

/-- In a tree with distinct symbols, every symbol has one codeword. -/
theorem codeIn_unique {t : HufTree} (hn : t.syms.Nodup) {x : Nat} {c d : Bits} (hx : CodeIn t x c)
    (hy : CodeIn t x d) : c = d := by
  induction hx generalizing d with
  | leaf w q z => cases hy; rfl
  | @left w q x l r c hx ih =>
    rw [HufTree.syms, List.nodup_append] at hn
    cases hy with
    | left hy => rw [ih hn.1 hy]
    | right hy => exact absurd rfl (hn.2.2 x (codeIn_mem_syms hx) x (codeIn_mem_syms hy))
  | @right w q x l r c hx ih =>
    rw [HufTree.syms, List.nodup_append] at hn
    cases hy with
    | left hy => exact absurd rfl (hn.2.2 x (codeIn_mem_syms hy) x (codeIn_mem_syms hx))
    | right hy => rw [ih hn.2.1 hy]

/-- Merging keeps the leaves. -/
theorem builds_syms {next : Nat} {q : List HufTree} {t : HufTree} (h : Builds next q t) :
    t.syms.Perm (q.flatMap HufTree.syms) := by
  induction h with
  | done => simp
  | @merge next queue rest a b t hq ha hb _ ih =>
    refine ih.trans ?_
    have := (hq.flatMap_right HufTree.syms).symm
    simpa [HufTree.syms] using this

/-- Merging keeps the weight. -/
theorem builds_weight {next : Nat} {q : List HufTree} {t : HufTree} (h : Builds next q t) :
    t.weight = (q.map HufTree.weight).sum := by
  induction h with
  | done => simp
  | @merge next queue rest a b t hq ha hb _ ih =>
    have := (hq.map HufTree.weight).sum_eq
    rw [ih, this]
    simp [HufTree.weight]
    omega

theorem syms_leaves (t : FreqTable) : (leaves t).flatMap HufTree.syms = t.map Prod.fst := by
  have : (leaves t).flatMap HufTree.syms = t.zipIdx.map fun p => p.1.1 := by
    unfold leaves
    rw [List.flatMap_map]
    simp [HufTree.syms, List.map_eq_flatMap]
  rw [this]
  have h := List.zipIdx_map_fst 0 t
  conv => rhs; rw [← h]
  rw [List.map_map]
  rfl

theorem weights_leaves (t : FreqTable) : (leaves t).map HufTree.weight = t.map Prod.snd := by
  have h := List.zipIdx_map_fst 0 t
  conv => rhs; rw [← h]
  rw [List.map_map, leaves, List.map_map]
  rfl

/-- The leaves of a sequence's tree are its symbols, each once. -/
theorem treeOf_syms {sym : List Nat} {tree : HufTree} (h : TreeOf sym tree) :
    tree.syms.Nodup ∧ ∀ x, x ∈ tree.syms ↔ x ∈ sym := by
  obtain ⟨t, ht, -, hb⟩ := h
  have hp := builds_syms hb
  rw [syms_leaves] at hp
  exact ⟨hp.nodup_iff.mpr (freqOf_nodup ht), fun x => by rw [hp.mem_iff, ht.occurs]⟩

/-- A codeword of a sequence's tree is not empty. -/
theorem treeOf_code_ne_nil {sym : List Nat} {tree : HufTree} (h : TreeOf sym tree) {x : Nat} {c : Bits}
    (hc : CodeIn tree x c) : c ≠ [] := by
  rintro rfl
  obtain ⟨t, -, h2, hb⟩ := h
  cases hc
  have := builds_syms hb
  rw [syms_leaves] at this
  have := this.length_eq
  simp [HufTree.syms] at this
  omega

end Sys2Proof.Machine
end

