-- ==== Sys2Proof/Laws/HuffmanContainer.lean ====
section
/-! SUPPORT. What the Huffman container writer and reader and the bit decoder give, each said once
(42_huffman R191 to R200). -/

namespace Sys2Proof.Machine

open Sys2Proof.Spec

/-! ### Code tables -/

/-- Looking up a symbol of a table whose symbols are distinct. -/
theorem codeOf_of_mem {code : CodeTable} (hn : (code.map Prod.fst).Nodup) {x : Nat} {c : Bits}
    (h : (x, c) ∈ code) : codeOf code x = c := by
  induction code with
  | nil => cases h
  | cons e code ih =>
    obtain ⟨y, d⟩ := e
    rw [List.map_cons, List.nodup_cons] at hn
    unfold codeOf
    rcases List.mem_cons.mp h with h1 | h1
    · cases h1
      simp
    · have hne : (x == y) = false := by
        rw [beq_eq_false_iff_ne]
        rintro rfl
        exact hn.1 (List.mem_map.mpr ⟨(x, c), h1, rfl⟩)
      rw [List.lookup_cons, hne]
      exact ih hn.2 h1

theorem codeOf_tree {sym : List Nat} {tree : HufTree} (h : TreeOf sym tree) {x : Nat} {c : Bits}
    (hc : CodeIn tree x c) : codeOf (codeTable (some tree)) x = c := by
  refine codeOf_of_mem ?_ (mem_codeTable.mpr hc)
  rw [codeTable, fst_codes]
  exact (treeOf_syms h).1

/-- The block's code table of a symbol sequence, in order of first appearance (R189, R192). -/
def orderedTable (code : CodeTable) (sym : List Nat) : CodeTable :=
  (freq sym).map fun p => (p.1, codeOf code p.1)

/-- The root of the block's tree (R186, R188) for a sequence that has a table. -/
def RootOf (sym : List Nat) (root : Option HufTree) : Prop :=
  (sym = [] ∧ root = none) ∨ ∃ tree, TreeOf sym tree ∧ root = some tree

theorem buildTree_of_rootOf {sym : List Nat} {root : Option HufTree} (h : RootOf sym root) :
    buildTree (freq sym) = .ok root := by
  rcases h with ⟨rfl, rfl⟩ | ⟨tree, ht, rfl⟩
  · rfl
  · exact (treeOf_iff.mp ht).2

/-- The table of a sequence is the block's (R189, R192). -/
theorem tableOf_iff {sym : List Nat} {table : CodeTable} :
    TableOf sym table ↔ ∃ root, RootOf sym root ∧ table = orderedTable (codeTable root) sym := by
  constructor
  · rintro ⟨⟨t, ht, hfst⟩, h⟩
    rw [freqOf_unique ht (freq_freqOf sym)] at hfst
    rcases h with rfl | ⟨tree, htree, hall⟩
    · refine ⟨none, .inl ⟨rfl, rfl⟩, ?_⟩
      have : freq [] = [] := rfl
      rw [this] at hfst
      simpa [orderedTable, this] using hfst
    · refine ⟨some tree, .inr ⟨tree, htree, rfl⟩, ?_⟩
      have h1 : table = table.map fun e => (e.1, codeOf (codeTable (some tree)) e.1) := by
        conv => lhs; rw [← List.map_id table]
        refine List.map_congr_left fun e he => ?_
        rw [codeOf_tree htree (hall e he)]
        rfl
      have h2 : (table.map fun e => (e.1, codeOf (codeTable (some tree)) e.1)) =
          (table.map Prod.fst).map fun x => (x, codeOf (codeTable (some tree)) x) := by
        rw [List.map_map]; rfl
      rw [h1, h2, hfst, List.map_map]
      rfl
  · rintro ⟨root, hroot, rfl⟩
    refine ⟨⟨freq sym, freq_freqOf sym, by simp [orderedTable, Function.comp_def]⟩, ?_⟩
    rcases hroot with ⟨rfl, rfl⟩ | ⟨tree, htree, rfl⟩
    · exact .inl rfl
    · refine .inr ⟨tree, htree, fun e he => ?_⟩
      obtain ⟨p, hp, rfl⟩ := List.mem_map.mp he
      have hx : p.1 ∈ sym := ((freq_freqOf sym).occurs p.1).mp (List.mem_map.mpr ⟨p, hp, rfl⟩)
      obtain ⟨c, hc⟩ := exists_codeIn (((treeOf_syms htree).2 p.1).mpr hx)
      simp only
      rwa [codeOf_tree htree hc]

theorem orderedTable_nodup (code : CodeTable) (sym : List Nat) :
    ((orderedTable code sym).map Prod.fst).Nodup := by
  have : (orderedTable code sym).map Prod.fst = (freq sym).map Prod.fst := by
    simp [orderedTable, Function.comp_def]
  rw [this]
  exact freqOf_nodup (freq_freqOf sym)

/-- Every symbol of a sequence has its entry in the table. -/
theorem mem_orderedTable {code : CodeTable} {sym : List Nat} {x : Nat} (h : x ∈ sym) :
    (x, codeOf code x) ∈ orderedTable code sym := by
  obtain ⟨p, hp, rfl⟩ := List.mem_map.mp (((freq_freqOf sym).occurs x).mpr h)
  exact List.mem_map.mpr ⟨p, hp, rfl⟩

/-- What the table spells for its own sequence (R191). -/
theorem spells_iff {code : CodeTable} {sym : List Nat} {b : Bits} :
    Spells (orderedTable code sym) sym b ↔ b = (sym.map (codeOf code)).flatten := by
  constructor
  · rintro ⟨es, hes, hfst, rfl⟩
    have : ∀ e ∈ es, e.2 = codeOf code e.1 := by
      intro e he
      obtain ⟨p, -, hp⟩ := List.mem_map.mp (hes e he)
      rw [← hp]
    rw [← hfst, List.map_map, List.flatMap_def]
    congr 1
    exact List.map_congr_left fun e he => this e he
  · rintro rfl
    refine ⟨sym.map fun x => (x, codeOf code x), fun e he => ?_, by simp [Function.comp_def], by
      rw [List.flatMap_map, List.flatMap_def]⟩
    obtain ⟨x, hx, rfl⟩ := List.mem_map.mp he
    exact mem_orderedTable hx

/-! ### The header writer (R104, R105, R192) -/

theorem headerEntries_unique {v : Variant} {table : CodeTable} {e e' : List Byte}
    (h : HeaderEntries v table e) (h' : HeaderEntries v table e') : e = e' := by
  induction h generalizing e' with
  | nil => cases h'; rfl
  | cons _ _ _ hp _ ih =>
    cases h' with
    | cons _ _ _ hp' hr' => rw [ih hr', ← (packOf_unique hp).1, (packOf_unique hp').1]

theorem entriesBytes_eq {v : Variant} {code : CodeTable} {order : List Nat} {es : List Byte}
    (h : HeaderEntries v (order.map fun x => (x, codeOf code x)) es) :
    entriesBytes v code order = .ok es := by
  induction order generalizing es with
  | nil => cases h; rfl
  | cons x order ih =>
    cases h with
    | @cons _ _ c' pad _ rest hs h1 h255 hp hr =>
      rw [entriesBytes, entryBytes, if_neg (by omega), ih hr]
      have hc : (pack [codeOf code x]).1 = c' := by
        rw [pack, List.flatten_singleton]
        exact (packOf_unique hp).1
      rw [hc]
      show Except.ok _ = _
      simp

theorem headerEntries_exists {v : Variant} {table : CodeTable}
    (h : ∀ e ∈ table, SymFits v e.1 ∧ 1 ≤ e.2.length ∧ e.2.length ≤ 255) : ∃ es, HeaderEntries v table es := by
  induction table with
  | nil => exact ⟨[], .nil⟩
  | cons e table ih =>
    obtain ⟨es, hes⟩ := ih fun u hu => h u (by simp [hu])
    obtain ⟨h1, h2, h3⟩ := h e (by simp)
    exact ⟨_, .cons h1 h2 h3 (packOf_packBits e.2) hes⟩

/-- `huffEncode` computes the header and the data that the format asks for (R193). -/
theorem huffParts_eq {v : Variant} {sym : List Nat} {h data : List Byte} (he : EncodesTo v sym h data) :
    huffParts v sym = .ok (h, data) := by
  obtain ⟨table, pad, b, ht, hs, hp, entries, hen, -, -, rfl⟩ := he
  obtain ⟨root, hroot, rfl⟩ := tableOf_iff.mp ht
  rw [spells_iff] at hs
  subst hs
  rw [huffParts, buildTree_of_rootOf hroot]
  have hd : dataOf (codeTable root) sym = (data, pad) := by
    obtain ⟨rfl, rfl⟩ := packOf_iff.mp hp
    rfl
  have hen' := entriesBytes_eq (order := (freq sym).map Prod.fst) (by
    rw [List.map_map]
    exact hen)
  show ((header v ((freq sym).map Prod.fst) (codeTable root) (dataOf (codeTable root) sym).2).map
    fun h => (h, (dataOf (codeTable root) sym).1)) = _
  rw [hd, header, hen']
  simp [orderedTable, Except.map]

/-- A degenerate sequence has no tree (R188). -/
theorem huffParts_degenerate {v : Variant} {sym : List Nat} {x : Nat} (hne : sym ≠ [])
    (h : ∀ y ∈ sym, y = x) : huffParts v sym = .error .degenerateInput := by
  have h0 : freq sym ≠ [] := fun h0 => hne (freq_eq_nil_iff.mp h0)
  have h2 : ¬ 2 ≤ (freq sym).length := by
    rw [two_le_freq_iff]
    rintro ⟨a, ha, b, hb, hab⟩
    exact hab ((h a ha).trans (h b hb).symm)
  rw [huffParts]
  match hf : freq sym, h0, h2 with
  | [_], _, _ => rfl
  | _ :: _ :: _, _, h2 => simp at h2

/-- A sequence is empty, has exactly one distinct symbol, or at least two. -/
theorem sym_cases (sym : List Nat) :
    sym = [] ∨ (sym ≠ [] ∧ ∃ x, ∀ y ∈ sym, y = x) ∨ ∃ x ∈ sym, ∃ y ∈ sym, x ≠ y := by
  cases sym with
  | nil => exact .inl rfl
  | cons x sym =>
    right
    by_cases h : ∀ y ∈ x :: sym, y = x
    · exact .inl ⟨by simp, x, h⟩
    · right
      push Not at h
      obtain ⟨y, hy, hne⟩ := h
      exact ⟨x, by simp, y, hy, fun e => hne e.symm⟩

/-! ### The container reader (R197) -/

theorem readSym_eq_some {v : Variant} {s rest : List Byte} {x : Nat} :
    readSym v s = some (x, rest) ↔ SymFits v x ∧ s = symBytes v x ++ rest := by
  cases v with
  | raw =>
    cases s with
    | nil => simp [readSym]
    | cons a s =>
      simp only [readSym, Option.some.injEq, Prod.mk.injEq, SymFits, symBytes_raw, List.singleton_append,
        List.cons.injEq]
      constructor
      · rintro ⟨rfl, rfl⟩
        exact ⟨Nat.le_of_lt_succ (byte_lt a), by simp⟩
      · rintro ⟨hx, rfl, rfl⟩
        exact ⟨byteOf_toNat_of_lt (by omega), rfl⟩
  | text =>
    constructor
    · intro h
      match s, h with
      | [], h => cases h
      | [_], h => cases h
      | [_, _], h => cases h
      | [_, _, _], h => cases h
      | a :: b :: c :: d :: s, h =>
        simp only [readSym] at h
        split at h
        · cases h
        · rename_i hle
          cases h
          refine ⟨Nat.not_lt.mp hle, ?_⟩
          rw [symBytes_text, be32_rd32]
          rfl
    · rintro ⟨hx, rfl⟩
      have h32 : rd32 (byteOf (x / 2 ^ 24)) (byteOf (x / 2 ^ 16)) (byteOf (x / 2 ^ 8)) (byteOf x) = x :=
        rd32_be32 (Nat.lt_of_le_of_lt hx (by decide))
      show (if maxScalar < rd32 _ _ _ _ then none else some (rd32 _ _ _ _, rest)) = _
      rw [h32, if_neg (Nat.not_lt.mpr hx : ¬ maxScalar < x)]

theorem readEntry_eq_some {v : Variant} {s rest : List Byte} {e : Nat × Bits} :
    readEntry v s = some (e, rest) ↔
      SymFits v e.1 ∧ 1 ≤ e.2.length ∧ e.2.length ≤ 255 ∧
        ∃ code pad, PackOf e.2 code pad ∧ s = symBytes v e.1 ++ (byteOf e.2.length :: (code ++ rest)) := by
  constructor
  · intro h
    unfold readEntry at h
    split at h
    · rename_i x len r hr
      split at h
      · cases h
      · rename_i h0
        cases hc : readCode len.toNat r with
        | none => rw [hc] at h; cases h
        | some p =>
          rw [hc] at h
          cases h
          obtain ⟨hs, rfl⟩ := readSym_eq_some.mp hr
          obtain ⟨hl, code, pad, hp, rfl⟩ := readCode_eq_some.mp hc
          have hpos : len.toNat ≠ 0 := fun e => h0 (BitVec.eq_of_toNat_eq e)
          have hlt := byte_lt len
          refine ⟨hs, ?_, ?_, code, pad, hp, ?_⟩
          · simp only; omega
          · simp only; omega
          · simp only [hl, byteOf_toNat]
    · cases h
  · rintro ⟨hs, h1, h2, code, pad, hp, rfl⟩
    have hr : readSym v (symBytes v e.1 ++ (byteOf e.2.length :: (code ++ rest))) =
        some (e.1, byteOf e.2.length :: (code ++ rest)) := readSym_eq_some.mpr ⟨hs, rfl⟩
    have hl : (byteOf e.2.length).toNat = e.2.length := byteOf_toNat_of_lt (by omega)
    have h0 : ¬ byteOf e.2.length = 0 := by
      intro h0
      rw [h0] at hl
      have : (0 : Byte).toNat = 0 := rfl
      omega
    have hc : readCode (byteOf e.2.length).toNat (code ++ rest) = some (e.2, rest) :=
      readCode_eq_some.mpr ⟨hl.symm, code, pad, hp, rfl⟩
    unfold readEntry
    rw [hr]
    simp only [if_neg h0, hc, Option.map_some]

/-- Reading `k` entries takes exactly the bytes of such entries (R105, R197). -/
theorem readEntries_eq_some {v : Variant} {k : Nat} {s rest : List Byte} {table : CodeTable} :
    readEntries v k s = some (table, rest) ↔
      table.length = k ∧ ∃ e, HeaderEntries v table e ∧ s = e ++ rest := by
  induction k generalizing s table with
  | zero =>
    simp only [readEntries, Option.some.injEq, Prod.mk.injEq, List.length_eq_zero_iff]
    constructor
    · rintro ⟨rfl, rfl⟩
      exact ⟨rfl, [], .nil, rfl⟩
    · rintro ⟨rfl, e, he, rfl⟩
      cases he
      exact ⟨rfl, rfl⟩
  | succ k ih =>
    constructor
    · intro h
      rw [readEntries] at h
      split at h
      · rename_i e r hr
        cases hk : readEntries v k r with
        | none => rw [hk] at h; cases h
        | some p =>
          rw [hk] at h
          cases h
          obtain ⟨hlen, es, hes, rfl⟩ := ih.mp hk
          obtain ⟨h1, h2, h3, code, pad, hp, rfl⟩ := readEntry_eq_some.mp hr
          exact ⟨by simp [hlen], _, .cons h1 h2 h3 hp hes, by simp⟩
      · cases h
    · rintro ⟨hlen, e, he, rfl⟩
      cases he with
      | nil => simp at hlen
      | @cons x c code pad table es h1 h2 h3 hp hes =>
        have hr : readEntry v (symBytes v x ++ (byteOf c.length :: (code ++ es)) ++ rest) =
            some ((x, c), es ++ rest) :=
          readEntry_eq_some.mpr ⟨h1, h2, h3, code, pad, hp, by simp⟩
        have hk := ih.mpr ⟨by simpa using hlen, es, hes, rfl⟩
        rw [readEntries, hr]
        simp only
        rw [hk]
        rfl

/-- Reading a header takes exactly the headers (R104, R197). -/
theorem readHeader_eq_some {v : Variant} {h : List Byte} {table : CodeTable} {pad : Nat} :
    readHeader v h = some (table, pad) ↔ HeaderOf v table pad h := by
  constructor
  · intro hr
    unfold readHeader at hr
    split at hr
    · rename_i tag p a b c d rest
      split at hr
      · rename_i htag
        split at hr
        · rename_i tab hk
          cases hr
          obtain ⟨hlen, e, he, hrest⟩ := readEntries_eq_some.mp hk
          refine ⟨e, he, ?_, Nat.le_of_lt_succ (byte_lt p), ?_⟩
          · rw [hlen]; exact rd32_lt a b c d
          · rw [hlen, be32_rd32, htag, hrest]
            simp
        · cases hr
      · cases hr
    · cases hr
  · rintro ⟨e, he, hlen, hpad, rfl⟩
    have hp : (byteOf pad).toNat = pad := byteOf_toNat_of_lt (by omega)
    have hk : readEntries v table.length e = some (table, []) :=
      readEntries_eq_some.mpr ⟨rfl, e, he, by simp⟩
    have hb : tagOf v :: byteOf pad :: (be32 table.length ++ e) =
        tagOf v :: byteOf pad :: byteOf (table.length / 2 ^ 24) :: byteOf (table.length / 2 ^ 16) ::
          byteOf (table.length / 2 ^ 8) :: byteOf table.length :: e := by simp [be32]
    rw [hb, readHeader, if_pos rfl, rd32_be32 hlen, hk, hp]

/-- Parsing takes exactly the artifacts (R103, R197). -/
theorem parseHuf_eq_some {v : Variant} {art data : List Byte} {table : CodeTable} {pad : Nat} :
    parseHuf v art = some (table, pad, data) ↔
      ∃ h, HeaderOf v table pad h ∧ h.length < 2 ^ 32 ∧ art = artifactOf h data := by
  constructor
  · intro hp
    unfold parseHuf at hp
    split at hp
    · rename_i a b c d rest
      split at hp
      · cases hp
      · rename_i hlen
        cases hr : readHeader v (rest.take (rd32 a b c d)) with
        | none => rw [hr] at hp; cases hp
        | some q =>
          rw [hr] at hp
          cases hp
          have hl : (rest.take (rd32 a b c d)).length = rd32 a b c d := by
            rw [List.length_take]; omega
          refine ⟨_, readHeader_eq_some.mp hr, ?_, ?_⟩
          · rw [hl]; exact rd32_lt a b c d
          · rw [artifactOf, hl, be32_rd32, List.append_assoc, List.take_append_drop]
            rfl
    · cases hp
  · rintro ⟨h, hh, hlen, rfl⟩
    have h32 := rd32_be32 hlen
    have ha : artifactOf h data = byteOf (h.length / 2 ^ 24) :: byteOf (h.length / 2 ^ 16) ::
        byteOf (h.length / 2 ^ 8) :: byteOf h.length :: (h ++ data) := by
      simp [artifactOf, be32]
    rw [ha, parseHuf, h32, if_neg (by rw [List.length_append]; omega), List.take_left' rfl,
      List.drop_left' rfl, readHeader_eq_some.mpr hh]
    rfl

/-- The table check accepts exactly the tables with distinct symbols and prefix-free codewords (R198). -/
theorem tableOk_iff {table : CodeTable} : tableOk table = true ↔ PrefixFree table := by
  induction table with
  | nil => simp [tableOk, PrefixFree]
  | cons e table ih =>
    unfold PrefixFree at ih ⊢
    rw [tableOk, Bool.and_eq_true, ih, List.pairwise_cons, List.all_eq_true]
    refine and_congr (forall_congr' fun u => forall_congr' fun _ => ?_) Iff.rfl
    simp only [entriesAgree, Bool.and_eq_true, bne_iff_ne, Bool.not_eq_true', ← Bool.not_eq_true,
      List.isPrefixOf_iff_prefix, and_assoc]

/-! ### The bit decoder (R199) -/

/-- In a prefix-free table two entries one of whose codewords begins the other's are one entry. -/
theorem prefixFree_eq {table : CodeTable} (h : PrefixFree table) {e f : Nat × Bits} (he : e ∈ table)
    (hf : f ∈ table) (hp : e.2 <+: f.2) : e = f := by
  induction table with
  | nil => cases he
  | cons g table ih =>
    unfold PrefixFree at h
    rw [List.pairwise_cons] at h
    rcases List.mem_cons.mp he with rfl | he' <;> rcases List.mem_cons.mp hf with rfl | hf'
    · rfl
    · exact absurd hp (h.1 f hf').2.1
    · exact absurd hp (h.1 e he').2.2
    · exact ih h.2 he' hf'

/-- Reading one codeword bit by bit (R199). -/
theorem decodeBitsFrom_code {table : CodeTable} (h : PrefixFree table) {e : Nat × Bits} (he : e ∈ table)
    (run tail rest : Bits) (hne : tail ≠ []) (hc : e.2 = run ++ tail) :
    decodeBitsFrom table run (tail ++ rest) = (decodeBitsFrom table [] rest).map (e.1 :: ·) := by
  induction tail generalizing run with
  | nil => exact absurd rfl hne
  | cons b tail ih =>
    rw [List.cons_append, decodeBitsFrom]
    cases hf : table.find? (fun u => u.2 == run ++ [b]) with
    | some f =>
      have hmem := List.mem_of_find?_eq_some hf
      have hfe : f.2 = run ++ [b] := by simpa using List.find?_some hf
      have : f = e := prefixFree_eq h hmem he (by rw [hfe, hc]; exact ⟨tail, by simp⟩)
      subst this
      have htail : tail = [] := by
        rw [hc] at hfe
        simpa using hfe
      subst htail
      rfl
    | none =>
      have htail : tail ≠ [] := by
        rintro rfl
        have := List.find?_eq_none.mp hf e he
        simp [hc] at this
      exact ih (run ++ [b]) htail (by simp [hc])

theorem decodeBitsFrom_spells {table : CodeTable} (h : PrefixFree table) (hne : ∀ e ∈ table, e.2 ≠ [])
    {sym : List Nat} {b : Bits} (hs : Spells table sym b) : decodeBitsFrom table [] b = some sym := by
  obtain ⟨es, hes, rfl, rfl⟩ := hs
  induction es with
  | nil => rfl
  | cons e es ih =>
    have he := hes e (by simp)
    rw [List.flatMap_cons, decodeBitsFrom_code h he [] e.2 _ (hne e he) (by simp),
      ih fun u hu => hes u (by simp [hu])]
    rfl

theorem spells_of_decodeBitsFrom {table : CodeTable} {run b : Bits} {sym : List Nat}
    (hd : decodeBitsFrom table run b = some sym) :
    (run = [] ∧ b = [] ∧ sym = []) ∨
      ∃ e rest sym', e ∈ table ∧ run ++ b = e.2 ++ rest ∧ sym = e.1 :: sym' ∧ Spells table sym' rest := by
  induction b generalizing run sym with
  | nil =>
    cases run with
    | nil => cases hd; exact .inl ⟨rfl, rfl, rfl⟩
    | cons _ _ => cases hd
  | cons x b ih =>
    right
    rw [decodeBitsFrom] at hd
    split at hd
    · rename_i e hf
      simp only [Option.map_eq_some_iff] at hd
      obtain ⟨sym', hd, rfl⟩ := hd
      have hfe : e.2 = run ++ [x] := by simpa using List.find?_some hf
      refine ⟨e, b, sym', List.mem_of_find?_eq_some hf, by simp [hfe], rfl, ?_⟩
      rcases ih hd with ⟨-, rfl, rfl⟩ | ⟨f, rest, sym'', hf', hb, rfl, es, h1, h2, h3⟩
      · exact ⟨[], by simp, rfl, rfl⟩
      · refine ⟨f :: es, ?_, by simp [h2], by simpa [h3] using hb⟩
        intro u hu
        rcases List.mem_cons.mp hu with rfl | hu
        · exact hf'
        · exact h1 u hu
    · rcases ih hd with ⟨h, -⟩ | ⟨f, rest, sym', h1, h2, h3, h4⟩
      · simp at h
      · exact ⟨f, rest, sym', h1, by simpa using h2, h3, h4⟩

/-- The greedy decoder gives exactly what a prefix-free table spells (R199). -/
theorem decodeBits_eq_ok {table : CodeTable} (h : PrefixFree table) (hne : ∀ e ∈ table, e.2 ≠ [])
    {b : Bits} {sym : List Nat} : decodeBits table b = .ok sym ↔ Spells table sym b := by
  unfold decodeBits
  constructor
  · intro hd
    split at hd
    · rename_i o ho
      cases hd
      rcases spells_of_decodeBitsFrom ho with ⟨-, rfl, rfl⟩ | ⟨e, rest, sym', h1, h2, rfl, es, h3, h4, h5⟩
      · exact ⟨[], by simp, rfl, rfl⟩
      · refine ⟨e :: es, ?_, by simp [h4], by simpa [h5] using h2⟩
        intro u hu
        rcases List.mem_cons.mp hu with rfl | hu
        · exact h1
        · exact h3 u hu
    · cases hd
  · intro hs
    rw [decodeBitsFrom_spells h hne hs]

theorem decodeBits_cases (table : CodeTable) (b : Bits) :
    (∃ sym, decodeBits table b = .ok sym) ∨ decodeBits table b = .error .format := by
  unfold decodeBits
  split
  · exact .inl ⟨_, rfl⟩
  · exact .inr rfl

theorem headerEntries_ne_nil {v : Variant} {table : CodeTable} {es : List Byte}
    (h : HeaderEntries v table es) : ∀ e ∈ table, e.2 ≠ [] := by
  induction h with
  | nil => simp
  | cons _ h1 _ _ _ ih =>
    intro e he
    rcases List.mem_cons.mp he with rfl | he
    · intro h0
      simp only at h0
      rw [h0] at h1
      simp at h1
    · exact ih e he

/-- `huffDecode` gives the symbols of exactly the artifacts of the format (R200). -/
theorem huffDecode_of_decodesTo {v : Variant} {art : List Byte} {sym : List Nat}
    (h : DecodesTo v art sym) : huffDecode v art = .ok (symsOut v sym) := by
  obtain ⟨table, pad, hd, data, b, junk, hh, hlen, rfl, hpf, hp7, hj, hs, hbits⟩ := h
  have hne : ∀ e ∈ table, e.2 ≠ [] := by
    obtain ⟨es, hes, -⟩ := hh
    exact headerEntries_ne_nil hes
  rw [huffDecode, parseHuf_eq_some.mpr ⟨hd, hh, hlen, rfl⟩]
  simp only
  rw [if_pos (tableOk_iff.mpr hpf), unpack_eq_ok.mpr ⟨hp7, junk, hj, hbits⟩]
  show (decodeBits table b).map (symsOut v) = _
  rw [(decodeBits_eq_ok hpf hne).mpr hs]
  rfl

/-- Everything else is FormatError (R200). -/
theorem huffDecode_cases (v : Variant) (art : List Byte) :
    (∃ sym, DecodesTo v art sym) ∨ huffDecode v art = .error .format := by
  unfold huffDecode
  split
  · exact .inr rfl
  · rename_i table pad data hp
    obtain ⟨h, hh, hlen, rfl⟩ := parseHuf_eq_some.mp hp
    have hne : ∀ e ∈ table, e.2 ≠ [] := by
      obtain ⟨es, hes, -⟩ := hh
      exact headerEntries_ne_nil hes
    split
    · rename_i hok
      have hpf := tableOk_iff.mp hok
      rcases unpack_cases data pad with ⟨b, hb⟩ | hb
      · obtain ⟨hp7, junk, hj, hbits⟩ := unpack_eq_ok.mp hb
        rcases decodeBits_cases table b with ⟨sym, hsym⟩ | hsym
        · exact .inl ⟨sym, table, pad, h, data, b, junk, hh, hlen, rfl, hpf, hp7, hj,
            (decodeBits_eq_ok hpf hne).mp hsym, hbits⟩
        · right
          rw [hb]
          show (decodeBits table b).map (symsOut v) = _
          rw [hsym]
          rfl
      · right
        rw [hb]
        rfl
    · exact .inr rfl

end Sys2Proof.Machine
end

