-- ==== Sys2Proof/Laws/Lz77.lean ====
section
/-! SUPPORT. What the sliding-window matcher, the encode loop, the record readers and the sequential
application give, each said once (43_lz77 R242 to R251). -/

namespace Sys2Proof.Machine

open Sys2Proof.Spec

/-! ### The matcher (R242 to R245) -/

/-- Agreement on the first `k` symbols, up to a cap that neither sequence ends before (R243). -/
theorem le_matchLen_iff {cap : Nat} {x y : List Nat} (hx : cap ≤ x.length) (hy : cap ≤ y.length) (k : Nat) :
    k ≤ matchLen cap x y ↔ k ≤ cap ∧ ∀ t < k, x[t]? = y[t]? := by
  induction cap generalizing x y k with
  | zero =>
    simp only [matchLen, Nat.le_zero_eq]
    constructor
    · rintro rfl
      exact ⟨rfl, by simp⟩
    · exact fun h => h.1
  | succ cap ih =>
    match x, y, hx, hy with
    | [], _, hx, _ => simp at hx
    | _ :: _, [], _, hy => simp at hy
    | a :: x, b :: y, hx, hy =>
      simp only [List.length_cons, Nat.add_le_add_iff_right] at hx hy
      rw [matchLen]
      cases k with
      | zero => simp
      | succ k =>
        split
        · rename_i hab
          subst hab
          rw [Nat.add_le_add_iff_right, ih hx hy k, Nat.add_le_add_iff_right]
          refine and_congr_right fun _ => ⟨fun h t ht => ?_, fun h t ht => ?_⟩
          · cases t with
            | zero => rfl
            | succ t => simpa using h t (by omega)
          · simpa using h (t + 1) (by omega)
        · rename_i hab
          constructor
          · intro h; omega
          · rintro ⟨-, h⟩
            have := h 0 (by omega)
            simp only [List.getElem?_cons_zero, Option.some.injEq] at this
            exact absurd this hab

/-- What the matcher may answer at a candidate (R243, R244). -/
theorem le_matchAt_iff {s : List Nat} {i look j : Nat} (hj : j < i) (k : Nat) :
    k ≤ matchAt s i look j ↔ k ≤ min look (s.length - i - 1) ∧ Agree s j i k := by
  unfold matchAt matchCap
  rw [le_matchLen_iff (by rw [List.length_drop]; omega) (by rw [List.length_drop]; omega)]
  simp only [List.getElem?_drop, Agree]

theorem mem_candidates {i win j : Nat} : j ∈ candidates i win ↔ i - win ≤ j ∧ j < i := by
  unfold candidates
  rw [List.mem_range'_1]
  omega

/-- A match is a candidate whose length is at least that long. -/
theorem matches_iff {s : List Nat} {win look i j k : Nat} :
    Matches s win look i j k ↔ j ∈ candidates i win ∧ k ≤ matchAt s i look j := by
  rw [mem_candidates]
  constructor
  · rintro ⟨h1, h2, h3, h4⟩
    exact ⟨⟨h1, h2⟩, (le_matchAt_iff h2 k).mpr ⟨h3, h4⟩⟩
  · rintro ⟨⟨h1, h2⟩, h3⟩
    have := (le_matchAt_iff h2 k).mp h3
    exact ⟨h1, h2, this.1, this.2⟩

/-- The scan over candidates in rising order: the longest match, the oldest of equals (R245). -/
theorem foldl_better {s : List Nat} {i look : Nat} (js : List Nat) (hup : js.Pairwise (· < ·))
    (hlt : ∀ j ∈ js, j < i) :
    (js.foldl (better s i look) (0, 0) = (0, 0) ∧ ∀ j ∈ js, matchAt s i look j = 0) ∨
      ∃ j ∈ js, js.foldl (better s i look) (0, 0) = (i - j, matchAt s i look j) ∧
        0 < matchAt s i look j ∧
        ∀ j' ∈ js, matchAt s i look j' ≤ matchAt s i look j ∧
          (matchAt s i look j' = matchAt s i look j → j ≤ j') := by
  induction js using List.reverseRecOn with
  | nil => exact .inl ⟨rfl, by simp⟩
  | append_singleton js x ih =>
    rw [List.pairwise_append] at hup
    rw [List.foldl_append]
    simp only [List.foldl_cons, List.foldl_nil]
    rcases ih hup.1 fun j hj => hlt j (by simp [hj]) with ⟨h1, h2⟩ | ⟨j, hj, h1, h2, h3⟩
    · rw [h1]
      by_cases hx : 0 < matchAt s i look x
      · right
        refine ⟨x, by simp, by simp [better, hx], hx, fun j' hj' => ?_⟩
        rcases List.mem_append.mp hj' with hj' | hj'
        · rw [h2 j' hj']
          exact ⟨Nat.zero_le _, fun h => by omega⟩
        · rw [List.mem_singleton.mp hj']
          exact ⟨Nat.le_refl _, fun _ => Nat.le_refl _⟩
      · left
        refine ⟨by simp [better, hx], fun j hj => ?_⟩
        rcases List.mem_append.mp hj with hj | hj
        · exact h2 j hj
        · rw [List.mem_singleton.mp hj]; omega
    · right
      rw [h1]
      by_cases hx : matchAt s i look j < matchAt s i look x
      · refine ⟨x, by simp, by simp [better, hx], by omega, fun j' hj' => ?_⟩
        rcases List.mem_append.mp hj' with hj' | hj'
        · have := (h3 j' hj').1
          exact ⟨by omega, fun h => by omega⟩
        · rw [List.mem_singleton.mp hj']
          exact ⟨Nat.le_refl _, fun _ => Nat.le_refl _⟩
      · refine ⟨j, by simp [hj], by simp [better, hx], h2, fun j' hj' => ?_⟩
        rcases List.mem_append.mp hj' with hj' | hj'
        · exact h3 j' hj'
        · rw [List.mem_singleton.mp hj']
          exact ⟨by omega, fun _ => Nat.le_of_lt (hup.2.2 j hj x (by simp))⟩

/-- The matcher's answer is the choice the rule asks for (R245). -/
theorem lzMatch_chosen (s : List Nat) (i win look : Nat) :
    Chosen s win look i (lzMatch s i win look).1 (lzMatch s i win look).2 := by
  have hup : (candidates i win).Pairwise (· < ·) := List.pairwise_lt_range'
  rcases foldl_better (s := s) (look := look) _ hup fun j hj => (mem_candidates.mp hj).2 with
    ⟨h1, h2⟩ | ⟨j, hj, h1, h2, h3⟩
  · left
    unfold lzMatch
    rw [h1]
    refine ⟨rfl, rfl, fun j k hm => ?_⟩
    obtain ⟨hj, hk⟩ := matches_iff.mp hm
    rw [h2 j hj] at hk
    omega
  · right
    unfold lzMatch
    rw [h1]
    have hlt := (mem_candidates.mp hj).2
    have hij : i - (i - j) = j := by omega
    simp only
    rw [hij]
    refine ⟨h2, by omega, matches_iff.mpr ⟨hj, Nat.le_refl _⟩, fun j' k hm => ?_⟩
    obtain ⟨hj', hk⟩ := matches_iff.mp hm
    have := h3 j' hj'
    exact ⟨by omega, fun he => this.2 (by omega)⟩

/-- The rule's choice is one (R245). -/
theorem chosen_unique {s : List Nat} {win look i o l o' l' : Nat} (h : Chosen s win look i o l)
    (h' : Chosen s win look i o' l') : o = o' ∧ l = l' := by
  rcases h with ⟨rfl, rfl, h⟩ | ⟨h1, h2, h3, h4⟩ <;> rcases h' with ⟨rfl, rfl, h'⟩ | ⟨h1', h2', h3', h4'⟩
  · exact ⟨rfl, rfl⟩
  · have := h _ _ h3'; omega
  · have := h' _ _ h3; omega
  · have ha := h4 _ _ h3'
    have hb := h4' _ _ h3
    have hl : l = l' := by omega
    have hc := ha.2 hl.symm
    have hd := hb.2 hl
    exact ⟨by omega, hl⟩

theorem chosen_bound {s : List Nat} {win look i o l : Nat} (h : Chosen s win look i o l) :
    l ≤ s.length - i - 1 ∧ l ≤ look ∧ o ≤ i ∧ o ≤ win ∧ (0 < l → 1 ≤ o) ∧ (l = 0 → o = 0) := by
  rcases h with ⟨rfl, rfl, -⟩ | ⟨h1, h2, ⟨h3, h4, h5, -⟩, -⟩ <;> omega

/-! ### The encode loop (R246) -/

/-- The encode loop gives the parse, or RangeError when a raw triple does not fit (R246). -/
theorem lzTriplesFrom_eq {v : Variant} {s : List Nat} {win look fuel i : Nat} {ts : List Triple}
    (h : LzParse s win look i ts) (hf : s.length - i ≤ fuel) :
    lzTriplesFrom v s win look fuel i =
      if ∀ t ∈ ts, tripleFits v (t.offset, t.length) = true then .ok ts else .error .range := by
  induction h generalizing fuel with
  | done => cases fuel <;> simp [lzTriplesFrom]
  | @step i o l c ts hc hs _ ih =>
    have hlt : i + l < s.length := by
      rw [List.getElem?_eq_some_iff] at hs
      exact hs.1
    obtain ⟨fuel, rfl⟩ : ∃ n, fuel = n + 1 := ⟨fuel - 1, by omega⟩
    obtain ⟨h1, h2⟩ := chosen_unique (lzMatch_chosen s i win look) hc
    rw [lzTriplesFrom, if_pos (by omega)]
    simp only [h1, h2]
    have hm : lzMatch s i win look = (o, l) := Prod.ext h1 h2
    rw [hm, ih (by omega), hs]
    simp only [List.forall_mem_cons]
    by_cases ha : tripleFits v (o, l) = true
    · by_cases hb : ∀ t ∈ ts, tripleFits v (t.offset, t.length) = true
      · rw [if_pos ha, if_pos hb, if_pos ⟨ha, hb⟩]; rfl
      · rw [if_pos ha, if_neg hb, if_neg fun h => hb h.2]; rfl
    · rw [if_neg ha, if_neg fun h => ha h.1]

/-- Every sequence has its parse (R246). -/
theorem lzParse_exists (s : List Nat) (win look i : Nat) (hi : i ≤ s.length) :
    ∃ ts, LzParse s win look i ts := by
  induction hn : s.length - i using Nat.strongRecOn generalizing i with
  | _ n ih =>
    by_cases hlt : i < s.length
    · have hc := lzMatch_chosen s i win look
      have hb := chosen_bound hc
      have hlen : i + (lzMatch s i win look).2 < s.length := by omega
      obtain ⟨ts, hts⟩ := ih (s.length - (i + (lzMatch s i win look).2 + 1)) (by omega) _ (by omega) rfl
      exact ⟨_, .step hc (List.getElem?_eq_getElem hlen) hts⟩
    · have : i = s.length := by omega
      subst this
      exact ⟨[], .done⟩

theorem lzTriples_eq {v : Variant} {s : List Nat} {win look : Nat} {ts : List Triple}
    (hw : win ≠ 0) (hl : look ≠ 0) (h : LzParse s win look 0 ts) :
    lzTriples v s win look =
      if ∀ t ∈ ts, tripleFits v (t.offset, t.length) = true then .ok ts else .error .range := by
  rw [lzTriples, if_neg (by simp [hw, hl]), lzTriplesFrom_eq h (by omega)]

theorem fits16_iff {ts : List Triple} :
    (∀ t ∈ ts, tripleFits .raw (t.offset, t.length) = true) ↔ Fits16 ts := by
  simp [tripleFits, Fits16]

/-- The triples of a parse from a cursor on (R244, R246, R256). -/
theorem lzParse_spec {s : List Nat} {win look i : Nat} {ts : List Triple} (h : LzParse s win look i ts) :
    i ≤ s.length ∧ (ts.map fun t => t.length + 1).sum = s.length - i ∧
      ∀ t ∈ ts, (0 < t.length → 1 ≤ t.offset) ∧ (t.length = 0 → t.offset = 0) ∧ t.offset ≤ win ∧
        t.length ≤ look ∧ t.offset ≤ s.length ∧ t.length ≤ s.length ∧ ∃ c ∈ s, t.lit = some c := by
  induction h with
  | done => simp
  | @step i o l c ts hc hs _ ih =>
    obtain ⟨h1, h2, h3⟩ := ih
    have hb := chosen_bound hc
    refine ⟨by omega, by simp only [List.map_cons, List.sum_cons, h2]; omega, ?_⟩
    intro t ht
    rcases List.mem_cons.mp ht with rfl | ht
    · refine ⟨hb.2.2.2.2.1, hb.2.2.2.2.2, hb.2.2.2.1, hb.2.1, ?_, ?_, c, List.mem_of_getElem? hs, rfl⟩
      · simp only; omega
      · simp only; omega
    · exact h3 t ht

/-- Applying a parse's triples to what precedes the cursor gives the whole sequence (R256). -/
theorem lzParse_expands {s : List Nat} {win look i : Nat} {ts : List Triple}
    (h : LzParse s win look i ts) : LzExpands (s.take i) ts s := by
  induction h with
  | done => rw [List.take_length]; exact .done s
  | @step i o l c ts hc hs _ ih =>
    have hb := chosen_bound hc
    have hlt : i + l < s.length := by
      rw [List.getElem?_eq_some_iff] at hs
      exact hs.1
    have hti : (s.take i).length = i := by rw [List.length_take]; omega
    have hseg : s.take i ++ (s.drop i).take l = s.take (i + l) := List.take_add.symm
    refine LzExpands.step (seg := (s.drop i).take l) ?_ ?_ ?_ ?_
    · intro hl; rw [hti]; have := hb.2.2.2.2.1 hl; omega
    · rw [List.length_take, List.length_drop]; omega
    · intro q hq
      rw [hti, hseg, List.getElem?_take_of_lt (by omega), List.getElem?_take_of_lt (by omega)]
      rcases hc with ⟨rfl, rfl, -⟩ | ⟨-, ho, ⟨-, -, -, ha⟩, -⟩
      · omega
      · have := ha q hq
        rw [← this]
        congr 1
        omega
    · rw [hseg]
      have : s.take (i + l) ++ (some c).toList = s.take (i + l + 1) := by
        rw [List.take_add_one, hs]
      rwa [this]

/-! ### Sequential application (R251) -/

/-- The copy, symbol by symbol (R251, R350). -/
theorem copySyms_spec {o : Nat} (l : Nat) (out : List Nat) (ho : 0 < l → 0 < o ∧ o ≤ out.length) :
    ∃ seg, copySyms o l out = out ++ seg ∧ seg.length = l ∧
      ∀ q < l, (out ++ seg)[out.length + q]? = (out ++ seg)[out.length + q - o]? := by
  induction l generalizing out with
  | zero => exact ⟨[], by simp [copySyms], rfl, by simp⟩
  | succ l ih =>
    obtain ⟨ho1, ho2⟩ := ho (by omega)
    obtain ⟨seg, h1, h2, h3⟩ := ih (out ++ [out.getD (out.length - o) 0])
      (fun _ => ⟨ho1, by rw [List.length_append]; omega⟩)
    refine ⟨out.getD (out.length - o) 0 :: seg, by rw [copySyms, h1]; simp, by simp [h2], ?_⟩
    intro q hq
    cases q with
    | zero =>
      have hlt : out.length - o < out.length := by omega
      rw [Nat.add_zero, List.getElem?_append_left hlt, List.getElem?_append_right (Nat.le_refl _)]
      simp [hlt]
    | succ q =>
      have := h3 q (by omega)
      rw [List.length_append] at this
      simp only [List.length_cons, List.length_nil, List.append_assoc, List.singleton_append] at this
      rw [show out.length + (q + 1) = out.length + (0 + 1) + q by omega]
      exact this

/-- What a copy must append is determined (R251). -/
theorem copy_unique {o l : Nat} {out seg seg' : List Nat} (ho : 0 < l → 0 < o ∧ o ≤ out.length)
    (h1 : seg.length = l) (h2 : ∀ q < l, (out ++ seg)[out.length + q]? = (out ++ seg)[out.length + q - o]?)
    (h1' : seg'.length = l)
    (h2' : ∀ q < l, (out ++ seg')[out.length + q]? = (out ++ seg')[out.length + q - o]?) : seg = seg' := by
  have key : ∀ n ≤ l, ∀ p < out.length + n, (out ++ seg)[p]? = (out ++ seg')[p]? := by
    intro n
    induction n with
    | zero =>
      intro _ p hp
      rw [List.getElem?_append_left (by omega), List.getElem?_append_left (by omega)]
    | succ n ih =>
      intro hn p hp
      by_cases hlt : p < out.length + n
      · exact ih (by omega) p hlt
      · have : p = out.length + n := by omega
        subst this
        have := ho (by omega)
        rw [h2 n (by omega), h2' n (by omega)]
        exact ih (by omega) _ (by omega)
  refine List.append_cancel_left (as := out) (List.ext_getElem? fun p => ?_)
  by_cases hp : p < out.length + l
  · exact key l (Nat.le_refl l) p hp
  · rw [List.getElem?_eq_none (by rw [List.length_append]; omega),
      List.getElem?_eq_none (by rw [List.length_append]; omega)]

/-- Application succeeds exactly as the rule says (R251). -/
theorem lzApplyFrom_eq_ok {out fin : List Nat} {ts : List Triple} :
    lzApplyFrom out ts = .ok fin ↔ LzExpands out ts fin := by
  induction ts generalizing out with
  | nil =>
    constructor
    · intro h; cases h; exact .done _
    · intro h; cases h; rfl
  | cons t ts ih =>
    obtain ⟨o, l, lit⟩ := t
    rw [lzApplyFrom]
    constructor
    · intro h
      split at h
      · rename_i out' ha
        unfold applyTriple at ha
        simp only at ha
        split at ha
        · cases ha
        · rename_i hno
          cases ha
          have ho : 0 < l → 0 < o ∧ o ≤ out.length := fun hl => by omega
          obtain ⟨seg, h1, h2, h3⟩ := copySyms_spec l out ho
          rw [h1] at h
          exact .step ho h2 h3 (ih.mp h)
      · cases h
    · intro h
      cases h with
      | @step _ seg _ _ _ _ _ ho h2 h3 hrest =>
        obtain ⟨seg', h1', h2', h3'⟩ := copySyms_spec l _ ho
        have := copy_unique ho h2 h3 h2' h3'
        subst this
        have hno : ¬ (0 < l ∧ (o = 0 ∨ out.length < o)) := fun h => by have := ho h.1; omega
        simp only [applyTriple, if_neg hno, h1']
        exact ih.mpr hrest

theorem lzApplyFrom_cases (out : List Nat) (ts : List Triple) :
    (∃ fin, lzApplyFrom out ts = .ok fin) ∨ lzApplyFrom out ts = .error .format := by
  induction ts generalizing out with
  | nil => exact .inl ⟨out, rfl⟩
  | cons t ts ih =>
    rw [lzApplyFrom]
    split
    · exact ih _
    · exact .inr rfl

theorem lzApply_eq_ok {fin : List Nat} {ts : List Triple} : lzApply ts = .ok fin ↔ LzExpands [] ts fin :=
  lzApplyFrom_eq_ok

theorem lzApply_of_not {ts : List Triple} (h : ¬ ∃ fin, LzExpands [] ts fin) :
    lzApply ts = .error .format := by
  rcases lzApplyFrom_cases [] ts with ⟨fin, hf⟩ | hf
  · exact absurd ⟨fin, lzApply_eq_ok.mp hf⟩ h
  · exact hf

/-! ### The record readers (R249, R250) -/

@[simp] theorem rawTriples_nil : rawTriples [] = [] := rfl
theorem rawTriples_cons (t : Triple) (ts : List Triple) :
    rawTriples (t :: ts) = be16 t.offset ++ be16 t.length ++ [byteOf (t.lit.getD 0)] ++ rawTriples ts := rfl

theorem flatMap_rawRec (ts : List Triple) : ts.flatMap rawRec = rawTriples ts := rfl

theorem flatMap_txtRec (ts : List Triple) : ts.flatMap txtRec = txtTriples ts := rfl

/-- The raw reader takes exactly the records of raw triples (R249). -/
theorem parseRaw_rawTriples {ts : List Triple} (h : RawTriples ts) : parseRaw (rawTriples ts) = .ok ts := by
  induction ts with
  | nil => rfl
  | cons t ts ih =>
    obtain ⟨h1, h2, c, hc, hl⟩ := h t (by simp)
    obtain ⟨o, l, lit⟩ := t
    simp only at h1 h2 hl
    subst hl
    have hb : rawTriples (⟨o, l, some c⟩ :: ts) =
        byteOf (o / 256) :: byteOf o :: byteOf (l / 256) :: byteOf l :: byteOf c :: rawTriples ts := by
      simp [rawTriples_cons, be16]
    rw [hb, parseRaw, ih fun u hu => h u (by simp [hu]), rd16_be16 (by omega), rd16_be16 (by omega),
      byteOf_toNat_of_lt (by omega)]
    rfl

theorem parseRaw_cases (s : List Byte) :
    (∃ ts, RawTriples ts ∧ s = rawTriples ts ∧ parseRaw s = .ok ts) ∨ parseRaw s = .error .format := by
  induction s using parseRaw.induct with
  | case1 => exact .inl ⟨[], by simp [RawTriples], rfl, rfl⟩
  | case2 o1 o0 l1 l0 c rest ih =>
    rw [parseRaw]
    rcases ih with ⟨ts, h1, h2, h3⟩ | h
    · left
      rw [h3]
      refine ⟨_, ?_, ?_, rfl⟩
      · intro t ht
        rcases List.mem_cons.mp ht with rfl | ht
        · exact ⟨Nat.le_of_lt_succ (rd16_lt _ _), Nat.le_of_lt_succ (rd16_lt _ _), c.toNat,
            Nat.le_of_lt_succ (byte_lt c), rfl⟩
        · exact h1 t ht
      · rw [rawTriples_cons, be16_rd16, be16_rd16, h2]
        simp
    · right
      rw [h]
      rfl
  | case3 s h1 h2 =>
    right
    match s, h1, h2 with
    | [], h1, _ => exact absurd rfl h1
    | [_], _, _ => rfl
    | [_, _], _, _ => rfl
    | [_, _, _], _, _ => rfl
    | [_, _, _, _], _, _ => rfl
    | a :: b :: c :: d :: e :: rest, _, h2 => exact absurd rfl (h2 a b c d e rest)

/-- The words of a text record stream, three a record (R107). -/
def tripleWords (ts : List Triple) : List Nat :=
  ts.flatMap fun t => [t.offset, t.length, t.lit.getD emptyLiteral]

theorem txtTriples_eq (ts : List Triple) : txtTriples ts = txt (tripleWords ts) := by
  induction ts with
  | nil => rfl
  | cons t ts ih =>
    have h1 : txtTriples (t :: ts) =
        be32 t.offset ++ be32 t.length ++ be32 (t.lit.getD 0xFFFFFFFF) ++ txtTriples ts := rfl
    have h2 : tripleWords (t :: ts) =
        t.offset :: t.length :: t.lit.getD emptyLiteral :: tripleWords ts := rfl
    rw [h1, h2, ih, txt_cons, txt_cons, txt_cons]
    simp only [List.append_assoc]
    rfl

theorem tripleWords_lt {ts : List Triple} (h : TxtTriples ts) : ∀ w ∈ tripleWords ts, w < 2 ^ 32 := by
  intro w hw
  obtain ⟨t, ht, hw⟩ := List.mem_flatMap.mp hw
  obtain ⟨h1, h2, h3⟩ := h t ht
  simp only [List.mem_cons, List.not_mem_nil, or_false] at hw
  rcases hw with rfl | rfl | rfl
  · exact h1
  · exact h2
  · cases hl : t.lit with
    | none => decide
    | some c =>
      have := h3 c hl
      simp only [Option.getD_some]
      omega

theorem literalOf_getD {lit : Option Nat} (h : ∀ c ∈ lit, c ≤ 0x10FFFF) :
    literalOf (lit.getD emptyLiteral) = some lit := by
  cases lit with
  | none => rfl
  | some c =>
    have hc := h c rfl
    have h1 : ¬ c = emptyLiteral := by unfold emptyLiteral; omega
    have h2 : ¬ maxScalar < c := by unfold maxScalar; omega
    rw [Option.getD_some, literalOf, if_neg h1, if_neg h2]

theorem literalOf_eq_some {c : Nat} {lit : Option Nat} (h : literalOf c = some lit) :
    (∀ x ∈ lit, x ≤ 0x10FFFF) ∧ lit.getD emptyLiteral = c := by
  unfold literalOf at h
  split at h
  · rename_i hc
    cases h
    exact ⟨by simp, hc.symm⟩
  · split at h
    · cases h
    · rename_i hc
      cases h
      refine ⟨?_, rfl⟩
      intro x hx
      cases hx
      unfold maxScalar at hc
      omega

theorem parseTxtWords_tripleWords {ts : List Triple} (h : TxtTriples ts) :
    parseTxtWords (tripleWords ts) = .ok ts := by
  induction ts with
  | nil => rfl
  | cons t ts ih =>
    have h2 : tripleWords (t :: ts) =
        t.offset :: t.length :: t.lit.getD emptyLiteral :: tripleWords ts := rfl
    rw [h2, parseTxtWords, literalOf_getD (h t (by simp)).2.2, ih fun u hu => h u (by simp [hu])]
    rfl

theorem parseTxtWords_cases (ws : List Nat) (hlt : ∀ w ∈ ws, w < 2 ^ 32) :
    (∃ ts, TxtTriples ts ∧ ws = tripleWords ts ∧ parseTxtWords ws = .ok ts) ∨
      parseTxtWords ws = .error .format := by
  induction ws using parseTxtWords.induct with
  | case1 => exact .inl ⟨[], by simp [TxtTriples], rfl, rfl⟩
  | case2 o l c rest lit hl ih =>
    rw [parseTxtWords, hl]
    obtain ⟨hl1, hl2⟩ := literalOf_eq_some hl
    rcases ih fun w hw => hlt w (by simp [hw]) with ⟨ts, h1, h2, h3⟩ | h
    · left
      refine ⟨⟨o, l, lit⟩ :: ts, ?_, ?_, by simp only [h3]; rfl⟩
      · intro t ht
        rcases List.mem_cons.mp ht with rfl | ht
        · exact ⟨hlt o (by simp), hlt l (by simp), hl1⟩
        · exact h1 t ht
      · rw [h2]
        show _ = o :: l :: lit.getD emptyLiteral :: tripleWords ts
        rw [hl2]
    · right
      simp only [h]
      rfl
  | case3 o l c rest hl =>
    right
    rw [parseTxtWords, hl]
  | case4 s h1 h2 =>
    right
    match s, h1, h2 with
    | [], h1, _ => exact absurd rfl h1
    | [_], _, _ => rfl
    | [_, _], _, _ => rfl
    | a :: b :: c :: rest, _, h2 => exact absurd rfl (h2 a b c rest)

/-- The text reader takes exactly the records of text triples (R250). -/
theorem parseTxt_txtTriples {ts : List Triple} (h : TxtTriples ts) : parseTxt (txtTriples ts) = .ok ts := by
  rw [parseTxt, txtTriples_eq, words32_txt (tripleWords_lt h)]
  exact parseTxtWords_tripleWords h

theorem parseTxt_cases (s : List Byte) :
    (∃ ts, TxtTriples ts ∧ s = txtTriples ts ∧ parseTxt s = .ok ts) ∨ parseTxt s = .error .format := by
  unfold parseTxt
  split
  · rename_i ws hws
    obtain ⟨rfl, hlt⟩ := txt_words32 hws
    rcases parseTxtWords_cases ws hlt with ⟨ts, h1, h2, h3⟩ | h
    · exact .inl ⟨ts, h1, by rw [txtTriples_eq, h2], h3⟩
    · exact .inr h
  · exact .inr rfl

end Sys2Proof.Machine
end

