-- ==== Sys2Proof/Laws/PerInstr.lean ====
section
/-! SUPPORT. The family of statements made for each command on its own (LAWS.json): the fields of a
command's word are a combination that 30_encoding R91, R92 and R95 allow. -/

namespace Sys2Proof.Laws.FieldsLegal

/-- The fields of the command are legal (R91, R95). -/
def Statement (i : Instr) : Prop := (fieldsFor i).wf = true

theorem nop : Statement .nop := by unfold Statement; decide
theorem rleRawEnc : Statement .rleRawEnc := by unfold Statement; decide
theorem rleRawDec : Statement .rleRawDec := by unfold Statement; decide
theorem rleTxtEnc : Statement .rleTxtEnc := by unfold Statement; decide
theorem rleTxtDec : Statement .rleTxtDec := by unfold Statement; decide
theorem hufRawEnc : Statement .hufRawEnc := by unfold Statement; decide
theorem hufRawDec : Statement .hufRawDec := by unfold Statement; decide
theorem hufTxtEnc : Statement .hufTxtEnc := by unfold Statement; decide
theorem hufTxtDec : Statement .hufTxtDec := by unfold Statement; decide
theorem hufRawTable : Statement .hufRawTable := by unfold Statement; decide
theorem hufTxtTable : Statement .hufTxtTable := by unfold Statement; decide
theorem hufRawWeights : Statement .hufRawWeights := by unfold Statement; decide
theorem hufTxtWeights : Statement .hufTxtWeights := by unfold Statement; decide
theorem bsPack : Statement .bsPack := by unfold Statement; decide
theorem bsUnpack : Statement .bsUnpack := by unfold Statement; decide
theorem lzRawEnc : Statement .lzRawEnc := by unfold Statement; decide
theorem lzRawDec : Statement .lzRawDec := by unfold Statement; decide
theorem lzTxtEnc : Statement .lzTxtEnc := by unfold Statement; decide
theorem lzTxtDec : Statement .lzTxtDec := by unfold Statement; decide

end Sys2Proof.Laws.FieldsLegal
end

