-- ==== Sys2Proof/Laws/Rle.lean ====
section
/-! SUPPORT. What the run splitter, the raw reader, the decimal digits and the text parser give, each said
once (44_rle R280 to R287). -/

namespace Sys2Proof.Machine

open Sys2Proof.Spec

@[simp] theorem expandRuns_nil {α : Type} : expandRuns ([] : List (Nat × α)) = [] := rfl
@[simp] theorem expandRuns_cons {α : Type} (r : Nat × α) (rs : List (Nat × α)) :
    expandRuns (r :: rs) = List.replicate r.1 r.2 ++ expandRuns rs := rfl

/-! ### Runs (R280, R281, R284) -/

/-- A run limit under which a run can hold one symbol. -/
def LimitOk (lim : Option Nat) : Prop := ∀ m ∈ lim, 1 ≤ m

theorem runsFrom_eq_cons (lim : Option Nat) (x c : Nat) (l : List Nat) :
    ∃ k rs, runsFrom lim x c l = (k, x) :: rs ∧ c ≤ k := by
  induction l generalizing c with
  | nil => exact ⟨c, [], rfl, Nat.le_refl c⟩
  | cons y l ih =>
    unfold runsFrom
    split
    · obtain ⟨k, rs, h, hk⟩ := ih (c + 1)
      exact ⟨k, rs, h, by omega⟩
    · exact ⟨c, _, rfl, Nat.le_refl c⟩

theorem runsFrom_runsOf {lim : Option Nat} (hl : LimitOk lim) (x c : Nat) (l : List Nat) (hc : 1 ≤ c)
    (hm : ∀ m ∈ lim, c ≤ m) : RunsOf lim (List.replicate c x ++ l) (runsFrom lim x c l) := by
  induction l generalizing x c with
  | nil => exact ⟨by simp [runsFrom], by simp [runsFrom]; exact ⟨hc, hm⟩, by simp [runsFrom]⟩
  | cons y l ih =>
    unfold runsFrom
    split
    · rename_i h
      obtain ⟨rfl, hlim⟩ := h
      have := ih y (c + 1) (by omega) (by
        intro m hmem
        subst hmem
        exact of_decide_eq_true hlim)
      rwa [List.replicate_succ', List.append_assoc] at this
    · rename_i h
      have hrec := ih y 1 (Nat.le_refl 1) hl
      refine ⟨?_, ?_, ?_⟩
      · rw [expandRuns_cons, hrec.expands]; rfl
      · intro r hr
        rcases List.mem_cons.mp hr with rfl | hr
        · exact ⟨hc, hm⟩
        · exact hrec.counts r hr
      · obtain ⟨k, rs, hrs, -⟩ := runsFrom_eq_cons lim y 1 l
        rw [hrs]
        refine List.IsChain.cons_cons ?_ (hrs ▸ hrec.maximal)
        rintro (rfl : x = y)
        cases lim with
        | none => exact absurd ⟨rfl, rfl⟩ h
        | some m =>
          have h1 : ¬ c < m := fun hlt => h ⟨rfl, by simpa using hlt⟩
          have h2 := hm m rfl
          simp only [Option.some.injEq]
          omega

/-- Every sequence has its runs (R280). -/
theorem runs_runsOf {lim : Option Nat} (hl : LimitOk lim) (s : List Nat) : RunsOf lim s (runs lim s) := by
  cases s with
  | nil => exact ⟨rfl, by simp [runs], by simp [runs]⟩
  | cons x l => exact runsFrom_runsOf hl x 1 l (Nat.le_refl 1) hl

theorem runsFrom_replicate {lim : Option Nat} (x c k : Nat) (s : List Nat)
    (hm : ∀ m ∈ lim, c + k ≤ m) (hend : ∀ y ∈ s.head?, y = x → lim = some (c + k)) :
    runsFrom lim x c (List.replicate k x ++ s) = (c + k, x) :: runs lim s := by
  induction k generalizing c with
  | zero =>
    cases s with
    | nil => rfl
    | cons y s =>
      simp only [List.replicate_zero, List.nil_append, Nat.add_zero, runsFrom, runs]
      rw [if_neg]
      rintro ⟨rfl, hlim⟩
      have := hend y rfl rfl
      rw [this] at hlim
      simp at hlim
  | succ k ih =>
    rw [List.replicate_succ, List.cons_append, runsFrom, if_pos, ih (c + 1)]
    · congr 2; omega
    · intro m hmem; have := hm m hmem; omega
    · intro y hy hyx; rw [hend y hy hyx]; congr 1; omega
    · refine ⟨rfl, ?_⟩
      cases lim with
      | none => rfl
      | some m => have := hm m rfl; simp; omega

theorem head?_expandRuns {rs : List (Nat × Nat)} (hc : ∀ r ∈ rs, 1 ≤ r.1) :
    (expandRuns rs).head? = rs.head?.map Prod.snd := by
  cases rs with
  | nil => rfl
  | cons r rs =>
    obtain ⟨k, hk⟩ := Nat.exists_eq_succ_of_ne_zero (Nat.one_le_iff_ne_zero.mp (hc r (by simp)))
    simp [hk, List.replicate_succ]

/-- A sequence has only its runs (R280). -/
theorem runs_unique {lim : Option Nat} {s : List Nat} {rs : List (Nat × Nat)} (h : RunsOf lim s rs) :
    runs lim s = rs := by
  obtain ⟨rfl, hc, hm⟩ := h
  induction rs with
  | nil => rfl
  | cons r rs ih =>
    obtain ⟨k, hk⟩ := Nat.exists_eq_succ_of_ne_zero (Nat.one_le_iff_ne_zero.mp (hc r (by simp)).1)
    obtain ⟨c, x⟩ := r
    simp only at hk
    subst hk
    have hrest := ih (fun q hq => hc q (by simp [hq])) hm.tail
    rw [expandRuns_cons, List.replicate_succ, List.cons_append, runs, runsFrom_replicate, hrest]
    · congr 2; omega
    · intro m hmem; have := (hc _ List.mem_cons_self).2 m hmem; simp only at this; omega
    · intro y hy hyx
      rw [head?_expandRuns fun q hq => (hc q (by simp [hq])).1] at hy
      cases rs with
      | nil => cases hy
      | cons q rs =>
        simp only [List.head?_cons, Option.map_some, Option.mem_def, Option.some.injEq] at hy
        have := hm.rel (by rw [hy, hyx])
        rw [this]
        simp only [Option.some.injEq]
        omega

/-! ### Raw records (R101, R281 to R283) -/

theorem rawSyms_expandRuns (rs : List (Nat × Byte)) :
    rawSyms (expandRuns rs) = expandRuns (rs.map fun r => (r.1, r.2.toNat)) := by
  induction rs with
  | nil => rfl
  | cons r rs ih =>
    simp only [rawSyms] at ih
    simp [rawSyms, ih]

/-- The runs of bytes are the runs of their values. -/
theorem runsOf_rawSyms {lim : Option Nat} {s : List Byte} {rs : List (Nat × Byte)}
    (h : RunsOf lim s rs) : RunsOf lim (rawSyms s) (rs.map fun r => (r.1, r.2.toNat)) where
  expands := by rw [← h.expands, rawSyms_expandRuns]
  counts := by
    intro r hr
    obtain ⟨q, hq, rfl⟩ := List.mem_map.mp hr
    exact h.counts q hq
  maximal := by
    rw [List.isChain_map]
    exact h.maximal.imp fun a b hab he => hab (BitVec.eq_of_toNat_eq he)

theorem rawRecords_eq (rs : List (Nat × Byte)) :
    rawRecords rs = (rs.map fun r => (r.1, r.2.toNat)).flatMap rleRecord := by
  simp [rawRecords, rleRecord, List.flatMap_map]

/-- `rleRaw` writes the records of the runs (R281). -/
theorem rleRaw_eq {s : List Byte} {rs : List (Nat × Byte)} (h : RunsOf (some 255) s rs) :
    rleRaw s = rawRecords rs := by
  rw [rleRaw, runs_unique (runsOf_rawSyms h), rawRecords_eq]

@[simp] theorem rawRecords_nil : rawRecords [] = [] := rfl
@[simp] theorem rawRecords_cons (r : Nat × Byte) (rs : List (Nat × Byte)) :
    rawRecords (r :: rs) = byteOf r.1 :: r.2 :: rawRecords rs := rfl

/-- The raw reader expands records (R283). -/
theorem rleRawExpand_rawRecords {rs : List (Nat × Byte)} (h : ∀ r ∈ rs, 1 ≤ r.1 ∧ r.1 ≤ 255) :
    rleRawExpand (rawRecords rs) = .ok (expandRuns rs) := by
  induction rs with
  | nil => rfl
  | cons r rs ih =>
    obtain ⟨h1, h2⟩ := h r (by simp)
    have hn : (byteOf r.1).toNat = r.1 := byteOf_toNat_of_lt (by omega)
    have h0 : ¬ byteOf r.1 = 0 := by
      intro h0
      rw [h0] at hn
      have : (0 : Byte).toNat = 0 := rfl
      omega
    rw [rawRecords_cons, rleRawExpand, if_neg h0, ih fun q hq => h q (by simp [hq]), hn]
    rfl

/-- What the raw reader takes, and that everything else is FormatError (R283). -/
theorem rleRawExpand_cases (s : List Byte) :
    (∃ rs, (∀ r ∈ rs, 1 ≤ r.1 ∧ r.1 ≤ 255) ∧ s = rawRecords rs ∧ rleRawExpand s = .ok (expandRuns rs)) ∨
      rleRawExpand s = .error .format := by
  induction s using rleRawExpand.induct with
  | case1 => exact .inl ⟨[], by simp, rfl, rfl⟩
  | case2 b rest => exact .inr rfl
  | case3 c b rest h0 ih =>
    · rcases ih with ⟨rs, h1, h2, h3⟩ | h
      · left
        have hc : 1 ≤ c.toNat := by
          rw [Nat.one_le_iff_ne_zero]
          intro h
          exact h0 (BitVec.eq_of_toNat_eq h)
        have hall : ∀ r ∈ (c.toNat, b) :: rs, 1 ≤ r.1 ∧ r.1 ≤ 255 := by
          intro r hr
          rcases List.mem_cons.mp hr with rfl | hr
          · exact ⟨hc, by have := byte_lt c; simp only; omega⟩
          · exact h1 r hr
        refine ⟨(c.toNat, b) :: rs, hall, by rw [rawRecords_cons, byteOf_toNat, h2], ?_⟩
        rw [rleRawExpand, if_neg h0, h3]
        rfl
      · exact .inr (by rw [rleRawExpand, if_neg h0, h]; rfl)
  | case4 s h1 h2 =>
    right
    unfold rleRawExpand
    split
    · exact absurd rfl h1
    · exact absurd rfl (h2 _ _ _)
    · rfl

theorem rawRecords_length (rs : List (Nat × Byte)) : (rawRecords rs).length = 2 * rs.length := by
  induction rs with
  | nil => rfl
  | cons r rs ih => simp [ih]; omega

theorem rawRecords_getD (rs : List (Nat × Byte)) (k : Nat) (h : k < rs.length) :
    (rawRecords rs).getD (2 * k) 0 = byteOf rs[k].1 := by
  induction rs generalizing k with
  | nil => simp at h
  | cons r rs ih =>
    cases k with
    | zero => rfl
    | succ k =>
      have := ih k (by simpa using h)
      rw [List.getElem_cons_succ, ← this]
      rfl

/-! ### Decimal digits (R285) -/

theorem decimal_of_lt {d : Nat} (h1 : 1 ≤ d) (h2 : d < 10) : decimal d = [0x30 + d] := by
  unfold decimal
  rw [Nat.digits_of_lt 10 d (by omega) h2]
  rfl

/-- One more digit at the end. -/
theorem decimal_step {c d : Nat} (hc : 1 ≤ c) (hd : d < 10) :
    decimal (10 * c + d) = decimal c ++ [0x30 + d] := by
  unfold decimal
  rw [Nat.digits_def' (by decide) (by omega)]
  have h1 : (10 * c + d) % 10 = d := by omega
  have h2 : (10 * c + d) / 10 = c := by omega
  rw [h1, h2]
  simp

theorem decDigits_eq (fuel c : Nat) (h1 : 1 ≤ c) (h2 : c < fuel) : decDigits fuel c = decimal c := by
  induction fuel generalizing c with
  | zero => omega
  | succ fuel ih =>
    unfold decDigits
    split
    · rename_i h
      rw [decimal_of_lt h1 h]
    · rename_i h
      rw [ih (c / 10) (by omega) (by omega)]
      have hs := decimal_step (c := c / 10) (d := c % 10) (by omega) (by omega)
      rw [show 10 * (c / 10) + c % 10 = c by omega] at hs
      exact hs.symm

/-- `dec` writes the decimal digits (R285). -/
theorem dec_eq {c : Nat} (h : 1 ≤ c) : dec c = decimal c := decDigits_eq (c + 1) c h (by omega)

theorem decimal_le {c x : Nat} (h : x ∈ decimal c) : 0x30 ≤ x ∧ x ≤ 0x39 := by
  unfold decimal at h
  rw [List.mem_reverse, List.mem_map] at h
  obtain ⟨d, hd, rfl⟩ := h
  have := Nat.digits_lt_base (by decide) hd
  omega

/-! ### The text framing (R102, R284, R287) -/

@[simp] theorem framed_nil : framed [] = [] := rfl
@[simp] theorem framed_cons (r : Nat × Nat) (rs : List (Nat × Nat)) :
    framed (r :: rs) = r.2 :: (decimal r.1 ++ 0x3B :: framed rs) := by
  simp [framed]

theorem rleTxt_eq {t : List Nat} {rs : List (Nat × Nat)} (h : RunsOf none t rs) : rleTxt t = framed rs := by
  rw [rleTxt, runs_unique h]
  have : ∀ r ∈ rs, 1 ≤ r.1 := fun r hr => (h.counts r hr).1
  clear h
  induction rs with
  | nil => rfl
  | cons r rs ih =>
    rw [List.flatMap_cons, ih fun q hq => this q (by simp [hq]), framed_cons, rleTxtRun,
      dec_eq (this r (by simp))]
    simp [semicolon]

/-- Reading the rest of a count: the digits that follow those read so far (R287). -/
theorem rleTxtFrom_digits (x c : Nat) (ds rest : List Nat) (h : ∀ d ∈ ds, 0x30 ≤ d ∧ d ≤ 0x39) :
    rleTxtFrom (.digits x c) (ds ++ 0x3B :: rest) =
      (rleTxtFrom .symbol rest).map (List.replicate (ds.foldl (fun n d => 10 * n + (d - 0x30)) c) x ++ ·) := by
  induction ds generalizing c with
  | nil =>
    rw [List.nil_append, rleTxtFrom, if_neg (by decide), if_pos (show 0x3B = semicolon from rfl)]
    rfl
  | cons d ds ih =>
    rw [List.cons_append, rleTxtFrom, if_pos (h d (by simp)), ih _ fun y hy => h y (by simp [hy])]
    rfl

theorem decimal_eq_cons {c : Nat} (h : 1 ≤ c) :
    ∃ d ds, decimal c = d :: ds ∧ 0x31 ≤ d ∧ ds.foldl (fun n d => 10 * n + (d - 0x30)) (d - 0x30) = c := by
  induction c using Nat.strongRecOn with
  | _ c ih =>
    by_cases hc : c < 10
    · exact ⟨_, [], decimal_of_lt h hc, by omega, by simp⟩
    · obtain ⟨d, ds, h1, h2, h3⟩ := ih (c / 10) (by omega) (by omega)
      have hs := decimal_step (c := c / 10) (d := c % 10) (by omega) (by omega)
      rw [show 10 * (c / 10) + c % 10 = c by omega, h1] at hs
      refine ⟨d, ds ++ [0x30 + c % 10], hs, h2, ?_⟩
      rw [List.foldl_append, h3]
      simp only [List.foldl_cons, List.foldl_nil]
      omega

/-- The parser expands the framing (R287). -/
theorem rleTxtFrom_framed {rs : List (Nat × Nat)} (h : ∀ r ∈ rs, 1 ≤ r.1) :
    rleTxtFrom .symbol (framed rs) = some (expandRuns rs) := by
  induction rs with
  | nil => rfl
  | cons r rs ih =>
    obtain ⟨d, ds, h1, h2, h3⟩ := decimal_eq_cons (h r (by simp))
    have hall : ∀ y ∈ decimal r.1, 0x30 ≤ y ∧ y ≤ 0x39 := fun y hy => decimal_le hy
    rw [h1] at hall
    have hd := hall d (by simp)
    rw [framed_cons, h1, rleTxtFrom, List.cons_append, rleTxtFrom, if_pos ⟨h2, hd.2⟩,
      rleTxtFrom_digits _ _ _ _ fun y hy => hall y (by simp [hy]), h3, ih fun q hq => h q (by simp [hq])]
    rfl

/-- What the parser takes from each position (R287). -/
theorem rleTxtFrom_inv (p : RlePos) (t out : List Nat) (h : rleTxtFrom p t = some out) :
    match p with
    | .symbol => ∃ rs, (∀ r ∈ rs, 1 ≤ r.1) ∧ t = framed rs ∧ out = expandRuns rs
    | .first x => ∃ c rs, 1 ≤ c ∧ (∀ r ∈ rs, 1 ≤ r.1) ∧ t = decimal c ++ 0x3B :: framed rs ∧
        out = List.replicate c x ++ expandRuns rs
    | .digits x c₀ => 1 ≤ c₀ → ∃ c ds rs, 1 ≤ c ∧ (∀ r ∈ rs, 1 ≤ r.1) ∧ decimal c = decimal c₀ ++ ds ∧
        t = ds ++ 0x3B :: framed rs ∧ out = List.replicate c x ++ expandRuns rs := by
  induction t generalizing p out with
  | nil =>
    cases p with
    | symbol => cases h; exact ⟨[], by simp, rfl, rfl⟩
    | first x => cases h
    | digits x c => cases h
  | cons y t ih =>
    cases p with
    | symbol =>
      obtain ⟨c, rs, h1, h2, rfl, rfl⟩ := ih (.first y) out h
      refine ⟨(c, y) :: rs, ?_, by simp, by simp⟩
      intro r hr
      rcases List.mem_cons.mp hr with rfl | hr
      · exact h1
      · exact h2 r hr
    | first x =>
      rw [rleTxtFrom] at h
      split at h
      · rename_i hy
        obtain ⟨c, ds, rs, h1, h2, h3, rfl, rfl⟩ := ih _ out h (by omega)
        refine ⟨c, rs, h1, h2, ?_, rfl⟩
        rw [h3, decimal_of_lt (by omega) (by omega), show 0x30 + (y - 0x30) = y by omega]
        simp
      · cases h
    | digits x c₀ =>
      intro hc
      rw [rleTxtFrom] at h
      split at h
      · rename_i hy
        obtain ⟨c, ds, rs, h1, h2, h3, rfl, rfl⟩ := ih _ out h (by omega)
        refine ⟨c, y :: ds, rs, h1, h2, ?_, by simp, rfl⟩
        rw [h3, decimal_step hc (by omega), show 0x30 + (y - 0x30) = y by omega]
        simp
      · split at h
        · rename_i hsemi
          simp only [Option.map_eq_some_iff] at h
          obtain ⟨o, ho, rfl⟩ := h
          obtain ⟨rs, h1, rfl, rfl⟩ := ih .symbol o ho
          exact ⟨c₀, [], rs, hc, h1, by simp, by simp [hsemi, semicolon], rfl⟩
        · cases h

/-- The parser takes exactly the framings (R102, R287). -/
theorem rleTxtParse_eq_ok {t out : List Nat} :
    rleTxtParse t = .ok out ↔ ∃ rs, (∀ r ∈ rs, 1 ≤ r.1) ∧ t = framed rs ∧ out = expandRuns rs := by
  unfold rleTxtParse
  constructor
  · intro h
    split at h
    · rename_i o ho
      cases h
      exact rleTxtFrom_inv .symbol t _ ho
    · cases h
  · rintro ⟨rs, h, rfl, rfl⟩
    rw [rleTxtFrom_framed h]

theorem rleTxtParse_cases (t : List Nat) :
    (∃ out, rleTxtParse t = .ok out) ∨ rleTxtParse t = .error .format := by
  unfold rleTxtParse
  split
  · exact .inl ⟨_, rfl⟩
  · exact .inr rfl

theorem isText_framed {rs : List (Nat × Nat)} : IsText (framed rs) ↔ ∀ r ∈ rs, r.2 ≤ 0x10FFFF := by
  induction rs with
  | nil => simp [IsText]
  | cons r rs ih =>
    rw [framed_cons]
    simp only [IsText] at ih ⊢
    constructor
    · intro h q hq
      rcases List.mem_cons.mp hq with rfl | hq
      · exact h q.2 (by simp)
      · exact ih.mp (fun x hx => h x (by simp [hx])) q hq
    · intro h x hx
      rcases List.mem_cons.mp hx with rfl | hx
      · exact h r (by simp)
      · rcases List.mem_append.mp hx with hx | hx
        · have := decimal_le hx; omega
        · rcases List.mem_cons.mp hx with rfl | hx
          · decide
          · exact ih.mpr (fun q hq => h q (by simp [hq])) x hx

end Sys2Proof.Machine
end

