-- ==== Sys2Proof/Tests/Slice0.lean ====
section
/-! SUPPORT. Tests: words written out from 30_encoding, one step of each command on small inputs with the
results 95_test_vectors.md gives, the aperture, and for every statement with hypotheses a concrete
state that meets them. -/

namespace Sys2Proof.Tests

open Sys2Proof Sys2Proof.Machine Sys2Proof.Spec

/-! ### Helpers -/

/-- An idle block with IN_CAP = OUT_CAP = 0x40, as 95_test_vectors.md takes it. -/
def base : State := { State.reset with inCap := 0x40, outCap := 0x40 }

/-- `base` with an input loaded and the LZ77 parameters set. -/
def loaded (w l : Word) (input : List Byte) : State :=
  { base with
    inBuf := Buffer.holding input 0
    inLen := BitVec.ofNat 32 input.length
    lzWindow := w
    lzLookahead := l }

/-- `loaded` with a command word accepted, about to complete. -/
def ready (word : Nat) (w l : Word) (input : List Byte) : State := (loaded w l input).withFetchWord 32 word

/-- What one step leaves: OUT_BUF[0..OUT_LEN) and STATUS. -/
def outcome (word : Nat) (w l : Word) (input : List Byte) : Option (List Byte × Word) :=
  match step (ready word w l input) with
  | .next t => some (t.outBytes, t.statusWord)
  | _ => none

/-! ### Words written out from R91: RSVD 24 bits, FAMILY 4, SUBOP 2, VARIANT 1, DIR 1 -/

theorem test_decode_nop : decode 0b00000000_0000_00_0_0#32 = .ok .nop := by decide
theorem test_decode_rleRawEnc : decode 0b00000000_0001_00_0_0#32 = .ok .rleRawEnc := by decide
theorem test_decode_rleRawDec : decode 0b00000000_0001_00_0_1#32 = .ok .rleRawDec := by decide
theorem test_decode_rleTxtEnc : decode 0b00000000_0001_00_1_0#32 = .ok .rleTxtEnc := by decide
theorem test_decode_rleTxtDec : decode 0b00000000_0001_00_1_1#32 = .ok .rleTxtDec := by decide
theorem test_decode_hufRawEnc : decode 0b00000000_0010_00_0_0#32 = .ok .hufRawEnc := by decide
theorem test_decode_hufRawDec : decode 0b00000000_0010_00_0_1#32 = .ok .hufRawDec := by decide
theorem test_decode_hufTxtEnc : decode 0b00000000_0010_00_1_0#32 = .ok .hufTxtEnc := by decide
theorem test_decode_hufTxtDec : decode 0b00000000_0010_00_1_1#32 = .ok .hufTxtDec := by decide
theorem test_decode_hufRawTable : decode 0b00000000_0010_01_0_0#32 = .ok .hufRawTable := by decide
theorem test_decode_hufTxtTable : decode 0b00000000_0010_01_1_0#32 = .ok .hufTxtTable := by decide
theorem test_decode_hufRawWeights : decode 0b00000000_0010_10_0_0#32 = .ok .hufRawWeights := by decide
theorem test_decode_hufTxtWeights : decode 0b00000000_0010_10_1_0#32 = .ok .hufTxtWeights := by decide
theorem test_decode_bsPack : decode 0b00000000_0011_00_0_0#32 = .ok .bsPack := by decide
theorem test_decode_bsUnpack : decode 0b00000000_0011_00_0_1#32 = .ok .bsUnpack := by decide
theorem test_decode_lzRawEnc : decode 0b00000000_0100_00_0_0#32 = .ok .lzRawEnc := by decide
theorem test_decode_lzRawDec : decode 0b00000000_0100_00_0_1#32 = .ok .lzRawDec := by decide
theorem test_decode_lzTxtEnc : decode 0b00000000_0100_00_1_0#32 = .ok .lzTxtEnc := by decide
theorem test_decode_lzTxtDec : decode 0b00000000_0100_00_1_1#32 = .ok .lzTxtDec := by decide

/-- T20, T21: words that are ILLEGAL. -/
theorem test_decode_illegal :
    [0x01, 0x14, 0x2C, 0x29, 0x32, 0x44, 0x50, 0xFF].all
      (fun w => decode (BitVec.ofNat 32 w) == .error .opcodeNotInMap) = true ∧
    decode 0x110 = .error .rsvdNotZero := by decide

/-! ### WellFormed: each check refuses an ill-formed word (R91, R95) -/

theorem test_wf_rsvd : (⟨1, 0, 0, false, false⟩ : CmdFields).rsvdClear = false := by decide
theorem test_wf_family : (⟨0, 5, 0, false, false⟩ : CmdFields).familyKnown = false := by decide
theorem test_wf_control : (⟨0, 0, 0, false, true⟩ : CmdFields).controlClear = false := by decide
theorem test_wf_subop : (⟨0, 4, 1, false, false⟩ : CmdFields).subopClear = false := by decide
theorem test_wf_bitStream : (⟨0, 3, 0, true, false⟩ : CmdFields).bitStreamRaw = false := by decide
theorem test_wf_huffmanSubop : (⟨0, 2, 3, false, false⟩ : CmdFields).huffmanSubop = false := by decide
theorem test_wf_huffmanUnit : (⟨0, 2, 2, false, true⟩ : CmdFields).huffmanUnitEnc = false := by decide

/-! ### The aperture -/

/-- T5, T16: a 1-byte access to a register returns 0 and sets BUSERR, which bit 1 does not clear. -/
theorem test_byte_read_of_register :
    (busRead 0x000 1 base).1 = 0 ∧ (busRead 0x000 1 base).2.statusWord = 0x8 ∧
    (busWrite 0x014 4 0x2 (busRead 0x000 1 base).2).statusWord = 0x8 := by decide

/-- T6, T7, T10, T11, T12: misaligned, unmapped and 2-byte accesses. -/
theorem test_bus_errors :
    [(busRead 0x016 4 base), (busRead 0x034 4 base), (busRead 0x100001 4 base), (busRead 0x100000 2 base),
      (busRead 0x300000 4 base)].all (fun r => r.1 == 0 && r.2.buserr) = true := by decide

/-- T13, T14: a word is big-endian, and a byte written shows in it. -/
theorem test_big_endian :
    (busRead 0x100003 1 (busWrite 0x100000 4 0x11223344 base)).1 = 0x44 ∧
    (busRead 0x100000 4 (busWrite 0x100001 1 0xAB (busWrite 0x100000 4 0x11223344 base))).1
      = 0x11AB3344 := by decide

/-- T18: IN_LEN above IN_CAP is PE, even for NOP. -/
theorem test_length_above_capacity :
    (match step ({ base with inLen := 0x41 }.withFetchWord 32 0x00) with
      | .next t => t.statusWord == 0x606 && t.statOrig == 0x41
      | _ => false) = true := by decide

/-- T25: SRST resets, whatever bit 0 was. -/
theorem test_soft_reset : (busWrite 0x018 4 0x3 { base with inLen := 5, done := true }).ctrlWord = 0 ∧
    (busWrite 0x018 4 0x3 { base with inLen := 5, done := true }).inLen = 0 := by decide

/-! ### One step of each command -/

/-- T17. -/
theorem test_nop : outcome 0x00 0 0 [] = some ([], 0x2) := by decide

/-- T19. -/
theorem test_illegal_word : outcome 0x25 0 0 [] = some ([], 0x506) := by decide

/-- T20. -/
theorem test_reserved_bits : outcome 0x110 0 0 [] = some ([], 0x506) := by decide

/-- W1. -/
theorem test_rleRawEnc : outcome 0x10 0 0 [0x41, 0x41, 0x41, 0x42] = some ([0x03, 0x41, 0x01, 0x42], 0x2) := by decide

/-- W1. -/
theorem test_rleRawDec : outcome 0x11 0 0 [0x03, 0x41, 0x01, 0x42] = some ([0x41, 0x41, 0x41, 0x42], 0x2) := by decide

/-- E15. -/
theorem test_rleTxtEnc : outcome 0x12 0 0 [0x00, 0x00, 0x00, 0x61, 0x00, 0x00, 0x00, 0x61, 0x00, 0x00, 0x00, 0x61, 0x00, 0x00, 0x00, 0x62] = some ([0x00, 0x00, 0x00, 0x61, 0x00, 0x00, 0x00, 0x33, 0x00, 0x00, 0x00, 0x3B, 0x00, 0x00, 0x00, 0x62, 0x00, 0x00, 0x00, 0x31, 0x00, 0x00, 0x00, 0x3B], 0x2) := by decide

/-- E23. -/
theorem test_rleTxtDec : outcome 0x13 0 0 [0x00, 0x00, 0x00, 0x31, 0x00, 0x00, 0x00, 0x33, 0x00, 0x00, 0x00, 0x3B, 0x00, 0x00, 0x00, 0x3B, 0x00, 0x00, 0x00, 0x32, 0x00, 0x00, 0x00, 0x3B] = some ([0x00, 0x00, 0x00, 0x31, 0x00, 0x00, 0x00, 0x31, 0x00, 0x00, 0x00, 0x31, 0x00, 0x00, 0x00, 0x3B, 0x00, 0x00, 0x00, 0x3B], 0x2) := by decide

/-- E25. -/
theorem test_rleTxtDec_zero : outcome 0x13 0 0 [0x00, 0x00, 0x00, 0x61, 0x00, 0x00, 0x00, 0x30, 0x00, 0x00, 0x00, 0x3B] = some ([], 0x206) := by decide

/-- HC5. -/
theorem test_hufRawEnc : outcome 0x20 0 0 [0x61, 0x62, 0x63, 0x61, 0x62, 0x63, 0x61, 0x61, 0x62] = some ([0x00, 0x00, 0x00, 0x0F, 0x00, 0x02, 0x00, 0x00, 0x00, 0x03, 0x61, 0x01, 0x00, 0x62, 0x02, 0xC0, 0x63, 0x02, 0x80, 0x73, 0x8C], 0x2) := by decide

/-- HC9. -/
theorem test_hufRawEnc_degenerate : outcome 0x20 0 0 [0x61, 0x61, 0x61] = some ([], 0x106) := by decide

/-- HC28. -/
theorem test_hufRawDec : outcome 0x21 0 0 [0x00, 0x00, 0x00, 0x09, 0x00, 0x05, 0x00, 0x00, 0x00, 0x01, 0x61, 0x01, 0x00, 0x00] = some ([0x61, 0x61, 0x61], 0x2) := by decide

/-- HE13. -/
theorem test_hufRawDec_unmatched : outcome 0x21 0 0 [0x00, 0x00, 0x00, 0x09, 0x00, 0x07, 0x00, 0x00, 0x00, 0x01, 0x61, 0x02, 0xC0, 0x80] = some ([], 0x206) := by decide

/-- HC12. -/
theorem test_hufTxtEnc : outcome 0x22 0 0 [0x00, 0x01, 0xF6, 0x00, 0x00, 0x01, 0xF6, 0x00, 0x00, 0x00, 0x00, 0x41] = some ([0x00, 0x00, 0x00, 0x12, 0x01, 0x05, 0x00, 0x00, 0x00, 0x02, 0x00, 0x01, 0xF6, 0x00, 0x01, 0x80, 0x00, 0x00, 0x00, 0x41, 0x01, 0x00, 0xC0], 0x2) := by decide

/-- HC15. -/
theorem test_hufTxtEnc_bad_text : outcome 0x22 0 0 [0x00, 0x11, 0x00, 0x00, 0x00, 0x00, 0x00, 0x61] = some ([], 0x606) := by decide

/-- HC29. -/
theorem test_hufTxtDec : outcome 0x23 0 0 [0x00, 0x00, 0x00, 0x12, 0x01, 0x05, 0x00, 0x00, 0x00, 0x02, 0x00, 0x01, 0xF6, 0x00, 0x01, 0x80, 0x00, 0x00, 0x00, 0x41, 0x01, 0x00, 0xC0] = some ([0x00, 0x01, 0xF6, 0x00, 0x00, 0x01, 0xF6, 0x00, 0x00, 0x00, 0x00, 0x41], 0x2) := by decide

/-- HC19. -/
theorem test_hufRawTable : outcome 0x24 0 0 [0x61, 0x62, 0x72, 0x61, 0x63, 0x61, 0x64, 0x61, 0x62, 0x72, 0x61] = some ([0x00, 0x01, 0x00, 0x00, 0x00, 0x05, 0x61, 0x01, 0x00, 0x62, 0x03, 0xC0, 0x72, 0x03, 0xE0, 0x63, 0x03, 0x80, 0x64, 0x03, 0xA0], 0x2) := by decide

/-- HC21. -/
theorem test_hufTxtTable : outcome 0x26 0 0 [0x00, 0x00, 0x00, 0x61, 0x00, 0x00, 0x00, 0x61, 0x00, 0x00, 0x00, 0x61, 0x00, 0x00, 0x00, 0x62] = some ([0x01, 0x04, 0x00, 0x00, 0x00, 0x02, 0x00, 0x00, 0x00, 0x61, 0x01, 0x80, 0x00, 0x00, 0x00, 0x62, 0x01, 0x00], 0x2) := by decide

/-- HC23. -/
theorem test_hufRawWeights : outcome 0x28 0 0 [0x6D, 0x69, 0x73, 0x73, 0x69, 0x73, 0x73, 0x69, 0x70, 0x70, 0x69] = some ([0x6D, 0x00, 0x00, 0x00, 0x01, 0x70, 0x00, 0x00, 0x00, 0x02, 0x69, 0x00, 0x00, 0x00, 0x04, 0x73, 0x00, 0x00, 0x00, 0x04], 0x2) := by decide

/-- HC26. -/
theorem test_hufTxtWeights : outcome 0x2A 0 0 [0x00, 0x00, 0x00, 0x61, 0x00, 0x00, 0x00, 0x62, 0x00, 0x00, 0x00, 0x72, 0x00, 0x00, 0x00, 0x61, 0x00, 0x00, 0x00, 0x63, 0x00, 0x00, 0x00, 0x61, 0x00, 0x00, 0x00, 0x64, 0x00, 0x00, 0x00, 0x61, 0x00, 0x00, 0x00, 0x62, 0x00, 0x00, 0x00, 0x72, 0x00, 0x00, 0x00, 0x61] = some ([0x00, 0x00, 0x00, 0x63, 0x00, 0x00, 0x00, 0x01, 0x00, 0x00, 0x00, 0x64, 0x00, 0x00, 0x00, 0x01, 0x00, 0x00, 0x00, 0x62, 0x00, 0x00, 0x00, 0x02, 0x00, 0x00, 0x00, 0x72, 0x00, 0x00, 0x00, 0x02, 0x00, 0x00, 0x00, 0x61, 0x00, 0x00, 0x00, 0x05], 0x2) := by decide

/-- B2. -/
theorem test_bsPack : outcome 0x30 0 0 [0x08, 0xB3, 0x01, 0x80] = some ([0x07, 0xB3, 0x80], 0x2) := by decide

/-- B7. -/
theorem test_bsPack_unused_bit : outcome 0x30 0 0 [0x01, 0xC0] = some ([], 0x206) := by decide

/-- B12. -/
theorem test_bsUnpack : outcome 0x31 0 0 [0x04, 0xEF] = some ([0x01, 0x01, 0x01, 0x00], 0x2) := by decide

/-- B14. -/
theorem test_bsUnpack_pad_above_data : outcome 0x31 0 0 [0x01] = some ([], 0x206) := by decide

/-- L6, the oldest of equal matches. -/
theorem test_lzRawEnc : outcome 0x40 8 8 [0x61, 0x62, 0x78, 0x61, 0x62, 0x79, 0x61, 0x62, 0x7A] = some ([0x00, 0x00, 0x00, 0x00, 0x61, 0x00, 0x00, 0x00, 0x00, 0x62, 0x00, 0x00, 0x00, 0x00, 0x78, 0x00, 0x03, 0x00, 0x02, 0x79, 0x00, 0x06, 0x00, 0x02, 0x7A], 0x2) := by decide

/-- L12. -/
theorem test_lzRawEnc_zero_window : outcome 0x40 0 5 [0x61] = some ([], 0x606) := by decide

/-- LD2, a copy that overlaps its own output. -/
theorem test_lzRawDec : outcome 0x41 0 0 [0x00, 0x00, 0x00, 0x00, 0x61, 0x00, 0x01, 0x00, 0x03, 0x61] = some ([0x61, 0x61, 0x61, 0x61, 0x61], 0x2) := by decide

/-- LD5. -/
theorem test_lzRawDec_offset_beyond : outcome 0x41 0 0 [0x00, 0x00, 0x00, 0x00, 0x61, 0x00, 0x02, 0x00, 0x01, 0x62] = some ([], 0x206) := by decide

/-- L17. -/
theorem test_lzTxtEnc : outcome 0x42 4 4 [0x00, 0x00, 0x00, 0x61, 0x00, 0x00, 0x00, 0x61, 0x00, 0x00, 0x00, 0x61, 0x00, 0x00, 0x00, 0x61] = some ([0x00, 0x00, 0x00, 0x00, 0x00, 0x00, 0x00, 0x00, 0x00, 0x00, 0x00, 0x61, 0x00, 0x00, 0x00, 0x01, 0x00, 0x00, 0x00, 0x02, 0x00, 0x00, 0x00, 0x61], 0x2) := by decide

/-- LD12, the empty literal. -/
theorem test_lzTxtDec : outcome 0x43 0 0 [0x00, 0x00, 0x00, 0x00, 0x00, 0x00, 0x00, 0x00, 0x00, 0x00, 0x00, 0x61, 0x00, 0x00, 0x00, 0x01, 0x00, 0x00, 0x00, 0x03, 0xFF, 0xFF, 0xFF, 0xFF] = some ([0x00, 0x00, 0x00, 0x61, 0x00, 0x00, 0x00, 0x61, 0x00, 0x00, 0x00, 0x61, 0x00, 0x00, 0x00, 0x61], 0x2) := by decide

/-! ### States that meet the statements' hypotheses

Each `witness_<Name>` shows concrete states and operands that meet every hypothesis of
`Obligations.<Name>` together, for each clause. -/

/-- A command in flight with a given number of busy steps left and host turns before the engine's. -/
def flying (word : Nat) (steps turns : Nat) (input : List Byte) (program : List HostOp) : State :=
  { acceptWith steps turns (BitVec.ofNat 32 word) (loaded 4 4 input) with program := program }

/-- The engine record of `flying`. -/
def record (word : Nat) (steps : Nat) (input : List Byte) : Engine :=
  latch steps (BitVec.ofNat 32 word) (loaded 4 4 input)

/-- The input of a loaded command is what was loaded, whatever IN_CAP. -/
theorem input_loaded (word : Nat) (w l c : Word) (input : List Byte) (h : input.length < 2 ^ 32) :
    { ready word w l input with inCap := c }.input = input := by
  have he : { ready word w l input with inCap := c }.input =
      (List.range (BitVec.ofNat 32 input.length).toNat).map (Buffer.holding input 0).byte := rfl
  rw [he, BitVec.toNat_ofNat, Nat.mod_eq_of_lt h]
  refine List.ext_getElem (by simp) fun k h1 h2 => ?_
  rw [List.getElem_map, List.getElem_range, byte_holding input 0 k h2]

/-- Its IN_LEN is the input's length. -/
theorem inLen_loaded (word : Nat) (w l c : Word) (input : List Byte) :
    { ready word w l input with inCap := c }.command.inLen = BitVec.ofNat 32 input.length := rfl

/-- A state as `s` with no IN_BUF, so that IN_LEN is above IN_CAP; the input is the same. -/
def overlong (s : State) : State := { s with inCap := 0 }

/-- A state as `s` with no OUT_BUF, so that no output fits; the input is the same. -/
def tight (s : State) : State := { s with outCap := 0 }

/-- The two cases in which a command answers with an error of the envelope (R143), for a command about
to complete: the hypotheses about its input, W and L are met as by the command itself. -/
theorem witness_Answers (word : Nat) (w l : Word) (b : Byte) (input out : List Byte) (c : Byte)
    (h : (b :: input).length < 2 ^ 32) :
    (¬ LegalLen (overlong (ready word w l (b :: input))) ∧
      (overlong (ready word w l (b :: input))).input = (ready word w l (b :: input)).input) ∧
    (LegalLen (ready word w l (b :: input)) → LegalLen (tight (ready word w l (b :: input)))) ∧
    ¬ Fits (tight (ready word w l (b :: input))) (c :: out) ∧
    (tight (ready word w l (b :: input))).input = (ready word w l (b :: input)).input := by
  refine ⟨⟨?_, rfl⟩, id, ?_, rfl⟩
  · have h1 : (overlong (ready word w l (b :: input))).command.inLen.toNat = (b :: input).length := by
      rw [show (overlong (ready word w l (b :: input))).command.inLen =
        BitVec.ofNat 32 (b :: input).length from rfl, BitVec.toNat_ofNat, Nat.mod_eq_of_lt h]
    intro hl
    have h2 : (overlong (ready word w l (b :: input))).command.inLen.toNat ≤ 0 := hl
    rw [h1, List.length_cons] at h2
    omega
  · intro hf
    have h3 : (c :: out).length ≤ 0 := hf
    rw [List.length_cons] at h3
    omega

/-- The same at one command: B1 of 95_test_vectors, with 6 bytes of input and 2 of output. -/
theorem witness_Answers_bsPack :
    ¬ LegalLen (overlong (ready 0x30 0 0 [0x01, 0x80, 0x02, 0x40, 0x03, 0x20])) ∧
    LegalLen (tight (ready 0x30 0 0 [0x01, 0x80, 0x02, 0x40, 0x03, 0x20])) ∧
    ¬ Fits (tight (ready 0x30 0 0 [0x01, 0x80, 0x02, 0x40, 0x03, 0x20])) [0x02, 0xA4] := by
  unfold LegalLen Fits
  decide

theorem witness_StepRunsTheDecodedCommand :
    Completing (flying 0x10 1 0 [0x61] []) (record 0x10 1 [0x61]) ∧
      (record 0x10 1 [0x61]).decoded = .ok .rleRawEnc := ⟨⟨rfl, Nat.le_refl 1, rfl⟩, by decide⟩

theorem witness_IllegalWordCompletesWithIllegalCommand :
    (Completing (flying 0x25 1 0 [] []) (record 0x25 1 []) ∧
      (record 0x25 1 []).decoded = .error .opcodeNotInMap) ∧
    (Completing (flying 0x110 1 0 [] []) (record 0x110 1 []) ∧
      (record 0x110 1 []).decoded = .error .rsvdNotZero) :=
  ⟨⟨⟨rfl, Nat.le_refl 1, rfl⟩, by decide⟩, ⟨⟨rfl, Nat.le_refl 1, rfl⟩, by decide⟩⟩

theorem witness_IdleCommandWriteIsAccepted :
    { base with program := [.write 0x010 4 0x10] }.engine = none ∧
    { base with program := [.write 0x010 4 0x10] }.program = .write 0x010 4 0x10 :: [] := ⟨rfl, rfl⟩

theorem witness_WaitStepOnlyCountsDown :
    (flying 0x10 2 0 [] []).engine = some (record 0x10 2 []) ∧ 1 < (record 0x10 2 []).steps ∧
      engineTurn (flying 0x10 2 0 [] []) = true := ⟨rfl, by decide, rfl⟩

theorem witness_EveryAcceptedCommandEnds : (flying 0x10 3 2 [] [.poll]).busy = true := rfl

theorem witness_CommandsChangeOnlyOutputAndStatus :
    ∃ t, exec .rleRawEnc (flying 0x10 1 0 [0x61] []) = .next t := ⟨_, rfl⟩

/-- Two states that agree on the operands and differ in CTRL and in the registers not latched. -/
theorem witness_ResultDependsOnlyOnOperands :
    ∃ s s' : State, s ≠ s' ∧ s'.command.inLen = s.command.inLen ∧ s'.command.win = s.command.win ∧
      s'.command.look = s.command.look ∧ s'.inCap = s.inCap ∧ s'.outCap = s.outCap ∧ s'.input = s.input ∧
      (∃ t, exec .rleRawEnc s = .next t) ∧ ∃ t, exec .rleRawEnc s' = .next t :=
  ⟨flying 0x10 1 0 [0x61] [], { flying 0x10 1 0 [0x61] [] with irqEn := true, lzWindow := 9 },
    fun h => absurd (congrArg State.irqEn h) (by decide), rfl, rfl, rfl, rfl, rfl, rfl, ⟨_, rfl⟩, _, rfl⟩

theorem witness_OnlyLzEncodersReadTheLzRegisters :
    ((ready 0x40 0 5 [0x61]).command.win = 0 ∧ (ready 0x40 5 0 [0x61]).command.look = 0) ∧
    Instr.rleRawEnc ≠ .lzRawEnc ∧ Instr.rleRawEnc ≠ .lzTxtEnc ∧
    (ready 0x10 0 9 [0x61]).command.inLen = (ready 0x10 4 4 [0x61]).command.inLen ∧
    (ready 0x10 0 9 [0x61]).input = (ready 0x10 4 4 [0x61]).input ∧
    (∃ t, exec .rleRawEnc (ready 0x10 4 4 [0x61]) = .next t) ∧
    ∃ t, exec .rleRawEnc (ready 0x10 0 9 [0x61]) = .next t :=
  ⟨⟨rfl, rfl⟩, by decide, by decide, rfl, rfl, ⟨_, rfl⟩, _, rfl⟩

theorem witness_ParameterErrorIsRaisedAsListed :
    { base with inLen := 0x41 }.inCap.toNat < { base with inLen := 0x41 }.command.inLen.toNat ∧
    (ready 0x40 0 5 [0x61]).window = 0 ∧ (ready 0x42 5 0 [0x61]).lookahead = 0 ∧
    BadText (ready 0x12 4 4 [0, 0, 0]).input ∧ BadText (ready 0x12 4 4 [0x00, 0x11, 0x00, 0x00]).input :=
  ⟨by decide, rfl, rfl, .inl (by decide), .inr ⟨0, by decide, by decide⟩⟩

theorem witness_NopCompletesEmpty :
    LegalLen { base with inLen := 0x40 } ∧ ¬ LegalLen { base with inLen := 0x41 } := by
  unfold LegalLen
  decide

/-! #### The aperture -/

/-- Offsets on both sides of the windows' ends, a read-only register, and a locked write. -/
theorem witness_BusErrorsOnlySetBuserr :
    Config.capLegal base.inCap = true ∧ ¬ LegalAccess base 0x034 4 ∧ ¬ LegalAccess base 0x000 1 ∧
    ¬ LegalAccess base 0x100001 4 ∧ ¬ LegalAccess base 0x100040 1 ∧ ¬ LegalAccess base 0x0FFFFF 1 ∧
    OutWindow base 0x20003F ∧ ReadOnlyOffset 0x030 ∧
    ((flying 0x10 2 0 [] []).busy = true ∧ LockedOffset (flying 0x10 2 0 [] []) 0x010 4 ∧
      LockedOffset (flying 0x10 2 0 [] []) 0x10003F 1) := by
  simp [LegalAccess, RegOffset, InWindow, OutWindow, BufferWidth, ReadOnlyOffset, LockedOffset, base]
  decide

theorem witness_LegalReadsHaveNoSideEffect :
    LegalAccess base 0x030 4 ∧ LegalAccess base 0x10003C 4 ∧ LegalAccess base 0x20003F 1 ∧
    LegalAccess (flying 0x10 2 0 [] []) 0x024 4 := by
  simp [LegalAccess, RegOffset, InWindow, OutWindow, BufferWidth, base]

theorem witness_RegistersReadTheirValues : base.busy = false := rfl

theorem witness_StatusAndControlWritesDoOnlyWhatTheySay :
    (0x1 : Word).getLsbD 1 = false ∧ (0x3 : Word).getLsbD 1 = true := by decide

theorem witness_IdleParameterWritesStore : base.busy = false := rfl

theorem witness_BusyWritesAreLost :
    (flying 0x10 2 0 [] []).busy = true ∧ LockedOffset (flying 0x10 2 0 [] []) 0x02C 4 ∧
    LockedOffset (flying 0x10 2 0 [] []) 0x10003F 1 := by
  simp [LockedOffset, InWindow, BufferWidth]
  decide

theorem witness_ReadOnlyAndReservedWritesAreIgnored :
    ReadOnlyOffset 0x000 ∧ ReadOnlyOffset 0x030 ∧ (0xFFFFFFF5 : Word) &&& 0xA = 0 ∧
    (0xFFFFFFFC : Word) &&& 0x3 = BitVec.setWidth 32 (BitVec.ofBool base.irqEn) ∧ RegOffset 0x02C := by
  simp [ReadOnlyOffset, RegOffset]
  decide

theorem witness_ByteAccessReadsAndWritesOneByte :
    Config.capLegal base.inCap = true ∧ Config.capLegal base.outCap = true ∧ 0 < base.inCap.toNat ∧
    0x3F < base.inCap.toNat ∧ 0x3F < base.outCap.toNat ∧ base.busy = false := by decide

theorem witness_WordAccessIsBigEndian :
    Config.capLegal base.inCap = true ∧ Config.capLegal base.outCap = true ∧ 4 * 0xF < base.inCap.toNat ∧
    4 * 0xF < base.outCap.toNat ∧ base.busy = false := by decide

theorem witness_ByteWriteShowsInWordRead :
    Config.capLegal base.inCap = true ∧ base.busy = false ∧ 4 * 0xF < base.inCap.toNat ∧ 3 < 4 := by decide

theorem witness_HostAccessTakesEffectInOneStep :
    HostPerforms { base with program := [.write 0x020 4 5] } (.write 0x020 4 5) [] ∧
    HostPerforms { base with program := [.read 0x020 4] } (.read 0x020 4) [] ∧
    HostPerforms (flying 0x10 2 1 [] [.read 0x014 4]) (.read 0x014 4) [] :=
  ⟨⟨rfl, .inl rfl⟩, ⟨rfl, .inl rfl⟩, ⟨rfl, .inr rfl⟩⟩

theorem witness_HostReadsLeaveTheBlockAlone :
    HostPerforms (flying 0x10 2 1 [] [.read 0x024 4]) (.read 0x024 4) [] := ⟨rfl, .inr rfl⟩

theorem witness_PollAndCopyOutFollowTheirExpansions :
    HostPerforms { base with program := [.poll] } .poll [] ∧
    HostPerforms (flying 0x10 2 1 [] [.poll]) .poll [] ∧
    HostPerforms { base with program := [.copyOut] } .copyOut [] ∧
    { base with program := [.copyOut] }.busy = false :=
  ⟨⟨rfl, .inl rfl⟩, ⟨rfl, .inr rfl⟩, ⟨rfl, .inl rfl⟩, rfl⟩

/-! #### Rules of the whole machine, reset -/

theorem witness_CapacitiesNeverChange :
    ∃ t, step { base with program := [.write 0x008 4 0] } = .next t := ⟨_, rfl⟩

theorem witness_BuserrIsSticky :
    (∃ t, step { base with buserr := true, program := [.write 0x014 4 0x8] } = .next t ∧ t.buserr = false) ∧
    { base with buserr := true, program := [.write 0x014 4 0x8] }.buserr = true := ⟨⟨_, rfl, rfl⟩, rfl⟩

theorem witness_InputBufferChangesOnlyByHostOrReset :
    ∃ t, step { base with program := [.write 0x10003F 1 0x5A] } = .next t ∧ t.inBuf ≠ base.inBuf :=
  ⟨_, rfl, by decide⟩

theorem witness_OutputStandsUntilNextCompletionOrReset :
    ∃ t, step (ready 0x10 4 4 [0x61]) = .next t ∧ t.outLen ≠ (ready 0x10 4 4 [0x61]).outLen :=
  ⟨_, rfl, by decide⟩

theorem witness_DoneIsSetOnlyByCompletion :
    ∃ t, step (ready 0x00 0 0 []) = .next t ∧ (ready 0x00 0 0 []).done = false ∧ t.done = true :=
  ⟨_, rfl, rfl, rfl⟩

theorem witness_InterruptFollowsEnableAndDone :
    (∃ t, Completing (flying 0x00 1 0 [] []) (record 0x00 1 []) ∧
      step (flying 0x00 1 0 [] []) = .next t) ∧
    (0x1 : Word).getLsbD 1 = false ∧ (0x2 : Word).getLsbD 1 = true ∧ base.busy = false :=
  ⟨⟨_, ⟨rfl, Nat.le_refl 1, rfl⟩, rfl⟩, by decide, by decide, rfl⟩

theorem witness_ResetLeavesTheSpecifiedValues :
    HostPerforms (flying 0x10 2 1 [] [.reset]) .reset [] := ⟨rfl, .inr rfl⟩

theorem witness_SoftResetIsHardwareReset :
    (base.engine = none ∨ base.hostTurns ≠ 0) ∧
    ((flying 0x10 2 1 [] []).engine = none ∨ (flying 0x10 2 1 [] []).hostTurns ≠ 0) ∧
    (0x2 : Word).getLsbD 1 = true := ⟨.inl rfl, .inr (by decide), by decide⟩

/-- A state with a command in flight has the invariant, and steps. -/
theorem witness_EveryStepKeepsTheInvariant :
    (flying 0x10 1 0 [0x61, 0x61] []).Inv ∧ ∃ t, step (flying 0x10 1 0 [0x61, 0x61] []) = .next t :=
  ⟨⟨by decide, by decide, by decide, by decide, rfl, by decide, by decide, by decide, by decide,
    by decide, by
      intro e he
      cases he
      decide, by decide⟩, _, rfl⟩

/-! #### Bit streams -/

theorem witness_UnpackInvertsPack : (0 ≤ 7 ∧ 7 ≤ 7) ∧ 8 * ([] : List Byte).length < 1 := by decide

/-- B1: codewords "1", "01", "001". -/
theorem codewordList_B1 : CodewordList [[true], [false, true], [false, false, true]]
    [0x01, 0x80, 0x02, 0x40, 0x03, 0x20] :=
  .cons (code := [0x80]) (pad := 7) (by decide) ⟨by decide, by decide⟩
    (.cons (code := [0x40]) (pad := 6) (by decide) ⟨by decide, by decide⟩
      (.cons (code := [0x20]) (pad := 5) (by decide) ⟨by decide, by decide⟩ .nil))

/-- B6: LEN 2 and no CODE byte. -/
theorem witness_BsPackPacksACodewordList :
    LegalLen (ready 0x30 0 0 [0x01, 0x80, 0x02, 0x40, 0x03, 0x20]) ∧
    CodewordList [[true], [false, true], [false, false, true]]
      (ready 0x30 0 0 [0x01, 0x80, 0x02, 0x40, 0x03, 0x20]).input ∧
    PackOf [true, false, true, false, false, true] [0xA4] 2 ∧
    Fits (ready 0x30 0 0 [0x01, 0x80, 0x02, 0x40, 0x03, 0x20]) [0x02, 0xA4] ∧
    ¬ ∃ cw, CodewordList cw (ready 0x30 0 0 [0x02]).input := by
  refine ⟨by unfold LegalLen; decide, codewordList_B1, ⟨by decide, by decide⟩, by unfold Fits; decide, ?_⟩
  rintro ⟨cw, h⟩
  have := parseCodewords_eq_ok.mpr h
  rw [show parseCodewords (ready 0x30 0 0 [0x02]).input = .error .format by decide] at this
  cases this

/-- B12; PAD = 8; PAD above the data; no PAD byte. -/
theorem witness_BsUnpackListsTheBits :
    ((ready 0x31 0 0 [0x04, 0xEF]).input = 0x04 :: [0xEF] ∧ (0x04 : Byte).toNat ≤ 7 ∧
      ([1, 1, 1, 0] : List Byte).length = 8 * [0xEF].length - (0x04 : Byte).toNat ∧
      (∀ k (h : k < ([1, 1, 1, 0] : List Byte).length), ([1, 1, 1, 0] : List Byte)[k] =
        if (([0xEF] : List Byte).getD (k / 8) 0).getLsbD (7 - k % 8) then 1 else 0)) ∧
    (ready 0x31 0 0 []).input = [] ∧ (ready 0x31 0 0 [0x08, 0x00]).input = 0x08 :: [0x00] ∧
    7 < (0x08 : Byte).toNat ∧ (ready 0x31 0 0 [0x01]).input = 0x01 :: [] ∧
    8 * ([] : List Byte).length < (0x01 : Byte).toNat := by decide

theorem witness_BsUnpackListsTheBits_fits :
    LegalLen (ready 0x31 0 0 [0x04, 0xEF]) ∧ (0x04 : Byte).toNat ≤ 8 * [0xEF].length ∧
    Fits (ready 0x31 0 0 [0x04, 0xEF]) [1, 1, 1, 0] ∧ LegalLen (ready 0x31 0 0 []) ∧
    LegalLen (ready 0x31 0 0 [0x08, 0x00]) ∧ LegalLen (ready 0x31 0 0 [0x01]) := by
  unfold LegalLen Fits
  decide

/-! #### RLE -/

theorem runsOf_W1 : RunsOf (some 255) ([0x41, 0x41, 0x41, 0x42] : List Byte) [(3, 0x41), (1, 0x42)] :=
  ⟨by decide, by decide, by decide⟩

theorem witness_RleRawEncWritesItsRuns :
    LegalLen (ready 0x10 0 0 [0x41, 0x41, 0x41, 0x42]) ∧
    RunsOf (some 255) (ready 0x10 0 0 [0x41, 0x41, 0x41, 0x42]).input [(3, 0x41), (1, 0x42)] ∧
    Fits (ready 0x10 0 0 [0x41, 0x41, 0x41, 0x42]) (rawRecords [(3, 0x41), (1, 0x42)]) :=
  ⟨by unfold LegalLen; decide, runsOf_W1, by unfold Fits; decide⟩

/-- A record of count 1 and one of count 16; E12: odd length; E11: count 0. -/
theorem witness_RleRawDecExpandsItsRecords :
    ((∀ r ∈ ([(1, 0x41), (16, 0x42)] : List (Nat × Byte)), 1 ≤ r.1 ∧ r.1 ≤ 255) ∧
      (ready 0x11 0 0 [0x01, 0x41, 0x10, 0x42]).input = rawRecords [(1, 0x41), (16, 0x42)]) ∧
    (ready 0x11 0 0 [0x03]).input.length % 2 = 1 ∧
    (2 * 0 + 1 < (ready 0x11 0 0 [0x00, 0x41]).input.length ∧
      (ready 0x11 0 0 [0x00, 0x41]).input.getD (2 * 0) 0 = 0) := by decide

theorem witness_RleRawDecExpandsItsRecords_fits :
    LegalLen (ready 0x11 0 0 [0x01, 0x41, 0x10, 0x42]) ∧
    Fits (ready 0x11 0 0 [0x01, 0x41, 0x10, 0x42]) (expandRuns [(1, 0x41), (16, 0x42)]) ∧
    LegalLen (ready 0x11 0 0 [0x03]) ∧ LegalLen (ready 0x11 0 0 [0x00, 0x41]) := by
  unfold LegalLen Fits
  decide

theorem witness_RleTxtEncFramesItsRuns :
    LegalLen (ready 0x12 0 0 (txt [0x61, 0x61])) ∧ Holds .text (ready 0x12 0 0 (txt [0x61, 0x61])).input [0x61, 0x61] ∧
    RunsOf none [0x61, 0x61] [(2, 0x61)] ∧ Fits (ready 0x12 0 0 (txt [0x61, 0x61])) (txt (framed [(2, 0x61)])) :=
  ⟨by unfold LegalLen; decide, ⟨by decide, by unfold IsText; decide⟩, ⟨by decide, by decide, by decide⟩,
    by
      have hf : framed [(2, 0x61)] = [0x61, 0x32, 0x3B] := by simp [decimal_of_lt]
      rw [hf]
      unfold Fits
      decide⟩

/-- E25: "a0;" is no framing. -/
theorem witness_RleTxtDecParsesExactlyTheFraming :
    ((∀ r ∈ [(2, 0x61)], 1 ≤ r.1 ∧ r.2 ≤ 0x10FFFF) ∧
      (ready 0x13 0 0 (txt [0x61, 0x32, 0x3B])).input = txt (framed [(2, 0x61)])) ∧
    ¬ ∃ rs, (∀ r ∈ rs, 1 ≤ r.1 ∧ r.2 ≤ 0x10FFFF) ∧
      (ready 0x13 0 0 (txt [0x61, 0x30, 0x3B])).input = txt (framed rs) := by
  have hf : framed [(2, 0x61)] = [0x61, 0x32, 0x3B] := by simp [decimal_of_lt]
  refine ⟨⟨by decide, by rw [hf]; decide⟩, ?_⟩
  rintro ⟨rs, h, hi⟩
  have h0 : (ready 0x13 0 0 (txt [0x61, 0x30, 0x3B])).input = txt [0x61, 0x30, 0x3B] := by decide
  rw [h0] at hi
  have ht := txt_injective (by decide)
    (fun x hx => Nat.lt_of_le_of_lt (isText_framed.mpr (fun r hr => (h r hr).2) x hx) (by decide)) hi
  have := rleTxtFrom_framed fun r hr => (h r hr).1
  rw [← ht, show rleTxtFrom .symbol [0x61, 0x30, 0x3B] = none by decide] at this
  cases this

theorem witness_RleTxtDecParsesExactlyTheFraming_fits :
    LegalLen (ready 0x13 0 0 (txt [0x61, 0x32, 0x3B])) ∧
    Fits (ready 0x13 0 0 (txt [0x61, 0x32, 0x3B])) (txt (expandRuns [(2, 0x61)])) ∧
    LegalLen (ready 0x13 0 0 (txt [0x61, 0x30, 0x3B])) := by
  unfold LegalLen Fits
  decide

/-! #### Huffman -/

/-- "aab". -/
def aab : List Nat := [0x61, 0x61, 0x62]

/-- The tree of "aab": b is the left child, a the right (R185). -/
def aabTree : HufTree := .node 3 2 (.leaf 1 1 0x62) (.leaf 2 0 0x61)

theorem freq_aab : freq aab = [(0x61, 2), (0x62, 1)] := by decide

theorem treeOf_aab : TreeOf aab aabTree := treeOf_iff.mpr ⟨by decide, by decide⟩

theorem witness_HufWeightsListSortedCounts :
    LegalLen (ready 0x28 0 0 [0x61, 0x61, 0x62]) ∧ Holds .raw (ready 0x28 0 0 [0x61, 0x61, 0x62]).input aab ∧
    WeightsOf aab [(0x62, 1), (0x61, 2)] ∧
    Fits (ready 0x28 0 0 [0x61, 0x61, 0x62]) (weightsBytes .raw [(0x62, 1), (0x61, 2)]) :=
  ⟨by unfold LegalLen; decide, by unfold Holds; decide, weightsOf_weights (freq_freqOf aab), by unfold Fits; decide⟩

theorem witness_HuffmanTreeIsUniqueAndPrefixFree : ∃ x ∈ aab, ∃ y ∈ aab, x ≠ y := by decide

theorem witness_CodewordsStayWithin28Bits :
    (aab.length ≤ 0x100000 ∧ TreeOf aab aabTree ∧ CodeIn aabTree 0x61 [true]) ∧
    ({ base with inCap := 0x100000 } : State).inCap.toNat ≤ 0x100000 :=
  ⟨⟨by decide, treeOf_aab, .right (.leaf ..)⟩, by decide⟩

/-- What the encoder of "aab" computes: a = "1", b = "0", data 110 and 5 pad bits. -/
theorem encodesTo_aab : EncodesTo .raw aab
    [0x00, 0x05, 0x00, 0x00, 0x00, 0x02, 0x61, 0x01, 0x80, 0x62, 0x01, 0x00] [0xC0] := by
  refine ⟨[(0x61, [true]), (0x62, [false])], 5, [true, true, false],
    tableOf_iff.mpr ⟨some aabTree, .inr ⟨_, treeOf_aab, rfl⟩, by decide⟩,
    ⟨[(0x61, [true]), (0x61, [true]), (0x62, [false])], by decide, by decide, by decide⟩,
    ⟨by decide, by decide⟩, [0x61, 0x01, 0x80, 0x62, 0x01, 0x00], ?_, by decide, by decide, by decide⟩
  exact .cons (code := [0x80]) (pad := 7) (show 0x61 ≤ 255 by decide) (by decide) (by decide)
    ⟨by decide, by decide⟩
    (.cons (code := [0x00]) (pad := 7) (show 0x62 ≤ 255 by decide) (by decide) (by decide)
      ⟨by decide, by decide⟩ .nil)

/-- The same for the text variant: TAG 1 and symbols of 4 bytes. -/
theorem encodesTo_aab_text : EncodesTo .text aab
    [0x01, 0x05, 0x00, 0x00, 0x00, 0x02, 0x00, 0x00, 0x00, 0x61, 0x01, 0x80,
      0x00, 0x00, 0x00, 0x62, 0x01, 0x00] [0xC0] := by
  refine ⟨[(0x61, [true]), (0x62, [false])], 5, [true, true, false],
    tableOf_iff.mpr ⟨some aabTree, .inr ⟨_, treeOf_aab, rfl⟩, by decide⟩,
    ⟨[(0x61, [true]), (0x61, [true]), (0x62, [false])], by decide, by decide, by decide⟩,
    ⟨by decide, by decide⟩,
    [0x00, 0x00, 0x00, 0x61, 0x01, 0x80, 0x00, 0x00, 0x00, 0x62, 0x01, 0x00], ?_, by decide, by decide,
    by decide⟩
  exact .cons (code := [0x80]) (pad := 7) (show 0x61 ≤ 0x10FFFF by decide) (by decide) (by decide)
    ⟨by decide, by decide⟩
    (.cons (code := [0x00]) (pad := 7) (show 0x62 ≤ 0x10FFFF by decide) (by decide) (by decide)
      ⟨by decide, by decide⟩ .nil)

/-- The text variant's first clause, on twelve bytes of input. -/
theorem witness_HuffmanEncoderWritesItsArtifact_text :
    LegalLen (ready 0x22 0 0 (txt aab)) ∧ Holds .text (ready 0x22 0 0 (txt aab)).input aab ∧
    EncodesTo .text aab
      [0x01, 0x05, 0x00, 0x00, 0x00, 0x02, 0x00, 0x00, 0x00, 0x61, 0x01, 0x80,
        0x00, 0x00, 0x00, 0x62, 0x01, 0x00] [0xC0] :=
  ⟨by unfold LegalLen; decide, ⟨by decide, by unfold IsText; decide⟩, encodesTo_aab_text⟩

theorem witness_HuffmanEncoderWritesItsArtifact :
    LegalLen (ready 0x20 0 0 [0x61, 0x61, 0x62]) ∧ Holds .raw (ready 0x20 0 0 [0x61, 0x61, 0x62]).input aab ∧
    EncodesTo .raw aab [0x00, 0x05, 0x00, 0x00, 0x00, 0x02, 0x61, 0x01, 0x80, 0x62, 0x01, 0x00] [0xC0] ∧
    Fits (ready 0x20 0 0 [0x61, 0x61, 0x62])
      (artifactOf [0x00, 0x05, 0x00, 0x00, 0x00, 0x02, 0x61, 0x01, 0x80, 0x62, 0x01, 0x00] [0xC0]) ∧
    (ready 0x20 0 0 [0x61, 0x61, 0x62]).inCap.toNat ≤ 0x100000 ∧ ∃ x ∈ aab, ∃ y ∈ aab, x ≠ y :=
  ⟨by unfold LegalLen; decide, by unfold Holds; decide, encodesTo_aab, by unfold Fits; decide, by decide, by decide⟩

theorem witness_HuffmanTableWritesTheHeader :
    LegalLen (ready 0x24 0 0 [0x61, 0x61, 0x62]) ∧ Holds .raw (ready 0x24 0 0 [0x61, 0x61, 0x62]).input aab ∧
    EncodesTo .raw aab [0x00, 0x05, 0x00, 0x00, 0x00, 0x02, 0x61, 0x01, 0x80, 0x62, 0x01, 0x00] [0xC0] ∧
    Fits (ready 0x24 0 0 [0x61, 0x61, 0x62])
      [0x00, 0x05, 0x00, 0x00, 0x00, 0x02, 0x61, 0x01, 0x80, 0x62, 0x01, 0x00] :=
  ⟨by unfold LegalLen; decide, by unfold Holds; decide, encodesTo_aab, by unfold Fits; decide⟩

/-- HC9; and a command that ends so. -/
theorem witness_DegenerateInputIsExactlyOneSymbol :
    (LegalLen (ready 0x20 0 0 [0x61, 0x61]) ∧ Holds .raw (ready 0x20 0 0 [0x61, 0x61]).input [0x61, 0x61] ∧
      ([0x61, 0x61] : List Nat) ≠ [] ∧ ∀ y ∈ [0x61, 0x61], y = 0x61) ∧
    EndsIn .hufRawEnc (ready 0x20 0 0 [0x61, 0x61]) .degenerateInput :=
  ⟨⟨by unfold LegalLen; decide, by unfold Holds; decide, by decide, by decide⟩,
    endsIn_of_fn (by unfold LegalLen; decide) (by decide)⟩

/-- HC28: a one-entry table decodes; HE3: a header shorter than 6 bytes is no artifact. -/
theorem witness_HuffmanDecoderAcceptsExactlyTheFormat :
    DecodesTo .raw (ready 0x21 0 0 [0, 0, 0, 9, 0, 5, 0, 0, 0, 1, 0x61, 1, 0, 0]).input [0x61, 0x61, 0x61] ∧
    Fits (ready 0x21 0 0 [0, 0, 0, 9, 0, 5, 0, 0, 0, 1, 0x61, 1, 0, 0]) (symsOut .raw [0x61, 0x61, 0x61]) ∧
    ¬ ∃ sym, DecodesTo .raw (ready 0x21 0 0 [0, 0, 0, 5, 0, 0, 0, 0, 0]).input sym := by
  refine ⟨⟨[(0x61, [false])], 5, [0, 5, 0, 0, 0, 1, 0x61, 1, 0], [0], [false, false, false],
    [false, false, false, false, false], ⟨[0x61, 1, 0], ?_, by decide, by decide, by decide⟩, by decide,
    by decide, by simp [PrefixFree], by decide, by decide,
    ⟨[(0x61, [false]), (0x61, [false]), (0x61, [false])], by decide, by decide, by decide⟩, by decide⟩,
    by unfold Fits; decide, ?_⟩
  · exact .cons (code := [0]) (pad := 7) (show 0x61 ≤ 255 by decide) (by decide) (by decide)
      ⟨by decide, by decide⟩ .nil
  · rintro ⟨sym, h⟩
    exact absurd (huffDecode_of_decodesTo h) (by
      rw [show huffDecode .raw (ready 0x21 0 0 [0, 0, 0, 5, 0, 0, 0, 0, 0]).input = .error .format by decide]
      simp)

theorem witness_HuffmanDecoderAcceptsExactlyTheFormat_legal :
    LegalLen (ready 0x21 0 0 [0, 0, 0, 9, 0, 5, 0, 0, 0, 1, 0x61, 1, 0, 0]) ∧
    LegalLen (ready 0x21 0 0 [0, 0, 0, 5, 0, 0, 0, 0, 0]) := by
  unfold LegalLen
  decide

/-! #### LZ77 -/

/-- L2 of 95_test_vectors: "aaaaa" with W = L = 4. -/
theorem lzParse_L2 : LzParse [0x61, 0x61, 0x61, 0x61, 0x61] 4 4 0 [⟨0, 0, some 0x61⟩, ⟨1, 3, some 0x61⟩] := by
  obtain ⟨ts, h⟩ := lzParse_exists [0x61, 0x61, 0x61, 0x61, 0x61] 4 4 0 (Nat.zero_le _)
  have h1 : lzTriples .text [0x61, 0x61, 0x61, 0x61, 0x61] 4 4 = .ok ts := by
    rw [lzTriples_eq (by decide) (by decide) h,
      if_pos (show ∀ t ∈ ts, tripleFits .text (t.offset, t.length) = true from fun _ _ => rfl)]
  have h2 : lzTriples .text [0x61, 0x61, 0x61, 0x61, 0x61] 4 4 =
      .ok [⟨0, 0, some 0x61⟩, ⟨1, 3, some 0x61⟩] := by decide
  rw [h1] at h2
  cases h2
  exact h

/-- L13: 65538 zero bytes, whose second triple has length 65536. -/
theorem lzParse_L13 : LzParse (List.replicate 65538 0) 0x20000 0x20000 0
    [⟨0, 0, some 0⟩, ⟨1, 65536, some 0⟩] := by
  have hz : ∀ k < 65538, (List.replicate 65538 0)[k]? = some 0 := fun k hk => by
    rw [List.getElem?_replicate, if_pos hk]
  refine .step (.inl ⟨rfl, rfl, ?_⟩) (hz 0 (by decide)) (.step (.inr ⟨by decide, by decide, ?_, ?_⟩)
    (hz 65537 (by decide)) ?_)
  · rintro j k ⟨-, h, -⟩
    omega
  · refine ⟨by decide, by decide, ?_, fun t ht => ?_⟩
    · rw [List.length_replicate]
      omega
    · rw [hz _ (by omega), hz _ (by omega)]
  · rintro j k ⟨-, h, hk, -⟩
    rw [List.length_replicate] at hk
    omega
  · have := LzParse.done (s := List.replicate 65538 0) (win := 0x20000) (look := 0x20000)
    rwa [List.length_replicate] at this

theorem not_fits16 : ¬ Fits16 [⟨0, 0, some 0⟩, ⟨1, 65536, some 0⟩] := by
  intro h
  have := (h ⟨1, 65536, some 0⟩ (by simp)).2
  simp at this

/-- The second clause, at IN_CAP = 0x20000. -/
theorem witness_LzRawEncWritesTheGreedyParse_range :
    LegalLen { ready 0x40 0x20000 0x20000 (List.replicate 65538 0) with inCap := 0x20000 } ∧
    LzParse ({ ready 0x40 0x20000 0x20000 (List.replicate 65538 0) with inCap := 0x20000 }.input.map
        BitVec.toNat) 0x20000 0x20000 0 [⟨0, 0, some 0⟩, ⟨1, 65536, some 0⟩] ∧
    ¬ Fits16 [⟨0, 0, some 0⟩, ⟨1, 65536, some 0⟩] := by
  refine ⟨?_, ?_, not_fits16⟩
  · unfold LegalLen
    rw [inLen_loaded, List.length_replicate]
    decide
  · rw [input_loaded 0x40 0x20000 0x20000 0x20000 _ (by rw [List.length_replicate]; decide), List.map_replicate]
    exact lzParse_L13

theorem witness_LzRawEncWritesTheGreedyParse :
    LegalLen (ready 0x40 4 4 [0x61, 0x61, 0x61, 0x61, 0x61]) ∧
    (ready 0x40 4 4 [0x61, 0x61, 0x61, 0x61, 0x61]).window ≠ 0 ∧
    (ready 0x40 4 4 [0x61, 0x61, 0x61, 0x61, 0x61]).lookahead ≠ 0 ∧
    LzParse ((ready 0x40 4 4 [0x61, 0x61, 0x61, 0x61, 0x61]).input.map BitVec.toNat)
      (ready 0x40 4 4 [0x61, 0x61, 0x61, 0x61, 0x61]).window
      (ready 0x40 4 4 [0x61, 0x61, 0x61, 0x61, 0x61]).lookahead 0 [⟨0, 0, some 0x61⟩, ⟨1, 3, some 0x61⟩] ∧
    Fits16 [⟨0, 0, some 0x61⟩, ⟨1, 3, some 0x61⟩] ∧
    Fits (ready 0x40 4 4 [0x61, 0x61, 0x61, 0x61, 0x61])
      (rawTriples [⟨0, 0, some 0x61⟩, ⟨1, 3, some 0x61⟩]) :=
  ⟨by unfold LegalLen; decide, by decide, by decide, lzParse_L2, by unfold Fits16; decide,
    by unfold Fits; decide⟩

/-- The clauses that end in ParameterError. -/
theorem witness_errorClauses :
    BadText (ready 0x12 0 0 [0, 0, 0]).input ∧ BadText (ready 0x22 0 0 [0x00, 0x11, 0x00, 0x00]).input ∧
    BadText (ready 0x26 0 0 [0, 0]).input ∧ BadText (ready 0x2A 0 0 [0]).input ∧
    BadText (ready 0x42 4 4 [0x00, 0x11, 0x00, 0x00]).input ∧
    (ready 0x40 0 5 [0x61]).window = 0 ∧ (ready 0x40 5 0 [0x61]).lookahead = 0 :=
  ⟨.inl (by decide), .inr ⟨0, by decide, by decide⟩, .inl (by decide), .inl (by decide),
    .inr ⟨0, by decide, by decide⟩, rfl, rfl⟩

/-- The clauses about the empty and the one-symbol input of the Huffman commands. -/
theorem witness_fewSymbols :
    (LegalLen (ready 0x22 0 0 []) ∧ Holds .text (ready 0x22 0 0 []).input []) ∧
    Holds .text (ready 0x26 0 0 [0, 0, 0, 0x61]).input [0x61] ∧ ([0x61] : List Nat) ≠ [] ∧
    ∀ y ∈ [0x61], y = 0x61 :=
  ⟨⟨by unfold LegalLen; decide, by decide, by unfold IsText; decide⟩,
    ⟨by decide, by unfold IsText; decide⟩, by decide, by decide⟩

theorem witness_LzTxtEncWritesTheGreedyParse :
    LegalLen (ready 0x42 4 4 (txt [0x61, 0x61, 0x61, 0x61, 0x61])) ∧
    (ready 0x42 4 4 (txt [0x61, 0x61, 0x61, 0x61, 0x61])).window = 4 ∧
    (ready 0x42 4 4 (txt [0x61, 0x61, 0x61, 0x61, 0x61])).lookahead = 4 ∧
    Holds .text (ready 0x42 4 4 (txt [0x61, 0x61, 0x61, 0x61, 0x61])).input [0x61, 0x61, 0x61, 0x61, 0x61] ∧
    LzParse [0x61, 0x61, 0x61, 0x61, 0x61] 4 4 0 [⟨0, 0, some 0x61⟩, ⟨1, 3, some 0x61⟩] ∧
    Fits (ready 0x42 4 4 (txt [0x61, 0x61, 0x61, 0x61, 0x61]))
      (txtTriples [⟨0, 0, some 0x61⟩, ⟨1, 3, some 0x61⟩]) :=
  ⟨by unfold LegalLen; decide, by decide, by decide, ⟨by decide, by unfold IsText; decide⟩, lzParse_L2,
    by unfold Fits; decide⟩

/-- The expansion of L2's triples: the copy overlaps its own output. -/
theorem lzExpands_L2 :
    LzExpands [] [⟨0, 0, some 0x61⟩, ⟨1, 3, some 0x61⟩] [0x61, 0x61, 0x61, 0x61, 0x61] :=
  lzApply_eq_ok.mp (by decide)

/-- LD2; LD7: no multiple of 5 bytes. -/
theorem witness_LzRawDecAppliesItsTriples :
    (RawTriples [⟨0, 0, some 0x61⟩, ⟨1, 3, some 0x61⟩] ∧
      (ready 0x41 0 0 [0, 0, 0, 0, 0x61, 0, 1, 0, 3, 0x61]).input =
        rawTriples [⟨0, 0, some 0x61⟩, ⟨1, 3, some 0x61⟩] ∧
      LzExpands [] [⟨0, 0, some 0x61⟩, ⟨1, 3, some 0x61⟩] [0x61, 0x61, 0x61, 0x61, 0x61]) ∧
    ¬ ∃ ts out, RawTriples ts ∧ (ready 0x41 0 0 [0, 0, 0, 0]).input = rawTriples ts ∧ LzExpands [] ts out := by
  refine ⟨⟨?_, by decide, lzExpands_L2⟩, ?_⟩
  · intro t ht
    simp only [List.mem_cons, List.not_mem_nil, or_false] at ht
    rcases ht with rfl | rfl <;> exact ⟨by decide, by decide, 0x61, by decide, rfl⟩
  · rintro ⟨ts, out, h1, h2, -⟩
    have := parseRaw_rawTriples h1
    rw [← h2, show parseRaw (ready 0x41 0 0 [0, 0, 0, 0]).input = .error .format by decide] at this
    cases this

/-- LD12 shortened; LD13: the literal 0x110000. -/
theorem witness_LzTxtDecAppliesItsTriples :
    (TxtTriples [⟨0, 0, some 0x61⟩, ⟨1, 1, none⟩] ∧
      (ready 0x43 0 0 (txtTriples [⟨0, 0, some 0x61⟩, ⟨1, 1, none⟩])).input =
        txtTriples [⟨0, 0, some 0x61⟩, ⟨1, 1, none⟩] ∧
      LzExpands [] [⟨0, 0, some 0x61⟩, ⟨1, 1, none⟩] [0x61, 0x61]) ∧
    ¬ ∃ ts out, TxtTriples ts ∧
      (ready 0x43 0 0 [0, 0, 0, 0, 0, 0, 0, 0, 0, 0x11, 0, 0]).input = txtTriples ts ∧
      LzExpands [] ts out := by
  refine ⟨⟨?_, by decide, lzApply_eq_ok.mp (by decide)⟩, ?_⟩
  · intro t ht
    simp only [List.mem_cons, List.not_mem_nil, or_false] at ht
    rcases ht with rfl | rfl <;> exact ⟨by decide, by decide, by simp⟩
  · rintro ⟨ts, out, h1, h2, -⟩
    have := parseTxt_txtTriples h1
    rw [← h2, show parseTxt (ready 0x43 0 0 [0, 0, 0, 0, 0, 0, 0, 0, 0, 0x11, 0, 0]).input =
      .error .format by decide] at this
    cases this

theorem witness_LzDecoders_fit :
    LegalLen (ready 0x41 0 0 [0, 0, 0, 0, 0x61, 0, 1, 0, 3, 0x61]) ∧
    Fits (ready 0x41 0 0 [0, 0, 0, 0, 0x61, 0, 1, 0, 3, 0x61])
      (List.map byteOf [0x61, 0x61, 0x61, 0x61, 0x61]) ∧
    LegalLen (ready 0x41 0 0 [0, 0, 0, 0]) ∧
    LegalLen (ready 0x43 0 0 (txtTriples [⟨0, 0, some 0x61⟩, ⟨1, 1, none⟩])) ∧
    Fits (ready 0x43 0 0 (txtTriples [⟨0, 0, some 0x61⟩, ⟨1, 1, none⟩])) (txt [0x61, 0x61]) ∧
    LegalLen (ready 0x43 0 0 [0, 0, 0, 0, 0, 0, 0, 0, 0, 0x11, 0, 0]) := by
  unfold LegalLen Fits
  decide

/-! #### Round trips: an encoder's run without error, and a state that holds its output -/

theorem witness_RleRoundTrips :
    RunsOf (some 255) ([0x41, 0x41] : List Byte) [(2, 0x41)] ∧ ∃ t, exec .rleRawEnc (ready 0x10 0 0 [0x41, 0x41]) = .next t ∧ t.err = false ∧
      LegalLen (ready 0x11 0 0 [0x02, 0x41]) ∧ (ready 0x11 0 0 [0x02, 0x41]).input = t.outBytes ∧
      Fits (ready 0x11 0 0 [0x02, 0x41]) (ready 0x10 0 0 [0x41, 0x41]).input :=
  ⟨⟨by decide, by decide, by decide⟩, _, rfl, by decide, by unfold LegalLen; decide, by decide, by unfold Fits; decide⟩

theorem witness_HuffmanRoundTrips :
    ∃ t, exec .hufRawEnc (ready 0x20 0 0 [0x61, 0x61, 0x62]) = .next t ∧ t.err = false ∧
      LegalLen (ready 0x21 0 0 [0, 0, 0, 12, 0, 5, 0, 0, 0, 2, 0x61, 1, 0x80, 0x62, 1, 0, 0xC0]) ∧
      (ready 0x21 0 0 [0, 0, 0, 12, 0, 5, 0, 0, 0, 2, 0x61, 1, 0x80, 0x62, 1, 0, 0xC0]).input = t.outBytes ∧
      Fits (ready 0x21 0 0 [0, 0, 0, 12, 0, 5, 0, 0, 0, 2, 0x61, 1, 0x80, 0x62, 1, 0, 0xC0])
        (ready 0x20 0 0 [0x61, 0x61, 0x62]).input :=
  ⟨_, rfl, by decide, by unfold LegalLen; decide, by decide, by unfold Fits; decide⟩

/-- The last triple of L2 has three symbols and a literal before its cursor's end. -/
theorem witness_LzTriplesObeyTheirLaws :
    (LzParse [0x61, 0x61, 0x61, 0x61, 0x61] 4 4 0 [⟨0, 0, some 0x61⟩, ⟨1, 3, some 0x61⟩] ∧
      [⟨0, 0, some 0x61⟩, ⟨1, 3, some 0x61⟩] =
        [⟨0, 0, some 0x61⟩] ++ (⟨1, 3, some 0x61⟩ : Triple) :: []) ∧
    ∃ t, exec .lzRawEnc (ready 0x40 1 1 [0x61]) = .next t ∧ t.err = false ∧
      LegalLen (ready 0x41 0 0 [0, 0, 0, 0, 0x61]) ∧ (ready 0x41 0 0 [0, 0, 0, 0, 0x61]).input = t.outBytes ∧
      Fits (ready 0x41 0 0 [0, 0, 0, 0, 0x61]) (ready 0x40 1 1 [0x61]).input :=
  ⟨⟨lzParse_L2, rfl⟩, _, rfl, by decide, by unfold LegalLen; decide, by decide, by unfold Fits; decide⟩

theorem witness_ErrorKindsBelongToTheirCommands :
    EndsIn .rleRawDec (ready 0x11 0 0 [0x03]) .format ∧
    EndsIn .lzRawEnc { ready 0x40 0x20000 0x20000 (List.replicate 65538 0) with inCap := 0x20000 } .range := by
  refine ⟨endsIn_of_fn (by unfold LegalLen; decide) (by decide), endsIn_of_fn ?_ ?_⟩
  · unfold LegalLen
    rw [inLen_loaded, List.length_replicate]
    decide
  · simp only [commandFn, fLzRawEnc]
    rw [input_loaded 0x40 0x20000 0x20000 0x20000 _ (by rw [List.length_replicate]; decide), rawSyms,
      List.map_replicate]
    change (lzTriples .raw (List.replicate 65538 0) 0x20000 0x20000).map _ = _
    rw [lzTriples_eq (by decide) (by decide) lzParse_L13, if_neg (mt fits16_iff.mp not_fits16)]
    rfl

end Sys2Proof.Tests
end

section
/-! PROOFS. The family 10_state: what the registers read as and do on a write (10_state R22 to R37), the
capacities (R23, R24) and the interrupt output (R43, R318). -/

namespace Sys2Proof.Machine

open Sys2Proof.Spec

/-! ### A 4-byte access at a register's offset (20_memory R61, R62) -/

theorem target_regOffset {off : Offset} {r : Reg} (s : State) (h : off.toNat = regOffset r) :
    target s off 4 = some (.reg r) :=
  target_of_reg (h ▸ regAt_regOffset r)

theorem busRead_reg {off : Offset} {r : Reg} (s : State) (h : off.toNat = regOffset r) :
    busRead off 4 s = readReg r s := by
  simp only [busRead, target_regOffset s h]

theorem busWrite_reg {off : Offset} {r : Reg} (v : Word) (s : State) (h : off.toNat = regOffset r) :
    busWrite off 4 v s = writeReg r v s := by
  simp only [busWrite, target_regOffset s h]

theorem busWrite_status (v : Word) (s : State) : busWrite 0x014 4 v s = writeStatus v s :=
  busWrite_reg (r := .status) v s rfl

theorem busWrite_ctrl (v : Word) (s : State) : busWrite 0x018 4 v s = writeCtrl v s :=
  busWrite_reg (r := .ctrl) v s rfl

theorem busWrite_cmd (w : Word) (s : State) : busWrite 0x010 4 w s = whenIdle s (accept w s) :=
  busWrite_reg (r := .cmd) w s rfl

/-! ### The lock of a write while BUSY = 1 (R36) -/

theorem whenIdle_of_busy {s : State} (h : s.busy = true) (t : State) : whenIdle s t = busError s :=
  if_pos h

theorem whenIdle_of_idle {s : State} (h : s.busy = false) (t : State) : whenIdle s t = t :=
  if_neg (by rw [h]; decide)

theorem busWrite_locked {s : State} {off : Offset} {width : Nat} (v : Word) (hb : s.busy = true)
    (h : LockedOffset s off width) : busWrite off width v s = busError s := by
  rcases h with ⟨rfl, hcmd | hinLen | hwin | hlook⟩ | ⟨hin, hwidth⟩
  · exact (busWrite_reg (r := .cmd) v s hcmd).trans (whenIdle_of_busy hb _)
  · exact (busWrite_reg (r := .inLen) v s hinLen).trans (whenIdle_of_busy hb _)
  · exact (busWrite_reg (r := .lzWindow) v s hwin).trans (whenIdle_of_busy hb _)
  · exact (busWrite_reg (r := .lzLookahead) v s hlook).trans (whenIdle_of_busy hb _)
  · simp only [busWrite, target_of_in hin hwidth, whenIdle_of_busy hb]

/-! ### Writes of CTRL and STATUS, and of the registers only the block writes (R27, R28, R37) -/

theorem writeCtrl_of_srst {v : Word} (s : State) (h : v.getLsbD 1 = true) :
    writeCtrl v s = resetBlock s := if_pos h

theorem writeCtrl_of_not_srst {v : Word} (s : State) (h : v.getLsbD 1 = false) :
    writeCtrl v s = { s with irqEn := v.getLsbD 0 } := if_neg (by rw [h]; decide)

/-- A STATUS write that acknowledges nothing changes nothing (R27). -/
theorem writeStatus_eq_self {v : Word} (s : State) (hdone : v.getLsbD 1 = false)
    (hbuserr : v.getLsbD 3 = false) : writeStatus v s = s := by
  rw [writeStatus, hdone, hbuserr]
  simp

/-- A CTRL write without SRST that repeats IRQ_EN changes nothing (R28). -/
theorem writeCtrl_eq_self {v : Word} (s : State) (hsrst : v.getLsbD 1 = false)
    (hirq : v.getLsbD 0 = s.irqEn) : writeCtrl v s = s := by
  rw [writeCtrl_of_not_srst s hsrst, hirq]

theorem busWrite_readOnly {off : Offset} (v : Word) (s : State) (h : ReadOnlyOffset off.toNat) :
    busWrite off 4 v s = busError s := by
  rcases h with hid | hinCap | houtCap | houtLen | hstat
  · exact busWrite_reg (r := .id) v s hid
  · exact busWrite_reg (r := .inCap) v s hinCap
  · exact busWrite_reg (r := .outCap) v s houtCap
  · exact busWrite_reg (r := .outLen) v s houtLen
  · exact busWrite_reg (r := .statOrig) v s hstat

/-- A bit that a mask holds is the same in two words that agree under the mask. -/
theorem getLsbD_of_and_eq {v m u : Word} {i : Nat} (h : v &&& m = u) (hm : m.getLsbD i = true) :
    v.getLsbD i = u.getLsbD i := by
  rw [← h, BitVec.getLsbD_and, hm, Bool.and_true]

/-! ### Reads of registers (R22 to R33, R37) -/

theorem readReg_outLen_of_idle {s : State} (h : s.busy = false) :
    readReg .outLen s = (s.outLen, s) := if_neg (by rw [h]; decide)

theorem readReg_buserr (r : Reg) (s : State) : (readReg r s).2.buserr = s.buserr := by
  cases r with
  | outLen => cases hb : s.busy <;> simp [readReg, readUnspecified, hb]
  | _ => rfl

/-! ### The fields of STATUS and CTRL (R26, R28) -/

/-- STATUS bit by bit: the four flags, a reserved field, ERRCODE, and zeros above it. -/
theorem statusWord_getLsbD (s : State) (i : Nat) :
    s.statusWord.getLsbD i =
      if i < 4 then [s.busy, s.done, s.err, s.buserr].getD i false
      else if i < 8 then false else s.errcode.getLsbD (i - 8) := by
  have hconcat : s.statusWord.getLsbD i = ((0 : BitVec 20) ++ (s.errcode ++ ((0 : BitVec 4) ++
      (BitVec.ofBool s.buserr ++ (BitVec.ofBool s.err ++ (BitVec.ofBool s.done ++
        BitVec.ofBool s.busy)))))).getLsbD i := rfl
  simp only [hconcat, BitVec.getLsbD_append]
  by_cases hflag : i < 4
  · rcases (by omega : i = 0 ∨ i = 1 ∨ i = 2 ∨ i = 3) with rfl | rfl | rfl | rfl <;> simp
  · by_cases hreserved : i < 8
    · simp [hflag, hreserved]
    · by_cases hcode : i < 12
      · simp [hflag, hreserved, hcode]
      · have hzero : s.errcode.getLsbD (i - 8) = false := BitVec.getLsbD_of_ge _ _ (by omega)
        simp [hflag, hreserved, hcode, hzero]

theorem statusWord_busy (s : State) : s.statusWord.getLsbD 0 = s.busy := statusWord_getLsbD s 0

theorem statusWord_done (s : State) : s.statusWord.getLsbD 1 = s.done := statusWord_getLsbD s 1

theorem statusWord_err (s : State) : s.statusWord.getLsbD 2 = s.err := statusWord_getLsbD s 2

theorem statusWord_buserr (s : State) : s.statusWord.getLsbD 3 = s.buserr := statusWord_getLsbD s 3

theorem statusWord_bits_4_7 (s : State) : s.statusWord.extractLsb' 4 4 = 0 := by
  refine BitVec.eq_of_getLsbD_eq fun i hi => ?_
  have hreserved : ¬ 4 + i < 4 ∧ 4 + i < 8 := by omega
  simp [BitVec.getLsbD_extractLsb', statusWord_getLsbD, hreserved]

theorem statusWord_errcode (s : State) : s.statusWord.extractLsb' 8 4 = s.errcode := by
  refine BitVec.eq_of_getLsbD_eq fun i hi => ?_
  have habove : ¬ 8 + i < 4 := by omega
  simp [-BitVec.getLsbD_eq_getElem, BitVec.getLsbD_extractLsb', statusWord_getLsbD, habove, hi]

theorem statusWord_bits_12_31 (s : State) : s.statusWord.extractLsb' 12 20 = 0 := by
  refine BitVec.eq_of_getLsbD_eq fun i hi => ?_
  have habove : ¬ 12 + i < 4 := by omega
  have hcode : s.errcode.getLsbD (12 + i - 8) = false := BitVec.getLsbD_of_ge _ _ (by omega)
  simp [BitVec.getLsbD_extractLsb', statusWord_getLsbD, habove, hcode]

/-- CTRL bit by bit: IRQ_EN, and zeros above it. -/
theorem ctrlWord_getLsbD (s : State) (i : Nat) :
    s.ctrlWord.getLsbD i = (decide (i = 0) && s.irqEn) := by
  have hconcat : s.ctrlWord.getLsbD i =
      ((0 : BitVec 31) ++ BitVec.ofBool s.irqEn).getLsbD i := rfl
  rw [hconcat, BitVec.getLsbD_append]
  cases i with
  | zero => simp
  | succ n => simp

theorem ctrlWord_irqEn (s : State) : s.ctrlWord.getLsbD 0 = s.irqEn := ctrlWord_getLsbD s 0

theorem ctrlWord_bits_1_31 (s : State) : s.ctrlWord.extractLsb' 1 31 = 0 := by
  refine BitVec.eq_of_getLsbD_eq fun i _ => ?_
  simp [BitVec.getLsbD_extractLsb', ctrlWord_getLsbD]

/-! ### The capacities (R23, R24) -/

/-- Both capacities of `t` are those of `s`. -/
def SameCaps (s t : State) : Prop := t.inCap = s.inCap ∧ t.outCap = s.outCap

theorem sameCaps_busRead (off : Offset) (width : Nat) (s : State) :
    SameCaps s (busRead off width s).2 := by
  rcases busRead_state off width s with h | ⟨-, h⟩ | h <;> rw [h] <;> exact ⟨rfl, rfl⟩

theorem sameCaps_busWrite (off : Offset) (width : Nat) (v : Word) (s : State) :
    SameCaps s (busWrite off width v s) := by
  rcases busWrite_cases off width v s with h | ⟨-, -, -, h⟩ | ⟨-, -, h⟩ | ⟨-, -, -, h⟩ | ⟨-, -, -, h⟩ |
    ⟨-, h⟩ | ⟨-, h⟩ | ⟨-, h⟩ | ⟨-, _, -, h⟩ <;> rw [h] <;> exact ⟨rfl, rfl⟩

theorem sameCaps_perform (op : HostOp) (s : State) : SameCaps s (perform op s) := by
  cases op with
  | read off width => exact sameCaps_busRead off width s
  | write off width v => exact sameCaps_busWrite off width v s
  | reset => exact ⟨rfl, rfl⟩
  | poll =>
    simp only [perform]
    split <;> exact sameCaps_busRead 0x014 4 s
  | copyOut => exact sameCaps_busRead 0x024 4 s

theorem sameCaps_step {s t : State} (h : step s = .next t) : SameCaps s t := by
  obtain ⟨u, hu, hcaps⟩ : ∃ u, step s = .next u ∧ SameCaps s u := by
    rcases step_cases s with ⟨-, -, hs⟩ | ⟨op, rest, -, hs⟩ | ⟨e, -, -, -, hs⟩ | ⟨e, r, -, hs, -⟩
    · exact ⟨s, hs, rfl, rfl⟩
    · exact ⟨_, hs, sameCaps_perform op (s.afterIssue rest)⟩
    · exact ⟨_, hs, waitStep_inCap e s, waitStep_outCap e s⟩
    · exact ⟨_, hs, (kept_complete r s).inCap, (kept_complete r s).outCap⟩
  rw [hu] at h
  cases h
  exact hcaps

/-! ### The interrupt output (R43, R318) -/

theorem irq_of_not_done {s : State} (h : s.done = false) : s.irq = false := by
  rw [State.irq, h, Bool.and_false]

theorem complete_done (r : Result) (s : State) : (complete r s).done = true := by
  cases r <;> rfl

theorem complete_irq (r : Result) (s : State) : (complete r s).irq = s.irqEn := by
  rw [State.irq, complete_done, (kept_complete r s).irqEn, Bool.and_true]

/-- The step of a completion completes with some result, an ILLEGAL word's too (R142, R151). -/
theorem step_eq_complete {s : State} {e : Engine} (h : Completing s e) :
    ∃ r, step s = .next (complete r s) := by
  cases hd : e.decoded with
  | ok i => exact ⟨_, (step_completing h hd).trans (exec_eq_complete i s)⟩
  | error x => exact ⟨.error .illegalCommand, step_illegal h hd⟩

/-! ### The obligations -/

/-- Settles O21: a locked write is `busWrite_locked`; STATUS and CTRL are outside the lock. -/
theorem busyWritesAreLost : Obligations.BusyWritesAreLost := fun s _ _ v hb =>
  ⟨busWrite_locked v hb, busWrite_status v s, busWrite_ctrl v s⟩

/-- Settles O22: by register: the mask fixes the bits of STATUS and CTRL that a write looks at. -/
theorem readOnlyAndReservedWritesAreIgnored : Obligations.ReadOnlyAndReservedWritesAreIgnored := by
  refine ⟨fun s off v h => busWrite_readOnly v s h, fun s v h => ?_, fun s v h => ?_,
    fun s off h => ?_⟩
  · rw [busWrite_status]
    exact writeStatus_eq_self s (getLsbD_of_and_eq h rfl) (getLsbD_of_and_eq h rfl)
  · have hsrst : v.getLsbD 1 = false := by simpa using getLsbD_of_and_eq (i := 1) h rfl
    have hirq : v.getLsbD 0 = s.irqEn := by simpa using getLsbD_of_and_eq (i := 0) h rfl
    rw [busWrite_ctrl, writeCtrl_eq_self s hsrst hirq]
  · obtain ⟨r, -, hoff⟩ := regAt_of_regOffset h
    rw [busRead_reg s hoff, readReg_buserr]

/-- Settles O29: the case split over what one step can be is `step_cases`. -/
theorem capacitiesNeverChange : Obligations.CapacitiesNeverChange := fun s =>
  ⟨congrArg Prod.fst (busRead_reg (r := .inCap) s rfl),
    congrArg Prod.fst (busRead_reg (r := .outCap) s rfl), fun _ => sameCaps_step⟩

/-- Settles O34: each event's effect on DONE and IRQ_EN decides the output. -/
theorem interruptFollowsEnableAndDone : Obligations.InterruptFollowsEnableAndDone := by
  refine ⟨fun s => rfl, fun s e t hc hstep => ?completion, fun s v hv => ?enable, fun s v hv => ?ack,
    fun s w hidle => ?accepted, fun s => irq_of_not_done (resetBlock_done s)⟩
  case completion =>
    obtain ⟨r, hr⟩ := step_eq_complete hc
    rw [hr] at hstep
    cases hstep
    exact complete_irq r s
  case enable => rw [busWrite_ctrl, writeCtrl_of_not_srst s hv, State.irq]
  case ack =>
    rw [busWrite_status]
    exact irq_of_not_done (by rw [writeStatus_done, hv, Bool.not_true, Bool.and_false])
  case accepted =>
    rw [busWrite_cmd, whenIdle_of_idle hidle]
    exact irq_of_not_done (acceptWith_done _ _ w s)

/-- Settles O18: every register by `busRead_reg`, every field by the bits of STATUS and CTRL. -/
theorem registersReadTheirValues : Obligations.RegistersReadTheirValues := by
  intro s
  have reads (off : Offset) (r : Reg) (h : off.toNat = regOffset r) :
      (busRead off 4 s).1 = (readReg r s).1 := congrArg Prod.fst (busRead_reg s h)
  refine ⟨reads _ .id rfl, reads _ .inCap rfl, reads _ .outCap rfl, reads _ .cmd rfl,
    reads _ .status rfl, reads _ .ctrl rfl, reads _ .inLen rfl, fun hidle => ?_,
    reads _ .lzWindow rfl, reads _ .lzLookahead rfl, reads _ .statOrig rfl,
    statusWord_busy s, statusWord_done s, statusWord_err s, statusWord_buserr s,
    statusWord_bits_4_7 s, statusWord_errcode s, statusWord_bits_12_31 s,
    ctrlWord_irqEn s, ctrlWord_bits_1_31 s⟩
  rw [reads _ .outLen rfl, readReg_outLen_of_idle hidle]

/-- Settles O19: STATUS and CTRL are written by `writeStatus` and `writeCtrl`, busy or not. -/
theorem statusAndControlWritesDoOnlyWhatTheySay :
    Obligations.StatusAndControlWritesDoOnlyWhatTheySay := by
  intro s v
  rw [busWrite_ctrl]
  refine ⟨busWrite_status v s, writeCtrl_of_not_srst s, fun hsrst => ?_⟩
  rw [writeCtrl_of_srst s hsrst]
  exact ⟨rfl, resetBlock_irqEn s⟩

end Sys2Proof.Machine
end

section
/-! PROOFS. The family 20_memory: bus errors (R63), and what accesses to the buffer windows read and write
(R64, R65, R67). -/

namespace Sys2Proof.Machine

open Sys2Proof.Spec

/-! ### Bus errors (R63) -/

/-- A legal access to the register region is 4 bytes wide (R62). -/
theorem width_eq_four_of_legalAccess {s : State} {off : Offset} {width : Nat}
    (h : LegalAccess s off width) (ho : off.toNat < 0x1000) : width = 4 := by
  rcases h with ⟨-, hwidth⟩ | ⟨⟨hin, -⟩ | ⟨hout, -⟩, -⟩
  · exact hwidth
  · omega
  · omega

/-- A legal access above the register region has a width that buffers admit (R63 c, d). -/
theorem bufferWidth_of_legalAccess {s : State} {off : Offset} {width : Nat}
    (h : LegalAccess s off width) (ho : 0x1000 ≤ off.toNat) : BufferWidth off.toNat width := by
  rcases h with ⟨hreg, -⟩ | ⟨-, hwidth⟩
  · exact absurd (regOffset_lt hreg) (Nat.not_lt.mpr ho)
  · exact hwidth

theorem readOnlyOffset_lt {o : Nat} (h : ReadOnlyOffset o) : o < 0x1000 := by
  unfold ReadOnlyOffset at h
  omega

theorem busRead_illegal {s : State} {off : Offset} {width : Nat} (h : ¬ LegalAccess s off width) :
    busRead off width s = (0, busError s) := by
  simp only [busRead, target_none h]

theorem busWrite_illegal {s : State} {off : Offset} {width : Nat} (v : Word)
    (h : ¬ LegalAccess s off width) : busWrite off width v s = busError s := by
  simp only [busWrite, target_none h]

/-- OUT_BUF is never written by the host, whatever the width (R35, R63 c to e). -/
theorem busWrite_outWindow {s : State} {off : Offset} (width : Nat) (v : Word)
    (hc : Config.capLegal s.inCap = true) (h : OutWindow s off.toNat) :
    busWrite off width v s = busError s := by
  by_cases hlegal : LegalAccess s off width
  · have hwidth := bufferWidth_of_legalAccess hlegal (le_trans (by decide) h.1)
    simp only [busWrite, target_of_out hc h hwidth]
  · exact busWrite_illegal v hlegal

/-- A write to a register that only the block writes is a bus error at every width (R37, R63 b, f). -/
theorem busWrite_readOnly_anyWidth {off : Offset} (width : Nat) (v : Word) (s : State)
    (h : ReadOnlyOffset off.toNat) : busWrite off width v s = busError s := by
  by_cases hlegal : LegalAccess s off width
  · obtain rfl := width_eq_four_of_legalAccess hlegal (readOnlyOffset_lt h)
    exact busWrite_readOnly v s h
  · exact busWrite_illegal v hlegal

/-! ### Accesses to the buffers by index (R64, R65) -/

@[simp] theorem access_byte (b : Buffer) (i : Nat) : b.access i 1 = (b.byte i).setWidth 32 := rfl

@[simp] theorem access_word (b : Buffer) (i : Nat) : b.access i 4 = b.word i := rfl

theorem bufferWidth_byte (i : Nat) : BufferWidth i 1 := .inl rfl

theorem bufferWidth_word (k : Nat) : BufferWidth (4 * k) 4 := .inr ⟨rfl, Nat.mul_mod_right 4 k⟩

theorem busRead_inIndex {s : State} {i width : Nat} (hc : Config.capLegal s.inCap = true)
    (hi : i < s.inCap.toNat) (hw : BufferWidth i width) :
    busRead (BitVec.ofNat 22 (0x100000 + i)) width s = (s.inBuf.access i width, s) := by
  simp only [busRead, target_inIndex hc hi hw]

theorem busRead_outIndex {s : State} {i width : Nat} (hci : Config.capLegal s.inCap = true)
    (hco : Config.capLegal s.outCap = true) (hi : i < s.outCap.toNat) (hw : BufferWidth i width)
    (hidle : s.busy = false) :
    busRead (BitVec.ofNat 22 (0x200000 + i)) width s = (s.outBuf.access i width, s) := by
  simp only [busRead, target_outIndex hci hco hi hw, hidle, Bool.false_eq_true, if_false]

theorem busWrite_inIndex {s : State} {i width : Nat} (v : Word) (hc : Config.capLegal s.inCap = true)
    (hi : i < s.inCap.toNat) (hw : BufferWidth i width) (hidle : s.busy = false) :
    busWrite (BitVec.ofNat 22 (0x100000 + i)) width v s = writeInBuf i width v s := by
  simp only [busWrite, target_inIndex hc hi hw, whenIdle_of_idle hidle]

/-- The word at `4k` ends below a legal capacity that lies above `4k` (R8). -/
theorem lane_lt_cap {c : Word} {k j : Nat} (hc : Config.capLegal c = true) (hk : 4 * k < c.toNat)
    (hj : j < 4) : 4 * k + j < c.toNat := by
  have := capLegal_bound hc
  omega

/-! ### The bytes of a stored word (R65) -/

theorem byte_setWord_lane (b : Buffer) (i : Nat) (v : Word) {j : Nat} (hj : j < 4) :
    (b.setWord i v).byte (i + j) = v.extractLsb' (24 - 8 * j) 8 := by
  rw [byte_setWord]
  rcases (by omega : j = 0 ∨ j = 1 ∨ j = 2 ∨ j = 3) with rfl | rfl | rfl | rfl <;> simp

theorem byte_setWord_outside (b : Buffer) {i a : Nat} (v : Word) (h : a < i ∨ i + 4 ≤ a) :
    (b.setWord i v).byte a = b.byte a := by
  have hlane : a ≠ i ∧ a ≠ i + 1 ∧ a ≠ i + 2 ∧ a ≠ i + 3 := by omega
  simp [byte_setWord, hlane]

/-! ### The obligations -/

/-- Settles O16: an access that reaches nothing, OUT_BUF, a read-only register, and a locked target each
end in `busError`. -/
theorem busErrorsOnlySetBuserr : Obligations.BusErrorsOnlySetBuserr := by
  intro s off width v hc
  refine ⟨busRead_illegal, ?_⟩
  rintro (hillegal | hout | hreadOnly | ⟨hbusy, hlocked⟩)
  · exact busWrite_illegal v hillegal
  · exact busWrite_outWindow width v hc hout
  · exact busWrite_readOnly_anyWidth width v s hreadOnly
  · exact busWrite_locked v hbusy hlocked

/-- Settles O23: the written buffer is `setByte`, whose other bytes are `byte_setByte_of_ne`. -/
theorem byteAccessReadsAndWritesOneByte : Obligations.ByteAccessReadsAndWritesOneByte := by
  intro s i v hci hco
  have hw := bufferWidth_byte i
  refine ⟨fun hi => ⟨?readIn, fun hidle => ?writeIn⟩, fun hi hidle => ?readOut⟩
  case readIn => rw [busRead_inIndex hci hi hw, access_byte]
  case writeIn =>
    exact ⟨s.inBuf.setByte i (v.extractLsb' 0 8), busWrite_inIndex v hci hi hw hidle,
      byte_setByte_self _ _ _, fun j hj => byte_setByte_of_ne _ hj _⟩
  case readOut => rw [busRead_outIndex hci hco hi hw hidle, access_byte]

/-- Settles O24: a word read is taken apart by `extract_word`, a word write by `byte_setWord_lane`. -/
theorem wordAccessIsBigEndian : Obligations.WordAccessIsBigEndian := by
  intro s k v hci hco
  have hw := bufferWidth_word k
  refine ⟨fun hk => ⟨fun j hj => ?readIn, fun hidle => ?writeIn⟩, fun hk hidle j hj => ?readOut⟩
  case readIn => rw [busRead_inIndex hci hk hw, access_word, extract_word _ _ _ hj]
  case writeIn =>
    exact ⟨s.inBuf.setWord (4 * k) v, busWrite_inIndex v hci hk hw hidle,
      fun j hj => byte_setWord_lane _ _ v hj, fun a ha => byte_setWord_outside _ v ha⟩
  case readOut => rw [busRead_outIndex hci hco hk hw hidle, access_word, extract_word _ _ _ hj]

/-- Settles O25: the write leaves the capacity alone, so the read reaches the word whose byte `4k + j` was
stored. -/
theorem byteWriteShowsInWordRead : Obligations.ByteWriteShowsInWordRead := by
  intro s k j v hc hidle hk hj
  have hwrite : busWrite (BitVec.ofNat 22 (0x100000 + 4 * k + j)) 1 v s = writeInBuf (4 * k + j) 1 v s := by
    rw [Nat.add_assoc]
    exact busWrite_inIndex v hc (lane_lt_cap hc hk hj) (bufferWidth_byte _) hidle
  have hread : busRead (BitVec.ofNat 22 (0x100000 + 4 * k)) 4 (writeInBuf (4 * k + j) 1 v s) =
      ((s.inBuf.setByte (4 * k + j) (v.extractLsb' 0 8)).word (4 * k), writeInBuf (4 * k + j) 1 v s) :=
    busRead_inIndex (s := writeInBuf (4 * k + j) 1 v s) hc hk (bufferWidth_word k)
  rw [hwrite, hread, extract_word _ _ _ hj, byte_setByte_self]

end Sys2Proof.Machine
end

section
/-! PROOFS. The family 30_encoding: the decoder and the encoder are inverse (R92, R94), and the words
that are commands are those with legal fields (R91, R95). -/

namespace Sys2Proof

/-! ### A word and its fields (R25, R91) -/

/-- The fields of R91 cover the word. -/
theorem wordOf_fieldsOf (w : Word) : wordOf (fieldsOf w) = w := by
  ext i hi
  simp only [wordOf, fieldsOf]
  grind

/-- The fields of R91 do not overlap. -/
theorem fieldsOf_wordOf (f : CmdFields) : fieldsOf (wordOf f) = f := by
  obtain ⟨rsvd, family, subop, variant, dir⟩ := f
  simp only [fieldsOf, wordOf, CmdFields.mk.injEq]
  refine ⟨?rsvd, ?family, ?subop, ?variant, ?dir⟩
  case rsvd => ext i hi; grind
  case family => ext i hi; grind
  case subop => ext i hi; grind
  case variant => grind
  case dir => grind

/-- A word is its RSVD and its OPCODE (R25). -/
theorem rsvd_append_opcodeOf (w : Word) : (w.extractLsb' 8 24 ++ opcodeOf w : BitVec 32) = w := by
  ext i hi
  simp only [opcodeOf]
  grind

theorem eq_encode_iff_fieldsOf {w : Word} {i : Instr} : w = encode i ↔ fieldsOf w = fieldsFor i := by
  constructor
  · rintro rfl
    exact fieldsOf_wordOf (fieldsFor i)
  · intro h
    rw [encode, ← h, wordOf_fieldsOf]

/-! ### The opcode map (R92) -/

theorem rsvd_encode (i : Instr) : (encode i).extractLsb' 8 24 = 0 := by
  cases i <;> rfl

/-- The opcode map has, for every command, the opcode that its fields make (R91, R92). -/
theorem lookup_opcodeMap_iff {o : BitVec 8} {i : Instr} :
    opcodeMap.lookup o = some i ↔ o = opcodeOf (encode i) := by
  constructor
  · intro h
    obtain ⟨before, after, hmap, -⟩ := List.lookup_eq_some_iff.mp h
    have hrow : (o, i) ∈ opcodeMap := by simp [hmap]
    have hrows : ∀ row ∈ opcodeMap, row.1 = opcodeOf (encode row.2) := by decide
    exact hrows (o, i) hrow
  · rintro rfl
    cases i <;> rfl

/-- A word is a command when RSVD is 0 and its OPCODE is in the map (R94). -/
theorem decode_eq_ok_iff {w : Word} {i : Instr} :
    decode w = .ok i ↔ w.extractLsb' 8 24 = 0 ∧ opcodeMap.lookup (opcodeOf w) = some i := by
  by_cases hr : w.extractLsb' 8 24 = 0#24
  · cases hl : opcodeMap.lookup (opcodeOf w) <;> simp [decode, decodeOp, rsvdOk, hr, hl]
  · simp [decode, decodeOp, rsvdOk, hr]

/-! ### Legal fields (R91, R95) -/

open Laws.FieldsLegal in
theorem wf_fieldsFor (i : Instr) : (fieldsFor i).wf = true :=
  Instr.casesOn (motive := Statement) i nop rleRawEnc rleRawDec rleTxtEnc rleTxtDec hufRawEnc hufRawDec
    hufTxtEnc hufTxtDec hufRawTable hufTxtTable hufRawWeights hufTxtWeights bsPack bsUnpack lzRawEnc
    lzRawDec lzTxtEnc lzTxtDec

/-- The checks of R91 and R95, each as what it says of a family's fields. -/
theorem wf_iff {f : CmdFields} : f.wf = true ↔
    f.rsvd = 0 ∧ f.family.toNat < 5 ∧
    (f.family = 0 → f.subop = 0 ∧ f.variant = false ∧ f.dir = false) ∧
    (f.family = 1 ∨ f.family = 3 ∨ f.family = 4 → f.subop = 0) ∧
    (f.family = 3 → f.variant = false) ∧
    (f.family = 2 → f.subop ≠ 3) ∧
    (f.family = 2 → f.subop = 1 ∨ f.subop = 2 → f.dir = false) := by
  simp only [CmdFields.wf, CmdFields.rsvdClear, CmdFields.familyKnown, CmdFields.controlClear,
    CmdFields.subopClear, CmdFields.bitStreamRaw, CmdFields.huffmanSubop, CmdFields.huffmanUnitEnc]
  grind

/-- Every legal combination of fields is a command's: the map of R92 leaves none out. -/
theorem exists_fieldsFor_of_wf {f : CmdFields} (h : f.wf = true) : ∃ i, fieldsFor i = f := by
  obtain ⟨hrsvd, hfamily, hcontrol, hsubop, hstream, hhuffman, hunit⟩ := wf_iff.mp h
  obtain ⟨rsvd, family, subop, variant, dir⟩ := f
  obtain rfl : rsvd = 0 := hrsvd
  have hfamilies : family = 0 ∨ family = 1 ∨ family = 2 ∨ family = 3 ∨ family = 4 := by
    simp only at hfamily
    bv_omega
  rcases hfamilies with rfl | rfl | rfl | rfl | rfl
  · -- FAMILY 0x0: control
    obtain ⟨rfl, rfl, rfl⟩ : subop = 0 ∧ variant = false ∧ dir = false := hcontrol rfl
    exact ⟨.nop, rfl⟩
  · -- FAMILY 0x1: RLE
    obtain rfl : subop = 0 := hsubop (.inl rfl)
    match variant, dir with
    | false, false => exact ⟨.rleRawEnc, rfl⟩
    | false, true => exact ⟨.rleRawDec, rfl⟩
    | true, false => exact ⟨.rleTxtEnc, rfl⟩
    | true, true => exact ⟨.rleTxtDec, rfl⟩
  · -- FAMILY 0x2: Huffman
    have hunits : subop = 0 ∨ subop = 1 ∨ subop = 2 := by
      have hne : subop ≠ 3 := hhuffman rfl
      bv_omega
    rcases hunits with rfl | rfl | rfl
    · match variant, dir with
      | false, false => exact ⟨.hufRawEnc, rfl⟩
      | false, true => exact ⟨.hufRawDec, rfl⟩
      | true, false => exact ⟨.hufTxtEnc, rfl⟩
      | true, true => exact ⟨.hufTxtDec, rfl⟩
    · obtain rfl : dir = false := hunit rfl (.inl rfl)
      match variant with
      | false => exact ⟨.hufRawTable, rfl⟩
      | true => exact ⟨.hufTxtTable, rfl⟩
    · obtain rfl : dir = false := hunit rfl (.inr rfl)
      match variant with
      | false => exact ⟨.hufRawWeights, rfl⟩
      | true => exact ⟨.hufTxtWeights, rfl⟩
  · -- FAMILY 0x3: BitStream
    obtain rfl : subop = 0 := hsubop (.inr (.inl rfl))
    obtain rfl : variant = false := hstream rfl
    match dir with
    | false => exact ⟨.bsPack, rfl⟩
    | true => exact ⟨.bsUnpack, rfl⟩
  · -- FAMILY 0x4: LZ77
    obtain rfl : subop = 0 := hsubop (.inr (.inr rfl))
    match variant, dir with
    | false, false => exact ⟨.lzRawEnc, rfl⟩
    | false, true => exact ⟨.lzRawDec, rfl⟩
    | true, false => exact ⟨.lzTxtEnc, rfl⟩
    | true, true => exact ⟨.lzTxtDec, rfl⟩

/-! ### The obligations -/

/-- Settles O1: with RSVD 0, a word is its OPCODE, and the map's row of a command is its encoding's OPCODE. -/
theorem decodeIsTheInverseOfEncode : Obligations.DecodeIsTheInverseOfEncode := by
  intro w i
  rw [decode_eq_ok_iff, lookup_opcodeMap_iff]
  constructor
  · rintro ⟨hrsvd, hopcode⟩
    rw [← rsvd_append_opcodeOf w, hrsvd, hopcode, ← rsvd_encode i, rsvd_append_opcodeOf]
  · rintro rfl
    exact ⟨rsvd_encode i, rfl⟩

/-- Settles O2: by O1 a command's word has its fields, and the legal fields are those of the commands. -/
theorem wordIsCommandExactlyWhenFieldsAreLegal :
    Obligations.WordIsCommandExactlyWhenFieldsAreLegal := by
  intro w
  simp only [decodeIsTheInverseOfEncode w, eq_encode_iff_fieldsOf]
  constructor
  · rintro ⟨i, hi⟩
    rw [hi]
    exact wf_fieldsFor i
  · intro hwf
    obtain ⟨i, hi⟩ := exists_fieldsFor_of_wf hwf
    exact ⟨i, hi.symm⟩

end Sys2Proof
end

section
/-! PROOFS. The family 40_commands: what a command's result depends on (R145, R146), and how an ILLEGAL
word (R151) and NOP (R150) complete. -/

namespace Sys2Proof.Machine

/-! ### What a result depends on (R143, R145, R146) -/

/-- Exec reads IN_LEN and the capacities for its checks, and the rest only through the command's
function (R143). -/
theorem execResult_congr {f : List Byte → Nat → Nat → Result} {s s' : State}
    (hlen : s'.command.inLen = s.command.inLen) (hin : s'.inCap = s.inCap) (hout : s'.outCap = s.outCap)
    (hf : f s'.input s'.window s'.lookahead = f s.input s.window s.lookahead) :
    execResult f s' = execResult f s := by
  simp only [execResult, hlen, hin, hout, hf]

/-- OUT_LEN, ERR and ERRCODE after a completion are those of the result, whatever the state (R142). -/
theorem complete_reports (r : Result) (s s' : State) :
    (complete r s').outLen = (complete r s).outLen ∧ (complete r s').err = (complete r s).err ∧
      (complete r s').errcode = (complete r s).errcode := by
  cases r with
  | ok out => exact ⟨rfl, rfl, rfl⟩
  | error k => exact ⟨rfl, rfl, rfl⟩

/-- OUT_BUF[0..OUT_LEN) after a command is its result's output, and empty after an error (R142). -/
theorem outBytes_complete_execResult (f : List Byte → Nat → Nat → Result) (s : State) :
    (complete (execResult f s) s).outBytes = (execResult f s).toOption.getD [] := by
  cases hr : execResult f s with
  | ok out =>
    obtain ⟨-, -, hfit⟩ := execResult_eq_ok hr
    exact outBytes_completeOk hfit
  | error k => exact outBytes_completeErr k s

/-- Two states in which Exec answers alike show the same result once the command completed. -/
theorem exec_reports_of_execResult_eq {i : Instr} {s s' t t' : State}
    (hr : execResult (commandFn i) s' = execResult (commandFn i) s)
    (ht : exec i s = .next t) (ht' : exec i s' = .next t') :
    t'.outLen = t.outLen ∧ t'.err = t.err ∧ t'.errcode = t.errcode ∧ t'.outBytes = t.outBytes := by
  rw [exec_eq_complete] at ht ht'
  cases ht
  cases ht'
  have hbytes : (complete (execResult (commandFn i) s') s').outBytes =
      (complete (execResult (commandFn i) s) s).outBytes := by
    rw [outBytes_complete_execResult, outBytes_complete_execResult, hr]
  obtain ⟨hlen, herr, hcode⟩ := complete_reports (execResult (commandFn i) s) s s'
  rw [hr] at hbytes ⊢
  exact ⟨hlen, herr, hcode, hbytes⟩

/-! ### The obligations -/

/-- Settles O11: equal operands give equal arguments of `F_op` and equal checks, so Exec answers alike. -/
theorem resultDependsOnlyOnOperands : Obligations.ResultDependsOnlyOnOperands := by
  intro i s s' t t' hlen hwin hlook hin hout hinput
  refine exec_reports_of_execResult_eq (execResult_congr hlen hin hout ?_)
  simp only [State.window, State.lookahead, hinput, hwin, hlook]

/-- Settles O5: the completing step of a rejected record is `step_illegal`, which looks at no operand. -/
theorem illegalWordCompletesWithIllegalCommand :
    Obligations.IllegalWordCompletesWithIllegalCommand := fun s _ _ hc hd =>
  ⟨completeErr .illegalCommand s, step_illegal hc hd, completedErr_completeErr .illegalCommand s⟩

/-- Settles O15: NOP's function answers the empty output, which fits every OUT_BUF. -/
theorem nopCompletesEmpty : Obligations.NopCompletesEmpty := by
  intro s
  obtain ⟨hoverlong, hcompletes, -⟩ := answers_of_fn (i := .nop) (s := s) (out := []) rfl
  exact ⟨fun hlegal => hcompletes hlegal (Nat.zero_le _), hoverlong⟩

end Sys2Proof.Machine
end

section
/-! PROOFS. The family 41_bitstream: packing and unpacking are inverse (R160 to R162), and what BS_PACK
(R164) and BS_UNPACK (R165) write. -/

namespace Sys2Proof.Machine

open Sys2Proof.Spec

/-! ### Unpacking (R161) -/

/-- A PAD that is legal and not above the number of bits is removed from the end (R161). -/
theorem unpack_of_fits {d : List Byte} {pad : Nat} (h7 : pad ≤ 7) (hbits : pad ≤ 8 * d.length) :
    unpack d pad = .ok ((bitsOfBytes d).take (8 * d.length - pad)) := by
  rw [unpack, if_neg (Nat.not_lt.mpr h7), if_neg (Nat.not_lt.mpr hbits)]

/-- The causes of FormatError in unpacking (R161). -/
theorem unpack_eq_error_iff {d : List Byte} {pad : Nat} :
    unpack d pad = .error .format ↔ 7 < pad ∨ 8 * d.length < pad := by
  constructor
  · intro herr
    by_contra hlegal
    obtain ⟨h7, hbits⟩ := not_or.mp hlegal
    rw [unpack_of_fits (Nat.not_lt.mp h7) (Nat.not_lt.mp hbits)] at herr
    cases herr
  · rintro (h7 | hbits)
    · rw [unpack, if_pos h7]
    · rw [unpack, if_pos hbits, ite_self]

/-- A legal PAD is above the number of bits only when there are none: a byte has more bits than PAD says. -/
theorem bits_lt_pad_iff {d : List Byte} {pad : Nat} (h7 : pad ≤ 7) :
    8 * d.length < pad ↔ d = [] ∧ 1 ≤ pad := by
  rw [← List.length_eq_zero_iff]
  omega

/-! ### The bit list (R110) -/

@[simp] theorem bitList_length (b : Bits) : (bitList b).length = b.length := List.length_map _

theorem bitList_getElem (b : Bits) (k : Nat) (h : k < (bitList b).length) :
    (bitList b)[k] = if b[k]'(bitList_length b ▸ h) then 1 else 0 := List.getElem_map _

/-- The bits of a byte sequence, bit by bit (R12). -/
theorem bitsOfBytes_getElem (l : List Byte) (k : Nat) (h : k < (bitsOfBytes l).length) :
    (bitsOfBytes l)[k] = (l.getD (k / 8) 0).getLsbD (7 - k % 8) :=
  Option.some_inj.mp <|
    (List.getElem?_eq_getElem h).symm.trans (bitsOfBytes_getElem? l k (bitsOfBytes_length l ▸ h))

/-- The bit list of the first `n` bits of a byte sequence, described byte by byte (R110, R165). -/
theorem eq_bitList_take {l : List Byte} {n : Nat} {out : List Byte} (hn : n ≤ 8 * l.length)
    (hlen : out.length = n)
    (hout : ∀ k (h : k < out.length),
      out[k] = if (l.getD (k / 8) 0).getLsbD (7 - k % 8) then 1 else 0) :
    out = bitList ((bitsOfBytes l).take n) := by
  refine List.ext_getElem ?_ fun k hk _ => ?_
  · rw [bitList_length, List.length_take, bitsOfBytes_length, hlen, Nat.min_eq_left hn]
  · rw [hout k hk, bitList_getElem, List.getElem_take, bitsOfBytes_getElem]

/-! ### The functions of the two commands (R164, R165) -/

theorem bsPack_of_codewordList {input : List Byte} {cw : List Bits} (win look : Nat)
    (h : CodewordList cw input) : commandFn .bsPack input win look = .ok (packedForm (pack cw)) := by
  rw [commandFn, fBsPack, parseCodewords_eq_ok.mpr h, Except.map]

theorem bsPack_of_not {input : List Byte} (win look : Nat) (h : ¬ ∃ cw, CodewordList cw input) :
    commandFn .bsPack input win look = .error .format := by
  rw [commandFn, fBsPack, parseCodewords_of_not h, Except.map]

theorem packedForm_pack {cw : List Bits} {data : List Byte} {pad : Nat} (h : PackOf cw.flatten data pad) :
    packedForm (pack cw) = byteOf pad :: data := by
  obtain ⟨rfl, rfl⟩ := packOf_unique h
  rfl

theorem bsUnpack_nil (win look : Nat) : commandFn .bsUnpack [] win look = .error .format := rfl

theorem bsUnpack_of_fits {pad : Byte} {data : List Byte} (win look : Nat) (h7 : pad.toNat ≤ 7)
    (hbits : pad.toNat ≤ 8 * data.length) : commandFn .bsUnpack (pad :: data) win look =
      .ok (bitList ((bitsOfBytes data).take (8 * data.length - pad.toNat))) := by
  rw [commandFn, fBsUnpack, unpack_of_fits h7 hbits, Except.map]

theorem bsUnpack_of_badPad {pad : Byte} {data : List Byte} (win look : Nat)
    (h : 7 < pad.toNat ∨ 8 * data.length < pad.toNat) :
    commandFn .bsUnpack (pad :: data) win look = .error .format := by
  rw [commandFn, fBsUnpack, unpack_eq_error_iff.mpr h, Except.map]

/-! ### The obligations -/

/-- Settles O39: the first part is `packOf_packBits`, `unpack_packBits` and `packBits_length` of the
concatenation; in the second, PAD being legal, only too few bits are left as a cause of FormatError. -/
theorem unpackInvertsPack : Obligations.UnpackInvertsPack := by
  refine ⟨fun cw => ⟨packOf_packBits _, unpack_packBits _, packBits_length _⟩, fun bytes pad h7 => ?_⟩
  have hbits := bits_lt_pad_iff (d := bytes) h7
  refine ⟨hbits, ?_⟩
  rw [unpack_eq_error_iff, or_iff_right (Nat.not_lt.mpr h7), hbits]

/-- Settles O40: BS_PACK parses exactly the codeword lists, and a bit string has one packing. -/
theorem bsPackPacksACodewordList : Obligations.BsPackPacksACodewordList := by
  intro s
  refine ⟨fun cw data pad hcw hpack => ?answers, fun cw _ => ⟨_, _, packOf_packBits cw.flatten⟩,
    fun hnot => fails_of_fn (bsPack_of_not s.window s.lookahead hnot)⟩
  case answers =>
    rw [← packedForm_pack hpack]
    exact answers_of_fn (bsPack_of_codewordList s.window s.lookahead hcw)

/-- Settles O41: the output named bit by bit is the bit list of what `unpack` keeps, and `unpack` fails for
exactly the two bad values of PAD. -/
theorem bsUnpackListsTheBits : Obligations.BsUnpackListsTheBits := by
  intro s
  refine ⟨fun pad data out hin h7 hbits hlen hout => answers_of_fn ?bits,
    fun hin => fails_of_fn ?empty, fun pad data hin hbad => fails_of_fn ?badPad⟩
  case bits => rw [hin, bsUnpack_of_fits _ _ h7 hbits, eq_bitList_take (Nat.sub_le _ _) hlen hout]
  case empty => rw [hin, bsUnpack_nil]
  case badPad => rw [hin, bsUnpack_of_badPad _ _ hbad]

end Sys2Proof.Machine
end

section
/-! PROOFS. The family 42_huffman: the encoders write their artifact (R191 to R196) and the table commands
its header (R203, R204), the weights commands write their list (R205, R206), the decoders read exactly the
artifacts (R197 to R202), and decoding gives the encoder's input back (R207). -/

namespace Sys2Proof.Machine

open Sys2Proof.Spec

/-! ### The weights of a sequence's tree (R181, R186) -/

theorem freqOf_counts_pos {sym : List Nat} {t : FreqTable} (h : FreqOf sym t) {p : Nat × Nat} (hp : p ∈ t) :
    1 ≤ p.2 := by
  rw [h.counts p hp, Nat.one_le_iff_ne_zero, Ne, List.count_eq_zero, not_not]
  exact (h.occurs p.1).mp (List.mem_map_of_mem hp)

/-- The counts of a frequency table sum to the length of its sequence. -/
theorem freqOf_counts_sum {sym : List Nat} {t : FreqTable} (h : FreqOf sym t) :
    (t.map Prod.snd).sum = sym.length := by
  have hcounts : t.map Prod.snd = (t.map Prod.fst).map fun x => sym.count x := by
    rw [List.map_map]
    exact List.map_congr_left h.counts
  have hperm : (t.map Prod.fst).Perm sym.dedup :=
    (List.perm_ext_iff_of_nodup (freqOf_nodup h) sym.nodup_dedup).mpr fun x => by
      rw [h.occurs, List.mem_dedup]
  rw [hcounts, (hperm.map _).sum_eq, List.sum_map_count_dedup_eq_length]

theorem treeOf_weight {sym : List Nat} {tree : HufTree} (h : TreeOf sym tree) :
    tree.weight = sym.length := by
  obtain ⟨t, ht, -, hb⟩ := h
  rw [builds_weight hb, weights_leaves, freqOf_counts_sum ht]

/-! ### The length of a codeword (R194)

A node is merged only when no other node in the queue is less, so no child of a node outweighs the node's
sibling: along a path the weights grow at least as the Fibonacci numbers. -/

/-- The children of a tree node. -/
def HufTree.children : HufTree → List HufTree
  | .leaf _ _ _ => []
  | .node _ _ l r => [l, r]

/-- In every node, the weight is the sum of the children's, and no grandchild outweighs its parent's
sibling; every leaf has a weight of at least 1. -/
def HufTree.Balanced : HufTree → Prop
  | .leaf w _ _ => 1 ≤ w
  | .node w _ l r => w = l.weight + r.weight ∧ (∀ c ∈ l.children, c.weight ≤ r.weight) ∧
      (∀ c ∈ r.children, c.weight ≤ l.weight) ∧ l.Balanced ∧ r.Balanced

theorem HufTree.Balanced.one_le_weight {t : HufTree} (h : t.Balanced) : 1 ≤ t.weight := by
  induction t with
  | leaf w q x => exact h
  | node w q l r ihl _ =>
    obtain ⟨hw, -, -, hl, -⟩ := h
    exact (ihl hl).trans ((Nat.le_add_right _ _).trans hw.ge)

theorem fib_add_three_le {n a b : Nat} (ha : Nat.fib (n + 2) ≤ a) (hb : Nat.fib (n + 1) ≤ b) :
    Nat.fib (n + 3) ≤ a + b := by
  have hfib : Nat.fib (n + 3) = Nat.fib (n + 1) + Nat.fib (n + 2) := Nat.fib_add_two
  omega

/-- A codeword of `n` bits needs a weight of `fib (n + 2)`, and what no child outweighs, `fib (n + 1)`. -/
theorem fib_le_weight {t : HufTree} {x : Nat} {c : Bits} (hc : CodeIn t x c) (h : t.Balanced) :
    Nat.fib (c.length + 2) ≤ t.weight ∧
      ∀ m, 1 ≤ m → (∀ u ∈ t.children, u.weight ≤ m) → Nat.fib (c.length + 1) ≤ m := by
  induction hc with
  | leaf w q x => exact ⟨h, fun m hm _ => hm⟩
  | @left w q x l r c hc ih =>
    obtain ⟨hw, hlr, -, hl, hr⟩ := h
    obtain ⟨hweight, hbound⟩ := ih hl
    have hsibling := hbound r.weight hr.one_le_weight hlr
    exact ⟨(fib_add_three_le hweight hsibling).trans hw.ge,
      fun m _ hm => hweight.trans (hm l (by simp [HufTree.children]))⟩
  | @right w q x l r c hc ih =>
    obtain ⟨hw, -, hrl, hl, hr⟩ := h
    obtain ⟨hweight, hbound⟩ := ih hr
    have hsibling := hbound l.weight hl.one_le_weight hrl
    exact ⟨(fib_add_three_le hweight hsibling).trans ((Nat.add_comm _ _).trans hw.symm).le,
      fun m _ hm => hweight.trans (hm r (by simp [HufTree.children]))⟩

/-- What the builder's loop keeps of its queue: its trees are balanced, and no child of one outweighs
another. -/
structure BalancedQueue (q : List HufTree) : Prop where
  balanced : ∀ u ∈ q, u.Balanced
  children : ∀ u ∈ q, ∀ c ∈ u.children, ∀ v ∈ q, c.weight ≤ v.weight

theorem balancedQueue_perm {q q' : List HufTree} (h : BalancedQueue q) (hp : q.Perm q') :
    BalancedQueue q' where
  balanced u hu := h.balanced u (hp.mem_iff.mpr hu)
  children u hu c hc v hv := h.children u (hp.mem_iff.mpr hu) c hc v (hp.mem_iff.mpr hv)

theorem balancedQueue_leaves {sym : List Nat} {t : FreqTable} (h : FreqOf sym t) :
    BalancedQueue (leaves t) where
  balanced u hu := by
    obtain ⟨i, hi, rfl⟩ := mem_leaves hu
    exact freqOf_counts_pos h (List.getElem_mem hi)
  children u hu c hc := by
    obtain ⟨i, hi, rfl⟩ := mem_leaves hu
    cases hc

theorem weight_le_of_nodeLess {u v : HufTree} (h : nodeLess u v = true) : u.weight ≤ v.weight := by
  rw [nodeLess_iff] at h
  omega

/-- Merging the two least nodes keeps the queue balanced (R186). -/
theorem balancedQueue_merge {next : Nat} {a b : HufTree} {rest : List HufTree}
    (h : BalancedQueue (a :: b :: rest)) (ha : ∀ v ∈ b :: rest, nodeLess a v = true)
    (hb : ∀ v ∈ rest, nodeLess b v = true) :
    BalancedQueue (.node (a.weight + b.weight) next a b :: rest) where
  balanced u hu := by
    rcases List.mem_cons.mp hu with rfl | hu
    · exact ⟨rfl, fun c hc => h.children a (by simp) c hc b (by simp),
        fun c hc => h.children b (by simp) c hc a (by simp), h.balanced a (by simp), h.balanced b (by simp)⟩
    · exact h.balanced u (by simp [hu])
  children u hu c hc v hv := by
    rcases List.mem_cons.mp hu with rfl | hrest
    · have hab : c = a ∨ c = b := List.mem_pair.mp hc
      rcases List.mem_cons.mp hv with rfl | hv'
      · rcases hab with rfl | rfl
        · exact Nat.le_add_right _ _
        · exact Nat.le_add_left _ _
      · rcases hab with rfl | rfl
        · exact weight_le_of_nodeLess (ha v (by simp [hv']))
        · exact weight_le_of_nodeLess (hb v hv')
    · rcases List.mem_cons.mp hv with rfl | hv'
      · exact (h.children u (by simp [hrest]) c hc a (by simp)).trans (Nat.le_add_right _ _)
      · exact h.children u (by simp [hrest]) c hc v (by simp [hv'])

theorem builds_balanced {next : Nat} {q : List HufTree} {t : HufTree} (h : Builds next q t)
    (hq : BalancedQueue q) : t.Balanced := by
  induction h with
  | done next t => exact hq.balanced t (by simp)
  | merge hp ha hb _ ih => exact ih (balancedQueue_merge (balancedQueue_perm hq hp) ha hb)

/-- A codeword of `n` bits needs a sequence of `fib (n + 2)` symbols. -/
theorem fib_le_length {sym : List Nat} {tree : HufTree} (h : TreeOf sym tree) {x : Nat} {c : Bits}
    (hc : CodeIn tree x c) : Nat.fib (c.length + 2) ≤ sym.length := by
  rw [← treeOf_weight h]
  obtain ⟨t, ht, -, hb⟩ := h
  exact (fib_le_weight hc (builds_balanced hb (balancedQueue_leaves ht))).1

/-- A sequence of at most one megabyte of symbols has codewords of at most 28 bits (R194). -/
theorem codeIn_length_le_28 {sym : List Nat} {tree : HufTree} (hlen : sym.length ≤ 0x100000)
    (h : TreeOf sym tree) {x : Nat} {c : Bits} (hc : CodeIn tree x c) : c.length ≤ 28 := by
  by_contra hlong
  have hfib : Nat.fib 31 ≤ Nat.fib (c.length + 2) := Nat.fib_mono (by omega)
  have hbig : 0x100000 < Nat.fib 31 := by norm_num
  have := fib_le_length h hc
  omega

/-! ### The table of a sequence (R190, R192) -/

theorem symFits_of_holds {v : Variant} {input : List Byte} {sym : List Nat} (h : Holds v input sym) {x : Nat}
    (hx : x ∈ sym) : SymFits v x := by
  cases v with
  | raw =>
    cases h
    obtain ⟨b, -, rfl⟩ := List.mem_map.mp hx
    exact Nat.le_of_lt_succ (byte_lt b)
  | text => exact h.2 x hx

theorem length_le_of_holds {v : Variant} {input : List Byte} {sym : List Nat} (h : Holds v input sym) :
    sym.length ≤ input.length := by
  cases v with
  | raw => exact (congrArg List.length h).trans (List.length_map _) |>.le
  | text =>
    rw [h.1, txt_length]
    omega

theorem rootOf_exists {sym : List Nat} (h : sym = [] ∨ ∃ x ∈ sym, ∃ y ∈ sym, x ≠ y) :
    ∃ root, RootOf sym root := by
  rcases h with rfl | htwo
  · exact ⟨none, .inl ⟨rfl, rfl⟩⟩
  · have hlen := two_le_freq_iff.mpr htwo
    obtain ⟨tree, hbuild, -⟩ := buildTree_builds hlen
    exact ⟨some tree, .inr ⟨tree, treeOf_iff.mpr ⟨hlen, hbuild⟩, rfl⟩⟩

/-- The codeword that the block's table gives a symbol of the sequence is the path to its leaf (R189). -/
theorem codeIn_of_rootOf {sym : List Nat} {root : Option HufTree} (h : RootOf sym root) {x : Nat}
    (hx : x ∈ sym) : ∃ tree, TreeOf sym tree ∧ CodeIn tree x (codeOf (codeTable root) x) := by
  rcases h with ⟨rfl, -⟩ | ⟨tree, htree, rfl⟩
  · cases hx
  · obtain ⟨c, hc⟩ := exists_codeIn (((treeOf_syms htree).2 x).mpr hx)
    exact ⟨tree, htree, (codeOf_tree htree hc).symm ▸ hc⟩

/-- The table of a sequence has distinct symbols, and no codeword begins another (R190). -/
theorem tableOf_prefixFree {sym : List Nat} {table : CodeTable} (h : TableOf sym table) :
    PrefixFree table := by
  obtain ⟨⟨t, ht, hfst⟩, rfl | ⟨tree, htree, hcodes⟩⟩ := h
  · have hnil : table = [] := by
      rw [List.eq_nil_iff_forall_not_mem]
      intro e he
      have hmem := List.mem_map_of_mem (f := Prod.fst) he
      rw [hfst, ht.occurs] at hmem
      cases hmem
    rw [hnil]
    exact List.Pairwise.nil
  · have hn : (table.map Prod.fst).Nodup := hfst ▸ freqOf_nodup ht
    have hsyms := (treeOf_syms htree).1
    refine (List.pairwise_map.mp hn).imp_of_mem fun {u w} hu hw hne => ⟨hne, fun hp => ?_, fun hp => ?_⟩
    · exact hne (codeIn_prefix_free hsyms (hcodes u hu) (hcodes w hw) hp).1
    · exact hne (codeIn_prefix_free hsyms (hcodes w hw) (hcodes u hu) hp).1.symm

/-! ### The artifact of a sequence (R191 to R193) -/

/-- Distinct symbols that a header can hold are fewer than COUNT can say. -/
theorem orderedTable_length_lt {v : Variant} {code : CodeTable} {sym : List Nat}
    (h : ∀ x ∈ sym, SymFits v x) : (orderedTable code sym).length < 2 ^ 32 := by
  have hsub : (orderedTable code sym).map Prod.fst ⊆ List.range 0x110000 := by
    intro x hx
    obtain ⟨e, he, rfl⟩ := List.mem_map.mp hx
    obtain ⟨p, hp, rfl⟩ := List.mem_map.mp he
    have hfits := h p.1 (((freq_freqOf sym).occurs p.1).mp (List.mem_map_of_mem hp))
    rw [List.mem_range]
    cases v <;> simp only [SymFits] at hfits <;> omega
  have := ((orderedTable_nodup code sym).subperm hsub).length_le
  rw [List.length_map, List.length_range] at this
  omega

/-- A sequence with a table has a header and data when its symbols and codewords fit the header. -/
theorem encodesTo_exists {v : Variant} {sym : List Nat} {root : Option HufTree} (hroot : RootOf sym root)
    (hfits : ∀ x ∈ sym, SymFits v x) (hlen : ∀ x ∈ sym, (codeOf (codeTable root) x).length ≤ 255) :
    ∃ h data, EncodesTo v sym h data := by
  obtain ⟨es, hes⟩ := headerEntries_exists (v := v) (table := orderedTable (codeTable root) sym) fun e he => by
    obtain ⟨p, hp, rfl⟩ := List.mem_map.mp he
    have hx := ((freq_freqOf sym).occurs p.1).mp (List.mem_map_of_mem hp)
    obtain ⟨tree, htree, hc⟩ := codeIn_of_rootOf hroot hx
    exact ⟨hfits _ hx, List.length_pos_iff.mpr (treeOf_code_ne_nil htree hc), hlen _ hx⟩
  have hpack := packOf_packBits (sym.map (codeOf (codeTable root))).flatten
  exact ⟨_, _, _, _, _, tableOf_iff.mpr ⟨root, hroot, rfl⟩, spells_iff.mpr rfl, hpack, es, hes,
    orderedTable_length_lt hfits, hpack.1.trans (by omega), rfl⟩

/-- A block with at most one megabyte of IN_BUF holds sequences with codewords that fit LEN (R194). -/
theorem encodesTo_exists_of_holds {v : Variant} {s : State} {sym : List Nat} (hlegal : LegalLen s)
    (hcap : s.inCap.toNat ≤ 0x100000) (hholds : Holds v s.input sym)
    (hsym : sym = [] ∨ ∃ x ∈ sym, ∃ y ∈ sym, x ≠ y) : ∃ h data, EncodesTo v sym h data := by
  have hlen : sym.length ≤ 0x100000 := by
    have hinput : s.input.length = s.command.inLen.toNat := by simp [State.input, State.inBytes]
    exact (length_le_of_holds hholds).trans (hinput.le.trans (hlegal.trans hcap))
  obtain ⟨root, hroot⟩ := rootOf_exists hsym
  refine encodesTo_exists hroot (fun x => symFits_of_holds hholds) fun x hx => ?_
  obtain ⟨tree, htree, hc⟩ := codeIn_of_rootOf hroot hx
  exact (codeIn_length_le_28 hlen htree hc).trans (by omega)

/-- The artifact of a sequence is one that the decoder takes, and gives the sequence (R207). -/
theorem decodesTo_of_encodesTo {v : Variant} {sym : List Nat} {h data : List Byte}
    (he : EncodesTo v sym h data) (hlen : h.length < 2 ^ 32) : DecodesTo v (artifactOf h data) sym := by
  obtain ⟨table, pad, b, htable, hspells, ⟨hpad, hbits⟩, hheader⟩ := he
  exact ⟨table, pad, h, data, b, List.replicate pad false, hheader, hlen, rfl, tableOf_prefixFree htable,
    hpad, List.length_replicate, hspells, hbits⟩

/-- A header that the block writes has no codeword longer than LEN can say (R194). -/
theorem codeOf_length_le_of_entriesBytes {v : Variant} {code : CodeTable} {order : List Nat}
    {es : List Byte} (h : entriesBytes v code order = .ok es) :
    ∀ x ∈ order, (codeOf code x).length ≤ 255 := by
  induction order generalizing es with
  | nil => simp
  | cons x order ih =>
    rw [entriesBytes, entryBytes] at h
    split at h
    · cases h
    · rename_i hshort
      cases hrest : entriesBytes v code order with
      | error k => rw [hrest] at h; cases h
      | ok rest =>
        intro y hy
        rcases List.mem_cons.mp hy with rfl | hy
        · exact Nat.not_lt.mp hshort
        · exact ih hrest y hy

/-- The block computes a header and data only when they are those of the format (R193). -/
theorem encodesTo_of_huffParts {v : Variant} {sym : List Nat} {p : List Byte × List Byte}
    (hfits : ∀ x ∈ sym, SymFits v x) (h : huffParts v sym = .ok p) : EncodesTo v sym p.1 p.2 := by
  obtain ⟨root, hroot⟩ : ∃ root, RootOf sym root := by
    rcases sym_cases sym with hnil | ⟨hne, x, hone⟩ | htwo
    · exact rootOf_exists (.inl hnil)
    · rw [huffParts_degenerate hne hone] at h
      cases h
    · exact rootOf_exists (.inr htwo)
  have hshort : ∀ x ∈ sym, (codeOf (codeTable root) x).length ≤ 255 := by
    cases hes : entriesBytes v (codeTable root) ((freq sym).map Prod.fst) with
    | error k =>
      simp only [huffParts, buildTree_of_rootOf hroot, header, hes, Except.bind, Except.map] at h
      cases h
    | ok es =>
      exact fun x hx => codeOf_length_le_of_entriesBytes hes x (((freq_freqOf sym).occurs x).mpr hx)
  obtain ⟨hd, data, he⟩ := encodesTo_exists hroot hfits hshort
  rw [huffParts_eq he] at h
  cases h
  exact he

/-! ### The functions of the commands (R193, R195, R196, R200 to R206) -/

theorem commandFn_hufEnc (v : Variant) (input : List Byte) (win look : Nat) :
    commandFn (hufEnc v) input win look = huffEncode v input := by cases v <;> rfl

theorem commandFn_hufDec (v : Variant) (input : List Byte) (win look : Nat) :
    commandFn (hufDec v) input win look = huffDecode v input := by cases v <;> rfl

theorem commandFn_hufTable (v : Variant) (input : List Byte) (win look : Nat) :
    commandFn (hufTable v) input win look = huffTable v input := by cases v <;> rfl

theorem commandFn_hufWeights (v : Variant) (input : List Byte) (win look : Nat) :
    commandFn (hufWeights v) input win look = huffWeights v input := by cases v <;> rfl

theorem artifact_eq_artifactOf (h data : List Byte) : artifact (h, data) = artifactOf h data :=
  (List.append_assoc _ _ _).symm

theorem huffEncode_of_holds {v : Variant} {input : List Byte} {sym : List Nat} (h : Holds v input sym) :
    huffEncode v input = (huffParts v sym).map artifact := by
  rw [huffEncode, symsIn_eq_ok.mpr h, Except.bind]

theorem huffTable_of_holds {v : Variant} {input : List Byte} {sym : List Nat} (h : Holds v input sym) :
    huffTable v input = (huffParts v sym).map Prod.fst := by
  rw [huffTable, symsIn_eq_ok.mpr h, Except.bind]

theorem symsIn_of_bad {input : List Byte} (h : BadText input) : symsIn .text input = .error .parameter :=
  textIn_of_bad h

theorem huffEncode_of_bad {input : List Byte} (h : BadText input) :
    huffEncode .text input = .error .parameter := by
  rw [huffEncode, symsIn_of_bad h, Except.bind]

theorem huffTable_of_bad {input : List Byte} (h : BadText input) :
    huffTable .text input = .error .parameter := by
  rw [huffTable, symsIn_of_bad h, Except.bind]

theorem huffWeights_of_bad {input : List Byte} (h : BadText input) :
    huffWeights .text input = .error .parameter := by
  rw [huffWeights, symsIn_of_bad h, Except.map]

/-- The encoder succeeds only on the artifact of the symbols that its input holds (R193). -/
theorem huffEncode_eq_ok {v : Variant} {input out : List Byte} (h : huffEncode v input = .ok out) :
    ∃ sym hd data, Holds v input sym ∧ EncodesTo v sym hd data ∧ out = artifactOf hd data := by
  cases hsyms : symsIn v input with
  | error k =>
    rw [huffEncode, hsyms] at h
    cases h
  | ok sym =>
    have hholds := symsIn_eq_ok.mp hsyms
    rw [huffEncode_of_holds hholds] at h
    cases hparts : huffParts v sym with
    | error k =>
      rw [hparts] at h
      cases h
    | ok p =>
      rw [hparts] at h
      cases h
      exact ⟨sym, p.1, p.2, hholds, encodesTo_of_huffParts (fun _ => symFits_of_holds hholds) hparts,
        artifact_eq_artifactOf p.1 p.2⟩

/-- Decoding what the encoder wrote gives its input (R207). -/
theorem huffDecode_huffEncode {v : Variant} {input out : List Byte} (h : huffEncode v input = .ok out)
    (hlen : out.length < 2 ^ 32) : huffDecode v out = .ok input := by
  obtain ⟨sym, hd, data, hholds, he, rfl⟩ := huffEncode_eq_ok h
  have hhd : hd.length < 2 ^ 32 := by
    simp only [artifactOf, List.length_append] at hlen
    omega
  rw [huffDecode_of_decodesTo (decodesTo_of_encodesTo he hhd), symsOut_of_holds hholds]

/-! ### Commands that end in ParameterError, and round trips (R143) -/

theorem endsIn_of_not_legalLen {i : Instr} {s : State} (h : ¬ LegalLen s) : EndsIn i s .parameter :=
  endsIn_of_result (execResult_of_illegalLen (Nat.not_le.mp h))

/-- A round trip of the commands' functions is one of the commands: an output has fewer than 2^32 bytes. -/
theorem roundTrip_of_fn {enc dec : Instr}
    (h : ∀ input out win look win' look', commandFn enc input win look = .ok out → out.length < 2 ^ 32 →
      commandFn dec out win' look' = .ok input) : RoundTrip enc dec := by
  intro s t u hexec hnoerr hlegal hin hfits
  rw [exec_eq_complete] at hexec
  cases hexec
  cases hres : execResult (commandFn enc) s with
  | error k =>
    rw [hres] at hnoerr
    cases hnoerr
  | ok out =>
    obtain ⟨-, hfn, hout⟩ := execResult_eq_ok hres
    rw [hres, complete_ok, outBytes_completeOk hout] at hin
    refine completes_of_fn hlegal ?_ hfits
    rw [hin]
    exact h _ _ _ _ _ _ hfn (Nat.lt_of_le_of_lt hout s.outCap.isLt)

theorem huffman_roundTrip (v : Variant) : RoundTrip (hufEnc v) (hufDec v) := by
  refine roundTrip_of_fn fun input out win look win' look' henc hlen => ?_
  rw [commandFn_hufEnc] at henc
  rw [commandFn_hufDec, huffDecode_huffEncode henc hlen]

/-! ### The obligations -/

/-- Settles O59: what the encoder writes is an artifact of the format, and no codeword begins another. -/
theorem huffmanRoundTrips : Obligations.HuffmanRoundTrips :=
  ⟨huffman_roundTrip .raw, huffman_roundTrip .text⟩

/-- Settles O46: a sequence has one weights list, the sorted leaves. -/
theorem hufWeightsListSortedCounts : Obligations.HufWeightsListSortedCounts := by
  refine ⟨fun v s sym l hholds hl => answers_of_fn ?list,
    fun sym => ⟨_, weightsOf_weights (freq_freqOf sym)⟩, fun s hbad => endsIn_parameter_of_fn ?bad⟩
  case list => rw [commandFn_hufWeights, huffWeights_eq hholds hl]
  case bad => exact (commandFn_hufWeights .text _ _ _).trans (huffWeights_of_bad hbad)

/-- Settles O49: the block's header and data are those of the format, and a codeword of more than 28 bits
would need more symbols than IN_BUF can hold. -/
theorem huffmanEncoderWritesItsArtifact : Obligations.HuffmanEncoderWritesItsArtifact := by
  refine ⟨fun v s sym h data hholds he => answers_of_fn ?artifact,
    fun v s sym => encodesTo_exists_of_holds,
    fun v s sym x hholds hne hone => fails_of_fn ?degenerate,
    fun v s => endsIn_of_not_legalLen, fun s hbad => endsIn_parameter_of_fn ?bad⟩
  case artifact =>
    rw [commandFn_hufEnc, huffEncode_of_holds hholds, huffParts_eq he, Except.map, artifact_eq_artifactOf]
  case degenerate =>
    rw [commandFn_hufEnc, huffEncode_of_holds hholds, huffParts_degenerate hne hone, Except.map]
  case bad => exact (commandFn_hufEnc .text _ _ _).trans (huffEncode_of_bad hbad)

/-- Settles O50: the table command writes the header of the same computation as the encoder. -/
theorem huffmanTableWritesTheHeader : Obligations.HuffmanTableWritesTheHeader := by
  refine ⟨fun v s sym h data hholds he => answers_of_fn ?header,
    fun v s sym x hholds hne hone => fails_of_fn ?degenerate,
    fun v s => endsIn_of_not_legalLen, fun s hbad => endsIn_parameter_of_fn ?bad⟩
  case header => rw [commandFn_hufTable, huffTable_of_holds hholds, huffParts_eq he, Except.map]
  case degenerate =>
    rw [commandFn_hufTable, huffTable_of_holds hholds, huffParts_degenerate hne hone, Except.map]
  case bad => exact (commandFn_hufTable .text _ _ _).trans (huffTable_of_bad hbad)

/-- Settles O52: parsing, the table check, unpacking and the bit decoder each take exactly their part of
the format. -/
theorem huffmanDecoderAcceptsExactlyTheFormat : Obligations.HuffmanDecoderAcceptsExactlyTheFormat := by
  refine fun v s => ⟨fun sym hdec => answers_of_fn ?symbols, fun hnot => fails_of_fn ?format⟩
  case symbols => rw [commandFn_hufDec, huffDecode_of_decodesTo hdec]
  case format => rw [commandFn_hufDec, (huffDecode_cases v s.input).resolve_left hnot]

end Sys2Proof.Machine
end

section
/-! PROOFS. The family 43_lz77: which commands read LZ_WINDOW and LZ_LOOKAHEAD (R241), what the encoders
write (R252, R254), what the decoders accept and give (R253, R255), and the laws of an encoder's triples
with the round trips (R256). Both variants are treated at once, as they differ only in their symbols and
records. -/

namespace Sys2Proof.Machine

open Sys2Proof.Spec

/-! ### The commands, records and reader by variant (R252 to R255) -/

/-- The LZ77 encoder of a variant. -/
def lzEnc : Variant → Instr
  | .raw => .lzRawEnc
  | .text => .lzTxtEnc

/-- The LZ77 decoder of a variant. -/
def lzDec : Variant → Instr
  | .raw => .lzRawDec
  | .text => .lzTxtDec

/-- The records of triples in a variant's artifact (R106, R107). -/
def recordsOf : Variant → List Triple → List Byte
  | .raw => rawTriples
  | .text => txtTriples

/-- The triples that a variant's records can hold. -/
def RecordTriples : Variant → List Triple → Prop
  | .raw => RawTriples
  | .text => TxtTriples

/-- The record reader of a variant (R249, R250). -/
def parseRecords : Variant → List Byte → Except ErrKind (List Triple)
  | .raw => parseRaw
  | .text => parseTxt

theorem commandFn_lzEnc (v : Variant) (input : List Byte) (win look : Nat) :
    commandFn (lzEnc v) input win look =
      (symsIn v input).bind fun sym => (lzTriples v sym win look).map (recordsOf v) := by
  cases v <;> rfl

theorem commandFn_lzDec (v : Variant) (input : List Byte) (win look : Nat) :
    commandFn (lzDec v) input win look =
      (parseRecords v input).bind fun ts => (lzApply ts).map (symsOut v) := by
  cases v <;> rfl

theorem symsOut_raw (sym : List Nat) : symsOut .raw sym = sym.map byteOf :=
  List.flatMap_pure_eq_map byteOf sym

theorem parseRecords_recordsOf {v : Variant} {ts : List Triple} (h : RecordTriples v ts) :
    parseRecords v (recordsOf v ts) = .ok ts := by
  cases v with
  | raw => exact parseRaw_rawTriples h
  | text => exact parseTxt_txtTriples h

theorem parseRecords_cases (v : Variant) (art : List Byte) :
    (∃ ts, RecordTriples v ts ∧ art = recordsOf v ts ∧ parseRecords v art = .ok ts) ∨
      parseRecords v art = .error .format := by
  cases v with
  | raw => exact parseRaw_cases art
  | text => exact parseTxt_cases art

/-! ### The encoders (R241, R246, R252, R254) -/

/-- An encoder's input either holds symbols or is refused with ParameterError (R147, R149). -/
theorem symsIn_cases (v : Variant) (input : List Byte) :
    (∃ sym, Holds v input sym) ∨ symsIn v input = .error .parameter := by
  cases v with
  | raw => exact .inl ⟨_, rfl⟩
  | text =>
    cases h : untxt input with
    | none => exact .inr (symsIn_of_bad (untxt_eq_none.mp h))
    | some sym => exact .inl ⟨sym, untxt_eq_some.mp h⟩

/-- The encoder writes the records of the parse, or raises RangeError for a triple that does not fit. -/
theorem lzEnc_of_parse {v : Variant} {input : List Byte} {sym : List Nat} {win look : Nat}
    {ts : List Triple} (hholds : Holds v input sym) (hwin : win ≠ 0) (hlook : look ≠ 0)
    (hparse : LzParse sym win look 0 ts) :
    commandFn (lzEnc v) input win look =
      if ∀ t ∈ ts, tripleFits v (t.offset, t.length) = true then .ok (recordsOf v ts)
      else .error .range := by
  rw [commandFn_lzEnc, symsIn_eq_ok.mpr hholds, Except.bind, lzTriples_eq hwin hlook hparse]
  split <;> rfl

/-- W = 0 or L = 0 is ParameterError, whatever the input (R241). -/
theorem lzEnc_of_zero {v : Variant} (input : List Byte) {win look : Nat} (h : win = 0 ∨ look = 0) :
    commandFn (lzEnc v) input win look = .error .parameter := by
  rw [commandFn_lzEnc]
  rcases symsIn_cases v input with ⟨sym, hsym⟩ | hbad
  · rw [symsIn_eq_ok.mpr hsym, Except.bind, lzTriples, if_pos h, Except.map]
  · rw [hbad, Except.bind]

theorem lzTxtEnc_of_bad {input : List Byte} (h : BadText input) (win look : Nat) :
    commandFn (lzEnc .text) input win look = .error .parameter := by
  rw [commandFn_lzEnc, symsIn_of_bad h, Except.bind]

theorem lzEnc_endsIn_of_zero (v : Variant) {s : State} (h : s.window = 0 ∨ s.lookahead = 0) :
    EndsIn (lzEnc v) s .parameter :=
  endsIn_parameter_of_fn (lzEnc_of_zero s.input h)

/-- The encoder succeeds only with the records of the parse of its input's symbols, which all fit. -/
theorem lzEnc_eq_ok {v : Variant} {input out : List Byte} {win look : Nat}
    (h : commandFn (lzEnc v) input win look = .ok out) :
    ∃ sym ts, Holds v input sym ∧ LzParse sym win look 0 ts ∧
      (∀ t ∈ ts, tripleFits v (t.offset, t.length) = true) ∧ out = recordsOf v ts := by
  have hpos : ¬ (win = 0 ∨ look = 0) := fun hzero => by
    rw [lzEnc_of_zero input hzero] at h
    cases h
  rw [not_or] at hpos
  rcases symsIn_cases v input with ⟨sym, hholds⟩ | hbad
  · obtain ⟨ts, hparse⟩ := lzParse_exists sym win look 0 (Nat.zero_le _)
    rw [lzEnc_of_parse hholds hpos.1 hpos.2 hparse] at h
    split at h
    · rename_i hfits
      cases h
      exact ⟨sym, ts, hholds, hparse, hfits, rfl⟩
    · cases h
  · rw [commandFn_lzEnc, hbad] at h
    cases h

/-- No command but the LZ77 encoders looks at W or L (R241). -/
theorem commandFn_ignores_window {i : Instr} (hraw : i ≠ .lzRawEnc) (htxt : i ≠ .lzTxtEnc)
    (input : List Byte) (win look win' look' : Nat) :
    commandFn i input win' look' = commandFn i input win look := by
  cases i with
  | lzRawEnc => exact absurd rfl hraw
  | lzTxtEnc => exact absurd rfl htxt
  | _ => rfl

/-! ### The decoders (R251, R253, R255) -/

theorem lzDec_of_expands {v : Variant} {ts : List Triple} {sym : List Nat} (hts : RecordTriples v ts)
    (hexp : LzExpands [] ts sym) (win look : Nat) :
    commandFn (lzDec v) (recordsOf v ts) win look = .ok (symsOut v sym) := by
  rw [commandFn_lzDec, parseRecords_recordsOf hts, Except.bind, lzApply_eq_ok.mpr hexp, Except.map]

/-- What is no record stream of triples that apply is FormatError. -/
theorem lzDec_of_not {v : Variant} {art : List Byte}
    (h : ¬ ∃ ts sym, RecordTriples v ts ∧ art = recordsOf v ts ∧ LzExpands [] ts sym) (win look : Nat) :
    commandFn (lzDec v) art win look = .error .format := by
  rw [commandFn_lzDec]
  rcases parseRecords_cases v art with ⟨ts, hts, hart, hparse⟩ | hbad
  · have hstuck : ¬ ∃ sym, LzExpands [] ts sym := fun ⟨sym, hexp⟩ => h ⟨ts, sym, hts, hart, hexp⟩
    rw [hparse, Except.bind, lzApply_of_not hstuck, Except.map]
  · rw [hbad, Except.bind]

/-! ### The laws of an encoder's triples, and the round trips (R256) -/

/-- A triple's offset stays within what the cursor has passed: where the parse began, and the symbols of
the triples before it. -/
theorem lzParse_offset_le_cursor {x : List Nat} {win look i : Nat} {ts before after : List Triple}
    {t : Triple} (h : LzParse x win look i ts) (hts : ts = before ++ t :: after) :
    t.offset ≤ i + (before.map fun u => u.length + 1).sum := by
  induction h generalizing before with
  | done => simp at hts
  | @step i o l c ts hc _ _ ih =>
    cases before with
    | nil =>
      obtain ⟨rfl, -⟩ := List.cons.inj hts
      obtain ⟨-, -, hcursor, -⟩ := chosen_bound hc
      exact Nat.le_add_right_of_le hcursor
    | cons u before =>
      obtain ⟨rfl, htail⟩ := List.cons.inj hts
      have := ih htail
      simp only [List.map_cons, List.sum_cons]
      omega

/-- The triples that an encoder emits go into its records without loss: W and L are words, and the
literals are symbols of the input. -/
theorem recordTriples_of_parse {v : Variant} {input : List Byte} {sym : List Nat} {win look : Nat}
    {ts : List Triple} (hholds : Holds v input sym) (hwin : win < 2 ^ 32) (hlook : look < 2 ^ 32)
    (hparse : LzParse sym win look 0 ts)
    (hfits : ∀ t ∈ ts, tripleFits v (t.offset, t.length) = true) : RecordTriples v ts := by
  obtain ⟨-, -, hlaws⟩ := lzParse_spec hparse
  cases v with
  | raw =>
    intro t ht
    obtain ⟨-, -, -, -, -, -, c, hc, hlit⟩ := hlaws t ht
    obtain ⟨hoffset, hlength⟩ := fits16_iff.mp hfits t ht
    exact ⟨hoffset, hlength, c, symFits_of_holds hholds hc, hlit⟩
  | text =>
    intro t ht
    obtain ⟨-, -, hoffset, hlength, -, -, c, hc, hlit⟩ := hlaws t ht
    refine ⟨by omega, by omega, fun d hd => ?_⟩
    obtain rfl : c = d := Option.some.inj (hlit.symm.trans hd)
    exact symFits_of_holds hholds hc

/-- Decoding what the encoder wrote gives its input (R256). -/
theorem lzDec_lzEnc {v : Variant} {input out : List Byte} {win look : Nat} (hwin : win < 2 ^ 32)
    (hlook : look < 2 ^ 32) (h : commandFn (lzEnc v) input win look = .ok out) (win' look' : Nat) :
    commandFn (lzDec v) out win' look' = .ok input := by
  obtain ⟨sym, ts, hholds, hparse, hfits, rfl⟩ := lzEnc_eq_ok h
  have hts := recordTriples_of_parse hholds hwin hlook hparse hfits
  rw [lzDec_of_expands hts (lzParse_expands hparse), symsOut_of_holds hholds]

/-- A command that completed without an error left its function's output in OUT_BUF[0..OUT_LEN) (R142). -/
theorem commandFn_of_exec_noError {i : Instr} {s t : State} (hexec : exec i s = .next t)
    (hnoerr : t.err = false) : commandFn i s.input s.window s.lookahead = .ok t.outBytes := by
  rw [exec_eq_complete] at hexec
  cases hexec
  cases hres : execResult (commandFn i) s with
  | error k =>
    rw [hres] at hnoerr
    cases hnoerr
  | ok out =>
    obtain ⟨-, hfn, hfits⟩ := execResult_eq_ok hres
    rw [complete_ok, outBytes_completeOk hfits, hfn]

theorem lz_roundTrip (v : Variant) : RoundTrip (lzEnc v) (lzDec v) := by
  intro s t u hexec hnoerr hlegal hin hfits
  have henc := commandFn_of_exec_noError hexec hnoerr
  refine completes_of_fn hlegal ?_ hfits
  rw [hin]
  exact lzDec_lzEnc s.command.win.isLt s.command.look.isLt henc _ _

/-! ### The obligations -/

/-- Settles O57: the laws of each choice hold along the parse, and the decoder takes what the encoder
wrote. -/
theorem lzTriplesObeyTheirLaws : Obligations.LzTriplesObeyTheirLaws := by
  refine ⟨fun x win look ts hparse => ?_, lz_roundTrip .raw, lz_roundTrip .text⟩
  obtain ⟨-, hsum, hlaws⟩ := lzParse_spec hparse
  refine ⟨fun t ht => ?_, fun before t after hts => ?_, hsum, lzParse_expands hparse⟩
  · obtain ⟨hcopy, hnone, hwin, hlook, -⟩ := hlaws t ht
    exact ⟨fun hpos => ⟨hcopy hpos, hwin⟩, hnone, hlook⟩
  · simpa only [Nat.zero_add] using lzParse_offset_le_cursor hparse hts

/-- Settles O12: W and L are arguments of every command's function, and only the encoders' use them. -/
theorem onlyLzEncodersReadTheLzRegisters : Obligations.OnlyLzEncodersReadTheLzRegisters := by
  refine ⟨fun s hzero => ?_, fun i s s' t t' hraw htxt hlen hin hout hinput => ?_⟩
  · have h : s.window = 0 ∨ s.lookahead = 0 :=
      hzero.imp (congrArg BitVec.toNat) (congrArg BitVec.toNat)
    exact ⟨lzEnc_endsIn_of_zero .raw h, lzEnc_endsIn_of_zero .text h⟩
  · refine exec_reports_of_execResult_eq (execResult_congr hlen hin hout ?_)
    rw [hinput, commandFn_ignores_window hraw htxt]

/-- Settles O53: the encode loop gives the parse, and a raw triple fits when its values are at most
65535. -/
theorem lzRawEncWritesTheGreedyParse : Obligations.LzRawEncWritesTheGreedyParse := by
  refine ⟨fun s ts hwin hlook hparse => ?_, fun x win look => lzParse_exists x win look 0 (Nat.zero_le _),
    fun s => lzEnc_endsIn_of_zero .raw⟩
  have hfn := lzEnc_of_parse (v := .raw) rfl hwin hlook hparse
  exact ⟨fun hfits => answers_of_fn (hfn.trans (if_pos (fits16_iff.mpr hfits))),
    fun hrange => fails_of_fn (hfn.trans (if_neg (mt fits16_iff.mp hrange)))⟩

/-- Settles O54: the encode loop gives the parse, and every triple fits a text record. -/
theorem lzTxtEncWritesTheGreedyParse : Obligations.LzTxtEncWritesTheGreedyParse := by
  refine ⟨fun s t ts hwin hlook hholds hparse => answers_of_fn ?records,
    fun x win look => lzParse_exists x win look 0 (Nat.zero_le _), ?parameter⟩
  case records => exact (lzEnc_of_parse hholds hwin hlook hparse).trans (if_pos fun _ _ => rfl)
  case parameter =>
    rintro s (hbad | hzero)
    · exact endsIn_parameter_of_fn (lzTxtEnc_of_bad hbad _ _)
    · exact lzEnc_endsIn_of_zero .text hzero

/-- Settles O55: the reader takes exactly the raw records, and application succeeds as R251 says. -/
theorem lzRawDecAppliesItsTriples : Obligations.LzRawDecAppliesItsTriples := by
  refine fun s => ⟨fun ts out hts hin hexp => answers_of_fn ?symbols,
    fun hnot => fails_of_fn (lzDec_of_not (v := .raw) hnot _ _)⟩
  case symbols => rw [hin, ← symsOut_raw]; exact lzDec_of_expands (v := .raw) hts hexp _ _

/-- Settles O56: the reader takes exactly the text records, and application succeeds as R251 says. -/
theorem lzTxtDecAppliesItsTriples : Obligations.LzTxtDecAppliesItsTriples := by
  refine fun s => ⟨fun ts out hts hin hexp => answers_of_fn ?symbols,
    fun hnot => fails_of_fn (lzDec_of_not (v := .text) hnot _ _)⟩
  case symbols => rw [hin]; exact lzDec_of_expands (v := .text) hts hexp _ _

end Sys2Proof.Machine
end

section
/-! PROOFS. The family 44_rle: the runs of a byte sequence (R280 to R282), what the decoders accept and
give (R283, R287, R288), what the text encoder writes (R284, R286), and the round trips (R289). -/

namespace Sys2Proof.Machine

open Sys2Proof.Spec

/-! ### Runs (R280, R281, R289) -/

/-- The counts of runs sum to the length of what they stand for (R289). -/
theorem length_expandRuns {α : Type} (rs : List (Nat × α)) :
    (expandRuns rs).length = (rs.map Prod.fst).sum := by
  induction rs with
  | nil => rfl
  | cons r rs ih => simp [ih]

/-- A run that is not empty carries a symbol of the sequence. -/
theorem mem_expandRuns_of_mem {α : Type} {rs : List (Nat × α)} {r : Nat × α} (hr : r ∈ rs)
    (hcount : 1 ≤ r.1) : r.2 ∈ expandRuns rs :=
  List.mem_flatMap.mpr ⟨r, hr, List.mem_replicate.mpr ⟨Nat.one_le_iff_ne_zero.mp hcount, rfl⟩⟩

/-- The runs of the values of bytes are runs of the bytes: the converse of `runsOf_rawSyms`. -/
theorem runsOf_of_rawSyms {lim : Option Nat} {s : List Byte} {rs : List (Nat × Byte)}
    (h : RunsOf lim (rawSyms s) (rs.map fun r => (r.1, r.2.toNat))) : RunsOf lim s rs where
  expands := by
    have hvalues : rawSyms (expandRuns rs) = rawSyms s := by rw [rawSyms_expandRuns, h.expands]
    exact List.map_injective_iff.mpr (fun a b => BitVec.eq_of_toNat_eq) hvalues
  counts := fun r hr => h.counts _ (List.mem_map_of_mem hr)
  maximal := ((List.isChain_map _).mp h.maximal).imp fun a b hab he => hab (congrArg BitVec.toNat he)

/-- Every byte sequence has its runs: those of its values carry values of bytes (R280, R281). -/
theorem exists_runsOf_bytes {lim : Option Nat} (hl : LimitOk lim) (s : List Byte) :
    ∃ rs, RunsOf lim s rs := by
  have hruns := runs_runsOf hl (rawSyms s)
  have hbyte : ∀ r ∈ runs lim (rawSyms s), r.2 < 256 := by
    intro r hr
    have hmem : r.2 ∈ rawSyms s := hruns.expands ▸ mem_expandRuns_of_mem hr (hruns.counts r hr).1
    obtain ⟨b, -, hb⟩ := List.mem_map.mp hmem
    exact hb ▸ byte_lt b
  have hlift : ((runs lim (rawSyms s)).map fun r => (r.1, byteOf r.2)).map
      (fun r => (r.1, r.2.toNat)) = runs lim (rawSyms s) := by
    rw [List.map_map]
    refine (List.map_congr_left (g := id) fun r hr => ?_).trans (List.map_id _)
    exact Prod.ext rfl (byteOf_toNat_of_lt (hbyte r hr))
  exact ⟨_, runsOf_of_rawSyms (hlift.symm ▸ hruns)⟩

theorem limitOk_255 : LimitOk (some 255) := by
  rintro m ⟨⟩
  decide

theorem limitOk_none : LimitOk none := nofun

/-- A raw run has a count that its record can hold (R281). -/
theorem counts_of_runsOf_255 {α : Type} {s : List α} {rs : List (Nat × α)} (h : RunsOf (some 255) s rs) :
    ∀ r ∈ rs, 1 ≤ r.1 ∧ r.1 ≤ 255 := fun r hr =>
  (h.counts r hr).imp_right fun hle => hle 255 rfl

/-- The runs of a text are of counts and symbols that the framing can hold (R102, R284). -/
theorem framable_of_runsOf {t : List Nat} {rs : List (Nat × Nat)} (ht : IsText t) (h : RunsOf none t rs) :
    ∀ r ∈ rs, 1 ≤ r.1 ∧ r.2 ≤ 0x10FFFF := fun r hr => by
  have hcount := (h.counts r hr).1
  exact ⟨hcount, ht _ (h.expands ▸ mem_expandRuns_of_mem hr hcount)⟩

/-! ### The raw commands' functions (R282, R283) -/

theorem rleRawEnc_of_runs {input : List Byte} {rs : List (Nat × Byte)} (h : RunsOf (some 255) input rs)
    (win look : Nat) : commandFn .rleRawEnc input win look = .ok (rawRecords rs) :=
  congrArg Except.ok (rleRaw_eq h)

theorem rleRawDec_of_records {rs : List (Nat × Byte)} (h : ∀ r ∈ rs, 1 ≤ r.1 ∧ r.1 ≤ 255)
    (win look : Nat) : commandFn .rleRawDec (rawRecords rs) win look = .ok (expandRuns rs) :=
  rleRawExpand_rawRecords h

/-- Half a record at the end, or a record of count 0 (R283). -/
def BadRecords (art : List Byte) : Prop :=
  art.length % 2 = 1 ∨ ∃ k, 2 * k + 1 < art.length ∧ art.getD (2 * k) 0 = 0

/-- Records of counts 1 to 255 have an even length, and no count byte 0. -/
theorem not_badRecords_rawRecords {rs : List (Nat × Byte)} (h : ∀ r ∈ rs, 1 ≤ r.1 ∧ r.1 ≤ 255) :
    ¬ BadRecords (rawRecords rs) := by
  rintro (hodd | ⟨k, hk, hzero⟩)
  · rw [rawRecords_length] at hodd
    omega
  · rw [rawRecords_length] at hk
    have hk : k < rs.length := by omega
    obtain ⟨hpos, hle⟩ := h rs[k] (List.getElem_mem hk)
    have hcount := byteOf_toNat_of_lt (Nat.lt_succ_of_le hle)
    rw [← rawRecords_getD rs k hk, hzero] at hcount
    exact absurd hcount (Nat.ne_of_lt hpos)

theorem rleRawDec_of_bad {art : List Byte} (h : BadRecords art) (win look : Nat) :
    commandFn .rleRawDec art win look = .error .format := by
  refine (rleRawExpand_cases art).resolve_left ?_
  rintro ⟨rs, hcounts, rfl, -⟩
  exact not_badRecords_rawRecords hcounts h

/-! ### The text commands' functions (R286, R288) -/

theorem rleTxtEnc_of_runs {input : List Byte} {t : List Nat} {rs : List (Nat × Nat)}
    (hholds : Holds .text input t) (h : RunsOf none t rs) (win look : Nat) :
    commandFn .rleTxtEnc input win look = .ok (txt (framed rs)) := by
  rw [commandFn, fRleTxtEnc, textIn_eq_ok.mpr hholds, Except.map, rleTxt_eq h]

theorem rleTxtEnc_of_bad {input : List Byte} (h : BadText input) (win look : Nat) :
    commandFn .rleTxtEnc input win look = .error .parameter := by
  rw [commandFn, fRleTxtEnc, textIn_of_bad h, Except.map]

/-- The text encoder succeeds only with the framing of the runs of the text that its input holds. -/
theorem rleTxtEnc_eq_ok {input out : List Byte} {win look : Nat}
    (h : commandFn .rleTxtEnc input win look = .ok out) :
    ∃ t rs, Holds .text input t ∧ RunsOf none t rs ∧ out = txt (framed rs) := by
  rcases symsIn_cases .text input with ⟨t, hholds⟩ | hbad
  · have hruns := runs_runsOf limitOk_none t
    rw [rleTxtEnc_of_runs hholds hruns] at h
    cases h
    exact ⟨t, _, hholds, hruns, rfl⟩
  · rw [commandFn, fRleTxtEnc, show textIn input = .error .parameter from hbad] at h
    cases h

theorem rleTxtDec_of_framed {rs : List (Nat × Nat)} (h : ∀ r ∈ rs, 1 ≤ r.1 ∧ r.2 ≤ 0x10FFFF)
    (win look : Nat) : commandFn .rleTxtDec (txt (framed rs)) win look = .ok (txt (expandRuns rs)) := by
  have htext : IsText (framed rs) := isText_framed.mpr fun r hr => (h r hr).2
  have hparse : rleTxtParse (framed rs) = .ok (expandRuns rs) :=
    rleTxtParse_eq_ok.mpr ⟨rs, fun r hr => (h r hr).1, rfl, rfl⟩
  rw [commandFn, fRleTxtDec, textArt_eq_ok.mpr ⟨rfl, htext⟩, Except.bind, hparse, Except.map]

/-- What is no text, or a text that is no framing, is FormatError (R148, R288). -/
theorem rleTxtDec_of_not {art : List Byte}
    (h : ¬ ∃ rs, (∀ r ∈ rs, 1 ≤ r.1 ∧ r.2 ≤ 0x10FFFF) ∧ art = txt (framed rs)) (win look : Nat) :
    commandFn .rleTxtDec art win look = .error .format := by
  rw [commandFn, fRleTxtDec]
  by_cases htext : ∃ t, art = txt t ∧ IsText t
  · obtain ⟨t, rfl, ht⟩ := htext
    have hstuck : rleTxtParse t = .error .format := by
      refine (rleTxtParse_cases t).resolve_left ?_
      rintro ⟨out, hout⟩
      obtain ⟨rs, hcounts, rfl, -⟩ := rleTxtParse_eq_ok.mp hout
      exact h ⟨rs, fun r hr => ⟨hcounts r hr, isText_framed.mp ht r hr⟩, rfl⟩
    rw [textArt_eq_ok.mpr ⟨rfl, ht⟩, Except.bind, hstuck, Except.map]
  · rw [textArt_of_not (not_exists.mp htext), Except.bind]

/-! ### The round trips (R289) -/

theorem rleRaw_roundTrip : RoundTrip .rleRawEnc .rleRawDec := by
  refine roundTrip_of_fn fun input out win look win' look' henc _ => ?_
  obtain ⟨rs, hruns⟩ := exists_runsOf_bytes limitOk_255 input
  rw [rleRawEnc_of_runs hruns] at henc
  cases henc
  rw [rleRawDec_of_records (counts_of_runsOf_255 hruns), hruns.expands]

theorem rleTxt_roundTrip : RoundTrip .rleTxtEnc .rleTxtDec := by
  refine roundTrip_of_fn fun input out win look win' look' henc _ => ?_
  obtain ⟨t, rs, ⟨rfl, htext⟩, hruns, rfl⟩ := rleTxtEnc_eq_ok henc
  rw [rleTxtDec_of_framed (framable_of_runsOf htext hruns), hruns.expands]

/-! ### The obligations -/

/-- Settles O58: the decoders expand the encoders' runs, and runs stand for the input. -/
theorem rleRoundTrips : Obligations.RleRoundTrips := by
  refine ⟨fun x rs hruns => ⟨counts_of_runsOf_255 hruns, ?sum⟩, rleRaw_roundTrip, rleTxt_roundTrip⟩
  case sum => rw [← length_expandRuns, hruns.expands]

/-- Settles O42: a sequence has only one list of runs, the one that the encoder finds. -/
theorem rleRawEncWritesItsRuns : Obligations.RleRawEncWritesItsRuns :=
  ⟨fun _ _ hruns => answers_of_fn (rleRawEnc_of_runs hruns _ _), exists_runsOf_bytes limitOk_255⟩

/-- Settles O43: the reader takes exactly the records, which have an even length and no count 0. -/
theorem rleRawDecExpandsItsRecords : Obligations.RleRawDecExpandsItsRecords := by
  refine fun s => ⟨fun rs hcounts hin => answers_of_fn ?expands,
    fun hbad => fails_of_fn (rleRawDec_of_bad hbad _ _)⟩
  case expands => rw [hin]; exact rleRawDec_of_records hcounts _ _

/-- Settles O44: a text has only one list of maximal runs, the one that the encoder finds. -/
theorem rleTxtEncFramesItsRuns : Obligations.RleTxtEncFramesItsRuns :=
  ⟨fun _ _ _ hholds hruns => answers_of_fn (rleTxtEnc_of_runs hholds hruns _ _),
    fun t => ⟨_, runs_runsOf limitOk_none t⟩,
    fun _ hbad => endsIn_parameter_of_fn (rleTxtEnc_of_bad hbad _ _)⟩

/-- Settles O45: the parser takes exactly the framings, which are texts when their symbols are. -/
theorem rleTxtDecParsesExactlyTheFraming : Obligations.RleTxtDecParsesExactlyTheFraming := by
  refine fun s => ⟨fun rs hframable hin => answers_of_fn ?expands,
    fun hnot => fails_of_fn (rleTxtDec_of_not hnot _ _)⟩
  case expands => rw [hin]; exact rleTxtDec_of_framed hframable _ _

end Sys2Proof.Machine
end

section
/-! PROOFS. The family 60_exceptions: which errors each command's function can raise (R311 to R316), the
causes of ParameterError (R316), and that one distinct symbol is the only cause of DegenerateInputError
(R311). -/

namespace Sys2Proof.Machine

open Sys2Proof.Spec

/-! ### Computations that raise only listed errors -/

/-- If the computation fails, it is with an error of the list. -/
def RaisesOnly {α : Type} (ks : List ErrKind) (r : Except ErrKind α) : Prop :=
  ∀ k, r = .error k → k ∈ ks

theorem raisesOnly_ok {α : Type} (ks : List ErrKind) (a : α) : RaisesOnly ks (.ok a) := nofun

theorem raisesOnly_error {α : Type} {ks : List ErrKind} {k : ErrKind} (hk : k ∈ ks) :
    RaisesOnly ks (.error k : Except ErrKind α) := by
  intro k' h
  cases h
  exact hk

theorem raisesOnly_of_cases {α : Type} {ks : List ErrKind} {r : Except ErrKind α} {k : ErrKind}
    (h : (∃ a, r = .ok a) ∨ r = .error k) (hk : k ∈ ks) : RaisesOnly ks r := by
  rcases h with ⟨a, rfl⟩ | rfl
  · exact raisesOnly_ok ks a
  · exact raisesOnly_error hk

theorem raisesOnly_bind {α β : Type} {ks : List ErrKind} {r : Except ErrKind α}
    {f : α → Except ErrKind β} (hr : RaisesOnly ks r) (hf : ∀ a, RaisesOnly ks (f a)) :
    RaisesOnly ks (r.bind f) := by
  cases r with
  | ok a => exact hf a
  | error k => exact raisesOnly_error (hr k rfl)

theorem raisesOnly_map {α β : Type} {ks : List ErrKind} {r : Except ErrKind α} (hr : RaisesOnly ks r)
    (f : α → β) : RaisesOnly ks (r.map f) := by
  cases r with
  | ok a => exact raisesOnly_ok ks (f a)
  | error k => exact raisesOnly_error (hr k rfl)

/-- Mapping the output leaves the errors as they are. -/
theorem except_of_map_eq_error {α β : Type} {r : Except ErrKind α} {f : α → β} {k : ErrKind}
    (h : r.map f = .error k) : r = .error k := by
  cases r with
  | ok a => cases h
  | error e => cases h; rfl

/-! ### What the engines' functions raise -/

section Engines

variable {ks : List ErrKind}

/-- Only a text encoder's input can be refused (R147, R149). -/
theorem raisesOnly_symsIn {v : Variant} (hp : v = .text → ErrKind.parameter ∈ ks) (input : List Byte) :
    RaisesOnly ks (symsIn v input) := by
  cases v with
  | raw => exact raisesOnly_ok ks _
  | text =>
    exact raisesOnly_of_cases ((symsIn_cases .text input).imp_left fun ⟨_, h⟩ => ⟨_, symsIn_eq_ok.mpr h⟩)
      (hp rfl)

theorem raisesOnly_textArt (hf : ErrKind.format ∈ ks) (input : List Byte) :
    RaisesOnly ks (textArt input) := by
  rw [textArt]
  split
  · exact raisesOnly_ok ks _
  · exact raisesOnly_error hf

theorem raisesOnly_rleRawExpand (hf : ErrKind.format ∈ ks) (input : List Byte) :
    RaisesOnly ks (rleRawExpand input) :=
  raisesOnly_of_cases ((rleRawExpand_cases input).imp_left fun ⟨_, _, _, h⟩ => ⟨_, h⟩) hf

theorem raisesOnly_bsUnpack (hf : ErrKind.format ∈ ks) (input : List Byte) (win look : Nat) :
    RaisesOnly ks (fBsUnpack input win look) := by
  cases input with
  | nil => exact raisesOnly_error hf
  | cons pad data => exact raisesOnly_map (raisesOnly_of_cases (unpack_cases data pad.toNat) hf) _

theorem raisesOnly_huffDecode (hf : ErrKind.format ∈ ks) (v : Variant) (input : List Byte) :
    RaisesOnly ks (huffDecode v input) :=
  raisesOnly_of_cases ((huffDecode_cases v input).imp_left fun ⟨_, h⟩ => ⟨_, huffDecode_of_decodesTo h⟩) hf

theorem raisesOnly_huffWeights {v : Variant} (hp : v = .text → ErrKind.parameter ∈ ks)
    (input : List Byte) : RaisesOnly ks (huffWeights v input) :=
  raisesOnly_map (raisesOnly_symsIn hp input) _

/-- A header entry fails only on a codeword longer than LEN can say (R194). -/
theorem raisesOnly_entriesBytes (hr : ErrKind.range ∈ ks) (v : Variant) (code : CodeTable)
    (order : List Nat) : RaisesOnly ks (entriesBytes v code order) := by
  induction order with
  | nil => exact raisesOnly_ok ks []
  | cons x order ih =>
    refine raisesOnly_bind ?entry fun e => raisesOnly_map ih _
    rw [entryBytes]
    split
    · exact raisesOnly_error hr
    · exact raisesOnly_ok ks _

/-- A sequence that has a tree can only fail in the header (R194). -/
theorem raisesOnly_huffParts_of_rootOf (hr : ErrKind.range ∈ ks) (v : Variant) {sym : List Nat}
    {root : Option HufTree} (h : RootOf sym root) : RaisesOnly ks (huffParts v sym) := by
  rw [huffParts, buildTree_of_rootOf h]
  exact raisesOnly_map (raisesOnly_map (raisesOnly_entriesBytes hr v _ _) _) _

/-- The tree builder fails on one distinct symbol and on nothing else (R188). -/
theorem huffParts_eq_degenerate_iff {v : Variant} {sym : List Nat} :
    huffParts v sym = .error .degenerateInput ↔ sym ≠ [] ∧ ∃ x, ∀ y ∈ sym, y = x := by
  refine ⟨fun h => ?_, fun ⟨hne, x, hone⟩ => huffParts_degenerate hne hone⟩
  have hnotree : ¬ ∃ root, RootOf sym root := fun ⟨root, hroot⟩ =>
    absurd (raisesOnly_huffParts_of_rootOf (List.mem_singleton_self ErrKind.range) v hroot _ h) (by decide)
  rcases sym_cases sym with hnil | hone | htwo
  · exact absurd (rootOf_exists (.inl hnil)) hnotree
  · exact hone
  · exact absurd (rootOf_exists (.inr htwo)) hnotree

theorem raisesOnly_huffParts (hd : ErrKind.degenerateInput ∈ ks) (hr : ErrKind.range ∈ ks) (v : Variant)
    (sym : List Nat) : RaisesOnly ks (huffParts v sym) := by
  rcases sym_cases sym with hnil | hone | htwo
  · obtain ⟨_, hroot⟩ := rootOf_exists (.inl hnil)
    exact raisesOnly_huffParts_of_rootOf hr v hroot
  · rw [huffParts_eq_degenerate_iff.mpr hone]
    exact raisesOnly_error hd
  · obtain ⟨_, hroot⟩ := rootOf_exists (.inr htwo)
    exact raisesOnly_huffParts_of_rootOf hr v hroot

theorem raisesOnly_huffEncode {v : Variant} (hp : v = .text → ErrKind.parameter ∈ ks)
    (hd : ErrKind.degenerateInput ∈ ks) (hr : ErrKind.range ∈ ks) (input : List Byte) :
    RaisesOnly ks (huffEncode v input) :=
  raisesOnly_bind (raisesOnly_symsIn hp input) fun sym => raisesOnly_map (raisesOnly_huffParts hd hr v sym) _

theorem raisesOnly_huffTable {v : Variant} (hp : v = .text → ErrKind.parameter ∈ ks)
    (hd : ErrKind.degenerateInput ∈ ks) (hr : ErrKind.range ∈ ks) (input : List Byte) :
    RaisesOnly ks (huffTable v input) :=
  raisesOnly_bind (raisesOnly_symsIn hp input) fun sym => raisesOnly_map (raisesOnly_huffParts hd hr v sym) _

/-- Zero parameters are refused, and only a raw triple can be too large for its record (R241, R246). -/
theorem raisesOnly_lzTriples (hp : ErrKind.parameter ∈ ks) {v : Variant}
    (hr : v = .raw → ErrKind.range ∈ ks) (sym : List Nat) (win look : Nat) :
    RaisesOnly ks (lzTriples v sym win look) := by
  by_cases hzero : win = 0 ∨ look = 0
  · rw [lzTriples, if_pos hzero]
    exact raisesOnly_error hp
  · obtain ⟨hwin, hlook⟩ := not_or.mp hzero
    obtain ⟨ts, hparse⟩ := lzParse_exists sym win look 0 (Nat.zero_le _)
    rw [lzTriples_eq hwin hlook hparse]
    split
    · exact raisesOnly_ok ks ts
    · rename_i hbig
      cases v with
      | raw => exact raisesOnly_error (hr rfl)
      | text => exact absurd (fun _ _ => rfl) hbig

theorem raisesOnly_lzEnc (hp : ErrKind.parameter ∈ ks) {v : Variant}
    (hr : v = .raw → ErrKind.range ∈ ks) (input : List Byte) (win look : Nat) :
    RaisesOnly ks (commandFn (lzEnc v) input win look) := by
  rw [commandFn_lzEnc]
  exact raisesOnly_bind (raisesOnly_symsIn (fun _ => hp) input) fun sym =>
    raisesOnly_map (raisesOnly_lzTriples hp hr sym win look) _

theorem raisesOnly_lzDec (hf : ErrKind.format ∈ ks) (v : Variant) (input : List Byte) (win look : Nat) :
    RaisesOnly ks (commandFn (lzDec v) input win look) := by
  rw [commandFn_lzDec]
  exact raisesOnly_bind
    (raisesOnly_of_cases ((parseRecords_cases v input).imp_left fun ⟨_, _, _, h⟩ => ⟨_, h⟩) hf)
    fun ts => raisesOnly_map (raisesOnly_of_cases (lzApplyFrom_cases [] ts) hf) _

end Engines

/-! ### What the commands raise -/

/-- The errors that a command's function can raise, besides those of Exec's own checks (R311 to R316). -/
def errorKinds : Instr → List ErrKind
  | .nop | .rleRawEnc | .hufRawWeights => []
  | .rleTxtEnc | .hufTxtWeights | .lzTxtEnc => [.parameter]
  | .lzRawEnc => [.parameter, .range]
  | .hufRawEnc | .hufRawTable => [.degenerateInput, .range]
  | .hufTxtEnc | .hufTxtTable => [.parameter, .degenerateInput, .range]
  | .rleRawDec | .rleTxtDec | .hufRawDec | .hufTxtDec | .bsPack | .bsUnpack | .lzRawDec | .lzTxtDec =>
    [.format]

theorem commandFn_raisesOnly (i : Instr) (input : List Byte) (win look : Nat) :
    RaisesOnly (errorKinds i) (commandFn i input win look) := by
  cases i with
  | nop => exact raisesOnly_ok _ _
  | rleRawEnc => exact raisesOnly_ok _ _
  | rleRawDec => exact raisesOnly_rleRawExpand (by decide) input
  | rleTxtEnc => exact raisesOnly_map (raisesOnly_symsIn (v := .text) (by decide) input) _
  | rleTxtDec =>
    exact raisesOnly_bind (raisesOnly_textArt (by decide) input) fun t =>
      raisesOnly_map (raisesOnly_of_cases (rleTxtParse_cases t) (by decide)) _
  | hufRawEnc => exact raisesOnly_huffEncode (v := .raw) nofun (by decide) (by decide) input
  | hufRawDec => exact raisesOnly_huffDecode (by decide) .raw input
  | hufTxtEnc => exact raisesOnly_huffEncode (v := .text) (by decide) (by decide) (by decide) input
  | hufTxtDec => exact raisesOnly_huffDecode (by decide) .text input
  | hufRawTable => exact raisesOnly_huffTable (v := .raw) nofun (by decide) (by decide) input
  | hufTxtTable => exact raisesOnly_huffTable (v := .text) (by decide) (by decide) (by decide) input
  | hufRawWeights => exact raisesOnly_huffWeights (v := .raw) nofun input
  | hufTxtWeights => exact raisesOnly_huffWeights (v := .text) (by decide) input
  | bsPack =>
    exact raisesOnly_map
      (raisesOnly_of_cases (k := .format) (parseCodewordsFuel_cases input.length input) (by decide)) _
  | bsUnpack => exact raisesOnly_bsUnpack (by decide) input win look
  | lzRawEnc => exact raisesOnly_lzEnc (v := .raw) (by decide) (by decide) input win look
  | lzRawDec => exact raisesOnly_lzDec (by decide) .raw input win look
  | lzTxtEnc => exact raisesOnly_lzEnc (v := .text) (by decide) nofun input win look
  | lzTxtDec => exact raisesOnly_lzDec (by decide) .text input win look

/-- An error that is none of Exec's own checks comes from the command's function (R143, R317). -/
theorem commandFn_of_endsIn {i : Instr} {s : State} {k : ErrKind} (h : EndsIn i s k)
    (hp : k ≠ .parameter) (hc : k ≠ .capacity) :
    commandFn i s.input s.window s.lookahead = .error k := by
  rcases execResult_eq_error (endsIn_iff.mp h) with ⟨-, hk⟩ | ⟨-, hfn⟩ | ⟨-, hk, -⟩
  · exact absurd hk hp
  · exact hfn
  · exact absurd hk hc

/-! ### DegenerateInputError (R311) -/

theorem hufEnc_or_hufTable_of_degenerate_mem {i : Instr} (h : ErrKind.degenerateInput ∈ errorKinds i) :
    ∃ v, i = hufEnc v ∨ i = hufTable v := by
  cases i with
  | hufRawEnc => exact ⟨.raw, .inl rfl⟩
  | hufTxtEnc => exact ⟨.text, .inl rfl⟩
  | hufRawTable => exact ⟨.raw, .inr rfl⟩
  | hufTxtTable => exact ⟨.text, .inr rfl⟩
  | _ => exact absurd h (by decide)

/-- The encoder and the table command compute their parts alike, and fail alike on one distinct symbol. -/
theorem commandFn_of_degenerate {v : Variant} {i : Instr} (hi : i = hufEnc v ∨ i = hufTable v)
    {input : List Byte} {sym : List Nat} (hholds : Holds v input sym) (hne : sym ≠ []) {x : Nat}
    (hone : ∀ y ∈ sym, y = x) (win look : Nat) :
    commandFn i input win look = .error .degenerateInput := by
  have hparts := huffParts_degenerate (v := v) hne hone
  rcases hi with rfl | rfl
  · rw [commandFn_hufEnc, huffEncode_of_holds hholds, hparts, Except.map]
  · rw [commandFn_hufTable, huffTable_of_holds hholds, hparts, Except.map]

/-- Behind an error that is not ParameterError stands a symbol sequence on which the tree or the header
failed with it. -/
theorem huffParts_of_commandFn_eq_error {v : Variant} {i : Instr} (hi : i = hufEnc v ∨ i = hufTable v)
    {input : List Byte} {win look : Nat} {k : ErrKind} (hp : k ≠ .parameter)
    (h : commandFn i input win look = .error k) : ∃ sym, Holds v input sym ∧ huffParts v sym = .error k := by
  rcases symsIn_cases v input with ⟨sym, hholds⟩ | hbad
  · refine ⟨sym, hholds, ?_⟩
    rcases hi with rfl | rfl
    · rw [commandFn_hufEnc, huffEncode_of_holds hholds] at h
      exact except_of_map_eq_error h
    · rw [commandFn_hufTable, huffTable_of_holds hholds] at h
      exact except_of_map_eq_error h
  · have hk : (.error .parameter : Result) = .error k := by
      rcases hi with rfl | rfl
      · rwa [commandFn_hufEnc, huffEncode, hbad] at h
      · rwa [commandFn_hufTable, huffTable, hbad] at h
    cases hk
    exact absurd rfl hp

/-! ### The obligations -/

/-- Settles O13: an IN_LEN above IN_CAP fails Exec's first check, and the encoders raise ParameterError on
zero parameters and on an input that is no text. -/
theorem parameterErrorIsRaisedAsListed : Obligations.ParameterErrorIsRaisedAsListed := by
  refine ⟨fun i s hlong => endsIn_of_not_legalLen (Nat.not_le.mpr hlong),
    fun s hzero => ⟨lzEnc_endsIn_of_zero .raw hzero, lzEnc_endsIn_of_zero .text hzero⟩,
    fun s hbad => ⟨?rle, ?enc, ?table, ?weights, ?lz⟩⟩ <;> refine endsIn_parameter_of_fn ?_
  case rle => exact rleTxtEnc_of_bad hbad _ _
  case enc => exact (commandFn_hufEnc .text _ _ _).trans (huffEncode_of_bad hbad)
  case table => exact (commandFn_hufTable .text _ _ _).trans (huffTable_of_bad hbad)
  case weights => exact (commandFn_hufWeights .text _ _ _).trans (huffWeights_of_bad hbad)
  case lz => exact lzTxtEnc_of_bad hbad _ _

/-- Settles O51: only the encoders' and table commands' functions can raise the error, and they do exactly
when the tree builder does. -/
theorem degenerateInputIsExactlyOneSymbol : Obligations.DegenerateInputIsExactlyOneSymbol := by
  refine ⟨fun v s sym x hholds hne hone => ⟨?enc, ?table⟩, fun i s hends => ?converse⟩
  case enc => exact fails_of_fn (commandFn_of_degenerate (.inl rfl) hholds hne hone _ _)
  case table => exact fails_of_fn (commandFn_of_degenerate (.inr rfl) hholds hne hone _ _)
  case converse =>
    have hfn := commandFn_of_endsIn hends (by decide) (by decide)
    obtain ⟨v, hi⟩ := hufEnc_or_hufTable_of_degenerate_mem (commandFn_raisesOnly i _ _ _ _ hfn)
    obtain ⟨sym, hholds, hparts⟩ := huffParts_of_commandFn_eq_error hi (by decide) hfn
    obtain ⟨hne, x, hone⟩ := huffParts_eq_degenerate_iff.mp hparts
    exact ⟨v, sym, x, hi, hholds, hne, hone⟩

end Sys2Proof.Machine
end

section
/-! PROOFS. The family 70_reset_and_hazards: a soft reset is a hardware reset at the point of the CTRL
write (R341). -/

namespace Sys2Proof.Machine

/-! ### The host's next entry (R71) -/

/-- Whatever entry is next, the host performs it when the engine is idle or has to wait (log 4). -/
theorem hostPerforms_withProgram {s : State} (h : s.engine = none ∨ s.hostTurns ≠ 0) (op : HostOp)
    (rest : List HostOp) : HostPerforms { s with program := op :: rest } op rest :=
  ⟨rfl, h.imp_right fun hturns => by simp [engineTurn, hturns]⟩

/-! ### Soft reset (R28, R341) -/

theorem perform_softReset {v : Word} (s : State) (hsrst : v.getLsbD 1 = true) :
    perform (.write 0x018 4 v) s = perform .reset s :=
  (busWrite_ctrl v s).trans (writeCtrl_of_srst s hsrst)

/-! ### The obligations -/

/-- Settles O36: the host performs either entry, from one and the same state after its bookkeeping. -/
theorem softResetIsHardwareReset : Obligations.SoftResetIsHardwareReset := by
  intro s v rest hhost hsrst
  rw [hostStep_performs (hostPerforms_withProgram hhost (.write 0x018 4 v) rest),
    hostStep_performs (hostPerforms_withProgram hhost .reset rest), perform_softReset _ hsrst]
  rfl

end Sys2Proof.Machine
end

section
/-! PROOFS. What one step changes, said once for the whole machine: a read leaves the block alone (20_memory
R68), and `StepEffect` lists every event with its agent and its next state (20_memory R71). The invariant, the
sticky flags, the output and the end of a command are read off that list. -/

namespace Sys2Proof.Machine

open Sys2Proof.Spec

/-! ### The host's bookkeeping of one access (log 4) -/

@[simp] theorem afterIssue_done (s : State) (rest : List HostOp) : (s.afterIssue rest).done = s.done := rfl
@[simp] theorem afterIssue_buserr (s : State) (rest : List HostOp) :
    (s.afterIssue rest).buserr = s.buserr := rfl

/-- While a command is in flight, the host moves only when it has a turn left (R71; log 4). -/
theorem hostTurns_pos_of_hostPerforms {s : State} {op : HostOp} {rest : List HostOp} {e : Engine}
    (h : HostPerforms s op rest) (he : s.engine = some e) : 0 < s.hostTurns := by
  have hturn : engineTurn s = false := h.2.resolve_left (by rw [he]; nofun)
  rw [engineTurn, Bool.or_eq_false_iff, beq_eq_false_iff_ne] at hturn
  exact Nat.pos_of_ne_zero hturn.1

/-! ### Reads and bus errors leave the block alone (R63, R68) -/

/-- Nothing of the block changes but that BUSERR may be set; of the model's own fields, only the host's lists
and, upward, the draw counter. -/
structure Undisturbed (s t : State) : Prop where
  done : t.done = s.done
  err : t.err = s.err
  buserr : s.buserr = true → t.buserr = true
  errcode : t.errcode = s.errcode
  irqEn : t.irqEn = s.irqEn
  inLen : t.inLen = s.inLen
  lzWindow : t.lzWindow = s.lzWindow
  lzLookahead : t.lzLookahead = s.lzLookahead
  outLen : t.outLen = s.outLen
  statOrig : t.statOrig = s.statOrig
  inCap : t.inCap = s.inCap
  outCap : t.outCap = s.outCap
  engine : t.engine = s.engine
  inBuf : t.inBuf = s.inBuf
  outBuf : t.outBuf = s.outBuf
  draws : s.draws ≤ t.draws
  hostTurns : t.hostTurns = s.hostTurns

theorem undisturbed_refl (s : State) : Undisturbed s s := by
  constructor <;> simp

theorem undisturbed_busError (s : State) : Undisturbed s (busError s) := by
  constructor <;> simp

/-- What the host's lists hold is no matter of the block. -/
theorem undisturbed_hostLists {s t : State} (h : Undisturbed s t) (program : List HostOp)
    (returned : List Word) : Undisturbed s { t with program := program, returned := returned } := { h with }

theorem undisturbed_busRead (off : Offset) (width : Nat) (s : State) :
    Undisturbed s (busRead off width s).2 := by
  rcases busRead_state off width s with hsame | ⟨-, hdraw⟩ | herror
  · rw [hsame]
    exact undisturbed_refl s
  · rw [hdraw]
    exact { undisturbed_refl s with draws := Nat.le_succ s.draws }
  · rw [herror]
    exact undisturbed_busError s

theorem undisturbed_hostRead (off : Offset) (width : Nat) (s : State) :
    Undisturbed s (hostRead off width s) :=
  undisturbed_hostLists (undisturbed_busRead off width s) _ _

/-- POLL and COPYOUT read and leave entries to be performed: the block is left alone (R68, R98). -/
theorem undisturbed_poll (s : State) : Undisturbed s (perform .poll s) := by
  rw [perform]
  split
  · exact undisturbed_hostLists (undisturbed_busRead 0x014 4 s) _ _
  · exact undisturbed_hostRead 0x014 4 s

theorem undisturbed_copyOut (s : State) : Undisturbed s (perform .copyOut s) :=
  undisturbed_hostLists (undisturbed_busRead 0x024 4 s) _ _

/-! ### Every event and its next state (R71) -/

/-- A hardware reset, or the CTRL write that is a soft reset (R340, R341). -/
def IsReset (op : HostOp) : Prop := op = .reset ∨ ∃ v, op = .write 0x018 4 v ∧ v.getLsbD 1 = true

/-- Every event of the machine with its next state (R71): nothing is left to do; the host makes an access that
leaves the block alone, resets it, has a command accepted, acknowledges, sets IRQ_EN, sets a parameter or
writes IN_BUF; the engine waits or completes. -/
inductive StepEffect (s : State) : State → Prop
  | nothing (hidle : s.engine = none) : StepEffect s s
  | quiet {op : HostOp} {rest : List HostOp} {t : State} (h : HostPerforms s op rest)
      (hquiet : Undisturbed (s.afterIssue rest) t) : StepEffect s t
  | reset {op : HostOp} {rest : List HostOp} (h : HostPerforms s op rest) (hreset : IsReset op) :
      StepEffect s (resetBlock (s.afterIssue rest))
  | accept (rest : List HostOp) (w : Word) (hidle : s.engine = none) :
      StepEffect s (accept w (s.afterIssue rest))
  | acknowledge {rest : List HostOp} {v : Word} (h : HostPerforms s (.write 0x014 4 v) rest) :
      StepEffect s (writeStatus v (s.afterIssue rest))
  | enable {op : HostOp} {rest : List HostOp} (h : HostPerforms s op rest) (b : Bool) :
      StepEffect s { s.afterIssue rest with irqEn := b }
  | parameter (rest : List HostOp) (len win look : Word) (hidle : s.engine = none) :
      StepEffect s { s.afterIssue rest with inLen := len, lzWindow := win, lzLookahead := look }
  | input {rest : List HostOp} {off : Offset} {width i : Nat} {v : Word}
      (h : HostPerforms s (.write off width v) rest) (hidle : s.engine = none)
      (htarget : target (s.afterIssue rest) off width = some (.inBuf i)) :
      StepEffect s (writeInBuf i width v (s.afterIssue rest))
  | wait {e : Engine} (he : s.engine = some e) (hsteps : 1 < e.steps) : StepEffect s (waitStep e s)
  | complete {e : Engine} {r : Result} (h : Completing s e) (hfits : ∀ out, r = .ok out → Fits s out) :
      StepEffect s (complete r s)

/-- A write is one of the events (R25 to R37, R63 to R65). -/
theorem stepEffect_busWrite {s : State} {rest : List HostOp} {off : Offset} {width : Nat} {v : Word}
    (h : HostPerforms s (.write off width v) rest) :
    StepEffect s (busWrite off width v (s.afterIssue rest)) := by
  have at_offset {o : Offset} (hwidth : width = 4) (ho : off.toNat = o.toNat) :
      HostPerforms s (.write o 4 v) rest := by
    rwa [← hwidth, ← BitVec.eq_of_toNat_eq ho]
  rcases busWrite_cases off width v (s.afterIssue rest) with hw | ⟨hidle, -, -, hw⟩ | ⟨hwidth, ho, hw⟩ |
    ⟨hwidth, ho, hsrst, hw⟩ | ⟨-, -, -, hw⟩ | ⟨hidle, hw⟩ | ⟨hidle, hw⟩ | ⟨hidle, hw⟩ |
    ⟨hidle, i, htarget, hw⟩ <;> rw [hw]
  · exact .quiet h (undisturbed_busError _)
  · exact .accept rest v hidle
  · exact .acknowledge (at_offset (o := 0x014) hwidth ho)
  · exact .reset (at_offset (o := 0x018) hwidth ho) (.inr ⟨v, rfl, hsrst⟩)
  · exact .enable h _
  · exact .parameter rest v s.lzWindow s.lzLookahead hidle
  · exact .parameter rest s.inLen v s.lzLookahead hidle
  · exact .parameter rest s.inLen s.lzWindow v hidle
  · exact .input h hidle htarget

theorem stepEffect_perform {s : State} {op : HostOp} {rest : List HostOp} (h : HostPerforms s op rest) :
    StepEffect s (perform op (s.afterIssue rest)) := by
  cases op with
  | read off width => exact .quiet h (undisturbed_hostRead off width _)
  | write off width v => exact stepEffect_busWrite h
  | reset => exact .reset h (.inl rfl)
  | poll => exact .quiet h (undisturbed_poll _)
  | copyOut => exact .quiet h (undisturbed_copyOut _)

/-- Every state has a next one, by one of the events (R71, R319, R321). -/
theorem step_effect (s : State) : ∃ t, step s = .next t ∧ StepEffect s t := by
  rcases step_cases s with ⟨hidle, -, hs⟩ | ⟨op, rest, h, hs⟩ | ⟨e, he, hsteps, -, hs⟩ | ⟨e, r, h, hs, hr⟩
  · exact ⟨s, hs, .nothing hidle⟩
  · exact ⟨_, hs, stepEffect_perform h⟩
  · exact ⟨_, hs, .wait he hsteps⟩
  · refine ⟨_, hs, .complete h fun out hout => ?_⟩
    rcases hr with ⟨i, -, rfl⟩ | ⟨x, -, rfl⟩
    · obtain ⟨-, -, hfits⟩ := execResult_eq_ok hout
      exact hfits
    · cases hout

theorem stepEffect_of_step {s t : State} (h : step s = .next t) : StepEffect s t := by
  obtain ⟨u, hu, heffect⟩ := step_effect s
  rw [hu] at h
  cases h
  exact heffect

end Sys2Proof.Machine
end

section
/-! PROOFS. The invariant (10_state R26, R35, R39, R42; 00_scope R8): each event of `StepEffect` keeps it, and
the reset state has it. -/

namespace Sys2Proof.Machine

open Sys2Proof.Spec

/-! ### The events of the host -/

theorem inv_undisturbed {s t : State} (h : s.Inv) (hquiet : Undisturbed s t) : t.Inv where
  inCapLegal := by rw [hquiet.inCap]; exact h.inCapLegal
  outCapLegal := by rw [hquiet.outCap]; exact h.outCapLegal
  inBufCanonical := by rw [hquiet.inCap, hquiet.inBuf]; exact h.inBufCanonical
  outBufCanonical := by rw [hquiet.outCap, hquiet.outBuf]; exact h.outBufCanonical
  outputSpecified := by rw [hquiet.outBuf, hquiet.outLen]; exact h.outputSpecified
  outputFits := by rw [hquiet.outLen, hquiet.outCap]; exact h.outputFits
  codeDefined := by rw [hquiet.errcode]; exact h.codeDefined
  codeIffErr := by rw [hquiet.err, hquiet.errcode]; exact h.codeIffErr
  errEmpty := by rw [hquiet.err, hquiet.outLen]; exact h.errEmpty
  busyClear := by rw [State.busy, hquiet.engine, hquiet.done, hquiet.err]; exact h.busyClear
  latched := by
    rw [hquiet.engine, hquiet.inLen, hquiet.statOrig, hquiet.lzWindow, hquiet.lzLookahead]
    exact h.latched
  drawsMade := by
    obtain ⟨hin, hout, hne⟩ := h.drawsMade
    rw [hquiet.inBuf, hquiet.outBuf]
    exact ⟨hin.trans_le hquiet.draws, hout.trans_le hquiet.draws, hne⟩

/-- The invariant does not speak of the host's lists and turns. -/
theorem inv_afterIssue {s : State} (h : s.Inv) (rest : List HostOp) : (s.afterIssue rest).Inv := { h with }

/-- A reset needs of its state only that the capacities are legal (R340). -/
theorem inv_resetBlock {s : State} (hin : Config.capLegal s.inCap = true)
    (hout : Config.capLegal s.outCap = true) : (resetBlock s).Inv where
  inCapLegal := hin
  outCapLegal := hout
  inBufCanonical := wf_nil _
  outBufCanonical := wf_nil _
  outputSpecified := rfl
  outputFits := Nat.zero_le _
  codeDefined := Nat.zero_le _
  codeIffErr := by simp
  errEmpty := nofun
  busyClear := nofun
  latched := nofun
  drawsMade := by simp

/-- An acceptance latches the registers as they stand (R39, R141). -/
theorem inv_accept {s : State} (h : s.Inv) (w : Word) : (accept w s).Inv :=
  { h with
    codeDefined := Nat.zero_le _
    codeIffErr := by simp [accept]
    errEmpty := nofun
    busyClear := fun _ => ⟨rfl, rfl⟩
    latched := by
      rintro e ⟨⟩
      exact ⟨Nat.le_add_left _ _, rfl, rfl, rfl, rfl⟩
    drawsMade := by
      obtain ⟨hin, hout, hne⟩ := h.drawsMade
      exact ⟨hin.trans (Nat.lt_succ_self _), hout.trans (Nat.lt_succ_self _), hne⟩ }

theorem inv_writeStatus {s : State} (h : s.Inv) (v : Word) : (writeStatus v s).Inv :=
  { h with
    busyClear := fun hbusy => by
      obtain ⟨hdone, herr⟩ := h.busyClear hbusy
      exact ⟨by rw [writeStatus_done, hdone, Bool.false_and], herr⟩ }

theorem inv_irqEn {s : State} (h : s.Inv) (b : Bool) : State.Inv { s with irqEn := b } := { h with }

/-- Without a command in flight no record has to agree with the parameters (R39). -/
theorem inv_parameters {s : State} (h : s.Inv) (hidle : s.engine = none) (len win look : Word) :
    State.Inv { s with inLen := len, lzWindow := win, lzLookahead := look } :=
  { h with
    latched := fun e he => by
      rw [show s.engine = some e from he] at hidle
      cases hidle }

/-- A write that reaches IN_BUF stores below its capacity, all four bytes of a word too (R63, R64, R65). -/
theorem inv_writeInBuf {s : State} (h : s.Inv) {off : Offset} {width i : Nat}
    (htarget : target s off width = some (.inBuf i)) (v : Word) : (writeInBuf i width v s).Inv := by
  obtain ⟨hbase, hi, hcap, hwidth⟩ := target_inBuf htarget
  have hcanonical : (writeInBuf i width v s).inBuf.cells.wf s.inCap.toNat = true := by
    rw [writeInBuf_inBuf]
    split
    · exact wf_setByte _ h.inBufCanonical hcap
    · rename_i hword
      have haligned := (hwidth.resolve_left hword).2
      obtain ⟨hmul, -, -⟩ := capLegal_bound h.inCapLegal
      refine wf_setWord _ h.inBufCanonical ?_
      simp only [inBase] at hbase hi
      omega
  have hepoch : (writeInBuf i width v s).inBuf.epoch = s.inBuf.epoch := by
    rw [writeInBuf_inBuf]
    split
    · exact setByte_epoch _ _ _
    · exact setWord_epoch _ _ _
  exact
    { h with
      inBufCanonical := hcanonical
      drawsMade := by
        rw [hepoch]
        exact h.drawsMade }

/-! ### The events of the engine -/

theorem inv_waitStep {s : State} (h : s.Inv) {e : Engine} (he : s.engine = some e) (hsteps : 1 < e.steps) :
    (waitStep e s).Inv :=
  { h with
    busyClear := fun _ => h.busyClear ((busy_eq_true_iff s).mpr ⟨e, he⟩)
    latched := by
      rintro e' ⟨⟩
      obtain ⟨-, hregisters⟩ := h.latched e he
      exact ⟨Nat.le_sub_one_of_lt hsteps, hregisters⟩
    drawsMade := by
      obtain ⟨hin, hout, hne⟩ := h.drawsMade
      exact ⟨hin.trans (Nat.lt_succ_self _), hout.trans (Nat.lt_succ_self _), hne⟩ }

/-- The draw that a completion takes for OUT_BUF is a new one (logs 6 and 12). -/
theorem drawsMade_complete {s : State} (h : s.Inv) (out : List Byte) :
    s.inBuf.epoch < s.draws + 1 ∧ (Buffer.holding out s.draws).epoch < s.draws + 1 ∧
      s.inBuf.epoch ≠ (Buffer.holding out s.draws).epoch := by
  obtain ⟨hin, -, -⟩ := h.drawsMade
  exact ⟨hin.trans (Nat.lt_succ_self _), Nat.lt_succ_self _, hin.ne⟩

theorem inv_completeOk {s : State} (h : s.Inv) {out : List Byte} (hfits : Fits s out) :
    (completeOk out s).Inv := by
  have hlen : (completeOk out s).outLen.toNat = out.length := (completedOk_completeOk hfits).length
  exact
    { h with
      outBufCanonical := wf_ofBytes hfits
      outputSpecified := by
        rw [hlen, completeOk_outBuf, holding_cells, fst_ofBytes, List.range_eq_range']
      outputFits := hlen.trans_le hfits
      codeDefined := Nat.zero_le _
      codeIffErr := by simp
      errEmpty := nofun
      busyClear := nofun
      latched := nofun
      drawsMade := drawsMade_complete h out }

/-- Every error kind has a code from 1 to 6 (R310). -/
theorem code_bounds (k : ErrKind) : 1 ≤ k.code.toNat ∧ k.code.toNat ≤ 6 := by
  cases k <;> decide

theorem inv_completeErr {s : State} (h : s.Inv) (k : ErrKind) : (completeErr k s).Inv :=
  { h with
    outBufCanonical := wf_nil _
    outputSpecified := rfl
    outputFits := Nat.zero_le _
    codeDefined := (code_bounds k).2
    codeIffErr := by
      refine iff_of_true rfl fun hzero => ?_
      have hpos := (code_bounds k).1
      rw [show k.code = 0 from hzero] at hpos
      exact absurd hpos (by decide)
    errEmpty := fun _ => rfl
    busyClear := nofun
    latched := nofun
    drawsMade := drawsMade_complete h [] }

theorem inv_complete {s : State} (h : s.Inv) {r : Result} (hfits : ∀ out, r = .ok out → Fits s out) :
    (complete r s).Inv := by
  cases r with
  | ok out => exact inv_completeOk h (hfits out rfl)
  | error k => exact inv_completeErr h k

/-! ### The obligations -/

/-- Settles O38: event by event, as `StepEffect` lists them. -/
theorem everyStepKeepsTheInvariant : Obligations.EveryStepKeepsTheInvariant := by
  intro s t h hstep
  cases stepEffect_of_step hstep with
  | nothing => exact h
  | quiet _ hquiet => exact inv_undisturbed (inv_afterIssue h _) hquiet
  | reset => exact inv_resetBlock h.inCapLegal h.outCapLegal
  | accept rest w => exact inv_accept (inv_afterIssue h rest) w
  | acknowledge => exact inv_writeStatus (inv_afterIssue h _) _
  | enable _ b => exact inv_irqEn (inv_afterIssue h _) b
  | parameter rest len win look hidle => exact inv_parameters (inv_afterIssue h rest) hidle len win look
  | input _ _ htarget => exact inv_writeInBuf (inv_afterIssue h _) htarget _
  | wait he hsteps => exact inv_waitStep h he hsteps
  | complete _ hfits => exact inv_complete h hfits

/-- A capacity made from any free number is legal (R8). -/
theorem capLegal_capOf (d : Nat) : Config.capLegal (Config.capOf d) = true := by
  have hvalue : (Config.capOf d).toNat = 4 * (d % 0x40000 + 1) := by
    rw [Config.capOf, BitVec.toNat_ofNat]
    omega
  simp only [Config.capLegal, hvalue, Bool.and_eq_true, beq_iff_eq, decide_eq_true_eq]
  omega

/-- The machine's reset state is what a reset makes before any draw (R340). -/
theorem reset_eq_resetBlock : State.reset = resetBlock { State.reset with draws := 0 } := rfl

/-- Settles O37: the reset state is a reset's, and every capacity of R8 is legal. -/
theorem resetStateHasTheInvariant : Obligations.ResetStateHasTheInvariant := by
  unfold Obligations.ResetStateHasTheInvariant
  rw [reset_eq_resetBlock]
  exact inv_resetBlock (capLegal_capOf _) (capLegal_capOf _)

end Sys2Proof.Machine
end

section
/-! PROOFS. Rules of every step, read off `StepEffect`: what sets and clears the sticky flags (10_state R26),
what changes the buffers (10_state R34, 20_memory R73), that no step stops the machine (60_exceptions R319,
R321), and that every command in flight ends (40_commands R144). -/

namespace Sys2Proof.Machine

open Sys2Proof.Spec

/-! ### The end of a command (R144) -/

/-- A run of finitely many steps reaches a state with no command in flight. -/
def Ends (s : State) : Prop := ∃ n t, Host.Core.run core n s = .next t ∧ t.busy = false

theorem ends_of_idle {s : State} (h : s.busy = false) : Ends s := ⟨0, s, rfl, h⟩

theorem run_succ_of_step {s t : State} (h : step s = .next t) (k : Nat) :
    Host.Core.run core (k + 1) s = Host.Core.run core k t := by
  have hstep : core.step s = .next t := h
  simp only [Host.Core.run, hstep]

theorem ends_of_step {s t : State} (h : step s = .next t) (ht : Ends t) : Ends s := by
  obtain ⟨n, u, hrun, hidle⟩ := ht
  exact ⟨n + 1, u, (run_succ_of_step h n).trans hrun, hidle⟩

theorem complete_busy (r : Result) (s : State) : (complete r s).busy = false := by
  cases r <;> rfl

/-- While a command is in flight, every event ends it, or uses up a host turn of it, or one of its busy
steps. -/
theorem stepEffect_progress {s t : State} {e : Engine} (he : s.engine = some e) (h : StepEffect s t) :
    t.busy = false ∨ (t.engine = some e ∧ t.hostTurns < s.hostTurns) ∨
      ∃ e', t.engine = some e' ∧ e'.steps < e.steps := by
  have notIdle : ¬ s.engine = none := by rw [he]; nofun
  have turnUsed {op : HostOp} {rest : List HostOp} (hop : HostPerforms s op rest) :
      s.hostTurns - 1 < s.hostTurns := Nat.sub_one_lt_of_lt (hostTurns_pos_of_hostPerforms hop he)
  cases h with
  | nothing hidle => exact absurd hidle notIdle
  | quiet hop hquiet =>
    exact .inr (.inl ⟨hquiet.engine.trans he, hquiet.hostTurns.trans_lt (turnUsed hop)⟩)
  | reset => exact .inl (resetBlock_busy _)
  | accept _ _ hidle => exact absurd hidle notIdle
  | acknowledge hop => exact .inr (.inl ⟨he, turnUsed hop⟩)
  | enable hop => exact .inr (.inl ⟨he, turnUsed hop⟩)
  | parameter _ _ _ _ hidle => exact absurd hidle notIdle
  | input _ hidle => exact absurd hidle notIdle
  | wait he' hsteps =>
    cases he.symm.trans he'
    exact .inr (.inr ⟨_, waitStep_engine e s, Nat.sub_one_lt_of_lt hsteps⟩)
  | complete => exact .inl (complete_busy _ _)

/-- Busy steps are used up, and between two of them host turns are (log 4). -/
theorem ends_of_engine (s : State) (e : Engine) (he : s.engine = some e) : Ends s := by
  obtain ⟨t, hstep, heffect⟩ := step_effect s
  rcases stepEffect_progress he heffect with hidle | ⟨ht, hturns⟩ | ⟨e', ht, hsteps⟩
  · exact ends_of_step hstep (ends_of_idle hidle)
  · exact ends_of_step hstep (ends_of_engine t e ht)
  · exact ends_of_step hstep (ends_of_engine t e' ht)
termination_by (e.steps, s.hostTurns)

/-- Settles O8: by induction on the busy steps left and, between two of them, on the host's turns. -/
theorem everyAcceptedCommandEnds : Obligations.EveryAcceptedCommandEnds := by
  intro s hbusy
  obtain ⟨e, he⟩ := (busy_eq_true_iff s).mp hbusy
  exact ends_of_engine s e he

/-- Settles O9: by induction on the length of the run, every state having a next one. -/
theorem noRunEverStops : Obligations.NoRunEverStops := by
  intro k
  induction k with
  | zero => exact fun s => ⟨s, rfl⟩
  | succ k ih =>
    intro s
    obtain ⟨t, hstep, -⟩ := step_effect s
    obtain ⟨u, hu⟩ := ih t
    exact ⟨u, (run_succ_of_step hstep k).trans hu⟩

/-! ### The sticky flags (R26) -/

/-- Settles O30: of the events, only the acknowledgement and the reset write BUSERR otherwise than to set
it. -/
theorem buserrIsSticky : Obligations.BuserrIsSticky := by
  intro s t hstep hset hclear
  have stillSet {P : Prop} (h : t.buserr = true) : P := by
    rw [h] at hclear
    cases hclear
  cases stepEffect_of_step hstep with
  | quiet _ hquiet => exact stillSet (hquiet.buserr hset)
  | reset h hreset => exact ⟨_, _, h, hreset.imp_right .inr⟩
  | @acknowledge rest v h =>
    rw [writeStatus_buserr, afterIssue_buserr, hset, Bool.true_and, Bool.not_eq_false'] at hclear
    exact ⟨_, _, h, .inr (.inl ⟨v, rfl, hclear⟩)⟩
  | complete => exact stillSet ((kept_complete _ s).buserr.trans hset)
  | _ => exact stillSet hset

/-- Settles O33: of the events, only a completion writes DONE otherwise than to clear it. -/
theorem doneIsSetOnlyByCompletion : Obligations.DoneIsSetOnlyByCompletion := by
  intro s t hstep hclear hset
  have stillClear {P : Prop} (h : t.done = false) : P := by
    rw [h] at hset
    cases hset
  cases stepEffect_of_step hstep with
  | quiet _ hquiet => exact stillClear (hquiet.done.trans hclear)
  | reset => exact stillClear (resetBlock_done _)
  | accept => exact stillClear (acceptWith_done _ _ _ _)
  | acknowledge => exact stillClear (by rw [writeStatus_done, afterIssue_done, hclear, Bool.false_and])
  | complete h => exact ⟨_, h⟩
  | _ => exact stillClear hclear

/-! ### The buffers (R34, R69, R73, R348) -/

/-- A write that reaches IN_BUF goes to its window (R61). -/
theorem inWindow_of_target {s : State} {off : Offset} {width i : Nat}
    (h : target s off width = some (.inBuf i)) : InWindow s off.toNat := by
  obtain ⟨hbase, hi, hcap, -⟩ := target_inBuf h
  simp only [inBase] at hbase hi
  exact ⟨hbase, by omega⟩

/-- Settles O31: of the events, only the reset and the write that reaches IN_BUF change it, the latter while
idle. -/
theorem inputBufferChangesOnlyByHostOrReset : Obligations.InputBufferChangesOnlyByHostOrReset := by
  intro s t hstep hchange
  cases stepEffect_of_step hstep with
  | quiet _ hquiet => exact absurd hquiet.inBuf hchange
  | reset h hreset => exact ⟨_, _, h, hreset.imp_right .inl⟩
  | @input rest off width i v h hidle htarget =>
    exact ⟨_, _, h, .inr (.inr ⟨(busy_eq_false_iff s).mpr hidle, off, width, v, rfl,
      inWindow_of_target htarget⟩)⟩
  | complete => exact absurd (kept_complete _ s).inBuf hchange
  | _ => exact absurd rfl hchange

/-- Settles O32: of the events, only the reset and the completion write OUT_BUF or OUT_LEN. -/
theorem outputStandsUntilNextCompletionOrReset : Obligations.OutputStandsUntilNextCompletionOrReset := by
  intro s t hstep hchange
  have stands {P : Prop} (hbuf : t.outBuf = s.outBuf) (hlen : t.outLen = s.outLen) : P :=
    absurd ⟨hbuf, hlen⟩ (not_and_or.mpr hchange)
  cases stepEffect_of_step hstep with
  | quiet _ hquiet => exact stands hquiet.outBuf hquiet.outLen
  | reset h hreset => exact .inr ⟨_, _, h, hreset⟩
  | complete h => exact .inl ⟨_, h⟩
  | _ => exact stands rfl rfl

end Sys2Proof.Machine
end

section
/-! PROOFS. Single accesses of the host: reads (20_memory R68), POLL and COPYOUT (30_encoding R98), acceptance
(40_commands R141), the parameters (10_state R29 to R31) and the reset (70_reset R340). -/

namespace Sys2Proof.Machine

open Sys2Proof.Spec

/-! ### Legal reads (R37, R68) -/

/-- What a legal access reaches is there (R61 to R63). -/
theorem target_of_legalAccess {s : State} {off : Offset} {width : Nat} (h : LegalAccess s off width) :
    ∃ tg, target s off width = some tg := by
  rcases h with ⟨hreg, rfl⟩ | ⟨hwindow, hwidth⟩
  · obtain ⟨r, hr, -⟩ := regAt_of_regOffset hreg
    exact ⟨_, target_of_reg hr⟩
  · by_cases hin : InWindow s off.toNat
    · exact ⟨_, target_of_in hin hwidth⟩
    · obtain ⟨hbase, hend⟩ := hwindow.resolve_left hin
      have habove : ¬ off.toNat < 0x1000 := by omega
      have houtside : ¬ (inBase ≤ off.toNat ∧ off.toNat < inBase + s.inCap.toNat) := hin
      have hinside : outBase ≤ off.toNat ∧ off.toNat < outBase + s.outCap.toNat := ⟨hbase, hend⟩
      refine ⟨.outBuf (off.toNat - outBase), ?_⟩
      rw [target, if_neg habove, if_neg houtside, if_pos hinside,
        if_pos ((bufferAccess_iff _ _).mpr hwidth)]

/-- An access that reaches OUT_BUF goes to its window (R61). -/
theorem outWindow_of_target {s : State} {off : Offset} {width i : Nat}
    (h : target s off width = some (.outBuf i)) : OutWindow s off.toNat := by
  rw [target] at h
  split at h
  · split at h
    · cases hr : regAt off.toNat <;> rw [hr] at h <;> cases h
    · cases h
  · split at h
    · split at h <;> cases h
    · split at h
      · rename_i hwindow
        exact hwindow
      · cases h

/-- A register read has a side effect only where it draws an unspecified value (R32, R37). -/
theorem readReg_state (r : Reg) (s : State) :
    (readReg r s).2 = s ∨
      (s.busy = true ∧ r = .outLen ∧ (readReg r s).2 = { s with draws := s.draws + 1 }) := by
  cases r with
  | outLen =>
    cases hbusy : s.busy with
    | false => exact .inl (by rw [readReg_outLen_of_idle hbusy])
    | true => exact .inr ⟨rfl, rfl, by rw [readReg, if_pos hbusy, readUnspecified]⟩
  | _ => exact .inl rfl

/-- Settles O17: a legal read reaches a register or a buffer, and only OUT_LEN and OUT_BUF draw a value. -/
theorem legalReadsHaveNoSideEffect : Obligations.LegalReadsHaveNoSideEffect := by
  intro s off width hlegal
  obtain ⟨tg, htarget⟩ := target_of_legalAccess hlegal
  cases tg with
  | reg r =>
    obtain ⟨rfl, hr⟩ := target_reg htarget
    rw [busRead_reg s (regAt_eq hr)]
    rcases readReg_state r s with hsame | ⟨hbusy, rfl, hdraw⟩
    · exact .inl hsame
    · exact .inr ⟨hbusy, .inl (regAt_eq hr), hdraw⟩
  | inBuf i => exact .inl (by simp only [busRead, htarget])
  | outBuf i =>
    cases hbusy : s.busy with
    | false => exact .inl (by simp [busRead, htarget, hbusy])
    | true =>
      exact .inr ⟨rfl, .inr (outWindow_of_target htarget), by
        simp [busRead, htarget, hbusy, readUnspecified]⟩

/-- Settles O27: the block is left alone by the bookkeeping of the access and by the read. -/
theorem hostReadsLeaveTheBlockAlone : Obligations.HostReadsLeaveTheBlockAlone := by
  intro s off width rest h
  have hquiet : Undisturbed (s.afterIssue rest) (hostRead off width (s.afterIssue rest)) :=
    undisturbed_hostRead off width _
  exact ⟨_, hostStep_performs h, hquiet.done, hquiet.err, hquiet.errcode, hquiet.irqEn, hquiet.inLen,
    hquiet.lzWindow, hquiet.lzLookahead, hquiet.outLen, hquiet.statOrig, hquiet.engine, hquiet.inBuf,
    hquiet.outBuf, hquiet.inCap, hquiet.outCap, hquiet.buserr⟩

/-- Settles O26: the host's step performs its oldest entry. -/
theorem hostAccessTakesEffectInOneStep : Obligations.HostAccessTakesEffectInOneStep := by
  intro s off width v rest
  refine ⟨hostStep_performs, fun h => ⟨_, hostStep_performs h, ?_⟩⟩
  have hreturned : (busRead off width (s.afterIssue rest)).2.returned = s.returned := by
    rcases busRead_state off width (s.afterIssue rest) with hread | ⟨-, hread⟩ | hread <;> rw [hread] <;> rfl
  rw [perform, hostRead, hreturned]

/-! ### POLL and COPYOUT (R98) -/

theorem busRead_status (s : State) : busRead 0x014 4 s = (s.statusWord, s) := busRead_reg (r := .status) s rfl

theorem hostRead_status (s : State) :
    hostRead 0x014 4 s = { s with returned := s.statusWord :: s.returned } := by
  rw [hostRead, busRead_status]

theorem perform_poll_busy {s : State} (h : s.busy = true) : perform .poll s =
    { s with returned := s.statusWord :: s.returned, program := .poll :: s.program } := by
  rw [perform, busRead_status, hostRead_status, if_pos ((statusWord_busy s).trans h)]

theorem perform_poll_idle {s : State} (h : s.busy = false) :
    perform .poll s = { s with returned := s.statusWord :: s.returned } := by
  rw [perform, busRead_status, hostRead_status, if_neg (by rw [statusWord_busy, h]; nofun)]

theorem busRead_outLen_of_idle {s : State} (h : s.busy = false) :
    busRead 0x024 4 s = (s.outLen, s) :=
  (busRead_reg (r := .outLen) s rfl).trans (readReg_outLen_of_idle h)

theorem perform_copyOut_idle {s : State} (h : s.busy = false) : perform .copyOut s =
    { s with returned := s.outLen :: s.returned, program := copyReads s.outLen.toNat ++ s.program } := by
  rw [perform, hostRead, busRead_outLen_of_idle h]

/-- Settles O28: what the read returns decides what the host's list goes on with. -/
theorem pollAndCopyOutFollowTheirExpansions : Obligations.PollAndCopyOutFollowTheirExpansions := by
  refine fun s rest => ⟨fun h => ?poll, fun h hidle => ?copyOut⟩
  case poll =>
    refine ⟨_, hostStep_performs h, ?_⟩
    cases hbusy : s.busy with
    | false =>
      rw [perform_poll_idle (s := s.afterIssue rest) hbusy]
      exact ⟨rfl, rfl⟩
    | true =>
      rw [perform_poll_busy (s := s.afterIssue rest) hbusy]
      exact ⟨rfl, rfl⟩
  case copyOut =>
    refine ⟨_, hostStep_performs h, ?_⟩
    rw [perform_copyOut_idle (s := s.afterIssue rest) hidle]
    exact ⟨rfl, rfl⟩

/-! ### Acceptance, parameters and reset (R29 to R31, R141, R340) -/

/-- Settles O6: the write is an acceptance, which latches the registers as they stand. -/
theorem idleCommandWriteIsAccepted : Obligations.IdleCommandWriteIsAccepted := by
  intro s w rest hidle hprogram
  have hperform : perform (.write 0x010 4 w) (s.afterIssue rest) = accept w (s.afterIssue rest) :=
    (busWrite_cmd w _).trans
      (whenIdle_of_idle (s := s.afterIssue rest) ((busy_eq_false_iff s).mpr hidle) _)
  refine ⟨accept w (s.afterIssue rest), latch (Config.busySteps s.draws + 1) w (s.afterIssue rest), ?_, rfl,
    latch_decoded _ _ _, rfl, rfl, rfl, Nat.le_add_left _ _, rfl, rfl, rfl, rfl, rfl, rfl, rfl, rfl, rfl,
    rfl, rfl, rfl, rfl, rfl, rfl⟩
  rw [hostStep_performs ⟨hprogram, .inl hidle⟩, hperform]

/-- Settles O20: each of the three registers is stored by its own write, which only BUSY locks. -/
theorem idleParameterWritesStore : Obligations.IdleParameterWritesStore := fun s v hidle =>
  ⟨(busWrite_reg (r := .inLen) v s rfl).trans (whenIdle_of_idle hidle _),
    (busWrite_reg (r := .lzWindow) v s rfl).trans (whenIdle_of_idle hidle _),
    (busWrite_reg (r := .lzLookahead) v s rfl).trans (whenIdle_of_idle hidle _)⟩

/-- A byte of a buffer that lists nothing is free (R340; log 5). -/
theorem byte_nil (epoch i : Nat) : Buffer.byte ⟨[], epoch⟩ i = Config.bufferByte epoch i := rfl

/-- Settles O35: the reset is `resetBlock`, and both its buffers list nothing. -/
theorem resetLeavesTheSpecifiedValues : Obligations.ResetLeavesTheSpecifiedValues := by
  refine ⟨fun s rest h => ⟨resetBlock (s.afterIssue rest), hostStep_performs h, rfl, rfl, rfl, rfl, rfl, rfl,
    rfl, rfl, rfl, rfl, rfl, rfl, rfl, rfl, rfl, byte_nil _, byte_nil _⟩, ?_⟩
  exact ⟨rfl, rfl, rfl, rfl, rfl, rfl, rfl, rfl, rfl⟩

end Sys2Proof.Machine
end

section
/-! PROOFS. Commands: which the engine runs (40_commands R142 to R144), what every one leaves unchanged (R319,
R344), which errors belong to which (60_exceptions R312, R313, R315), and the Huffman tree with its codewords
(42_huffman R186, R190, R194). -/

namespace Sys2Proof.Machine

open Sys2Proof.Spec

/-! ### What the engine runs (R92, R142, R144) -/

/-- Settles O3: each word is looked up in the map by its OPCODE, after the check of RSVD. -/
theorem writtenOutWordsDecode : Obligations.WrittenOutWordsDecode :=
  ⟨rfl, rfl, rfl, rfl, rfl, rfl, rfl, rfl⟩

/-- A placed word is about to complete (log 10). -/
theorem completing_placeCommand (w : Word) (s : State) : Completing (placeCommand w s) (latch 1 w s) :=
  ⟨rfl, Nat.le_refl 1, rfl⟩

theorem withFetchWord_encode (s : State) (i : Instr) :
    s.withFetchWord 32 (encode i).toNat = placeCommand (encode i) s := by
  rw [State.withFetchWord, Nat.mod_eq_of_lt (encode i).isLt, BitVec.ofNat_toNat, BitVec.setWidth_eq]

/-- Settles O4: the completing step is `step_completing`, and a command's word decodes to it (O1). -/
theorem stepRunsTheDecodedCommand : Obligations.StepRunsTheDecodedCommand := by
  refine ⟨fun s e i => step_completing, fun s i => ?_⟩
  rw [withFetchWord_encode]
  exact step_completing (completing_placeCommand (encode i) s)
    ((decodeIsTheInverseOfEncode (encode i) i).mpr rfl)

/-- Settles O7: the wait step writes the record and the model's own two counters. -/
theorem waitStepOnlyCountsDown : Obligations.WaitStepOnlyCountsDown := fun _ _ he hsteps hturn =>
  ⟨_, step_wait he hturn hsteps, rfl⟩

/-! ### What every command leaves unchanged (R142, R319, R344) -/

/-- ERR, ERRCODE and OUT_LEN after a completion (R142, R310, R319). -/
theorem complete_status (r : Result) (s : State) :
    ((complete r s).err = false ∧ (complete r s).errcode = 0) ∨
      ((complete r s).err = true ∧ 1 ≤ (complete r s).errcode.toNat ∧
        (complete r s).errcode.toNat ≤ 6 ∧ (complete r s).outLen = 0) := by
  cases r with
  | ok out => exact .inl ⟨rfl, rfl⟩
  | error k => exact .inr ⟨rfl, (code_bounds k).1, (code_bounds k).2, rfl⟩

/-- Settles O10: every command is a completion with some result. -/
theorem commandsChangeOnlyOutputAndStatus : Obligations.CommandsChangeOnlyOutputAndStatus := by
  intro i s t hexec
  rw [exec_eq_complete] at hexec
  cases hexec
  have hkept := kept_complete (execResult (commandFn i) s) s
  exact ⟨hkept, fun a => by rw [hkept.inBuf], complete_busy _ s, complete_done _ s, complete_status _ s⟩

/-! ### The errors of the commands (R312, R313, R315) -/

theorem decoder_of_format_mem {i : Instr} (h : ErrKind.format ∈ errorKinds i) :
    i = .bsPack ∨ i = .bsUnpack ∨ i = .hufRawDec ∨ i = .hufTxtDec ∨ i = .lzRawDec ∨ i = .lzTxtDec ∨
      i = .rleRawDec ∨ i = .rleTxtDec := by
  cases i <;> simp [errorKinds] at h ⊢

theorem encoder_of_range_mem {i : Instr} (h : ErrKind.range ∈ errorKinds i) :
    i = .lzRawEnc ∨ i = .hufRawEnc ∨ i = .hufTxtEnc ∨ i = .hufRawTable ∨ i = .hufTxtTable := by
  cases i <;> simp [errorKinds] at h ⊢

theorem illegalCommand_notMem_errorKinds (i : Instr) : ErrKind.illegalCommand ∉ errorKinds i := by
  cases i <;> decide

/-- Settles O14: these errors are none of Exec's own checks, so each comes from the command's function. -/
theorem errorKindsBelongToTheirCommands : Obligations.ErrorKindsBelongToTheirCommands := by
  intro i s
  have raised {k : ErrKind} (h : EndsIn i s k) (hp : k ≠ .parameter) (hc : k ≠ .capacity) :
      k ∈ errorKinds i := commandFn_raisesOnly i _ _ _ k (commandFn_of_endsIn h hp hc)
  exact ⟨fun h => decoder_of_format_mem (raised h (by decide) (by decide)),
    fun h => encoder_of_range_mem (raised h (by decide) (by decide)),
    fun h => illegalCommand_notMem_errorKinds i (raised h (by decide) (by decide))⟩

/-! ### The Huffman tree (R186, R190, R194) -/

/-- A sequence has at most one tree (R186). -/
theorem treeOf_unique {sym : List Nat} {tree tree' : HufTree} (h : TreeOf sym tree)
    (h' : TreeOf sym tree') : tree' = tree := by
  obtain ⟨-, hbuild⟩ := treeOf_iff.mp h
  obtain ⟨-, hbuild'⟩ := treeOf_iff.mp h'
  rw [hbuild] at hbuild'
  cases hbuild'
  rfl

/-- The symbols that have codewords in a sequence's tree are those of the sequence (R189). -/
theorem mem_iff_codeIn {sym : List Nat} {tree : HufTree} (h : TreeOf sym tree) (x : Nat) :
    x ∈ sym ↔ ∃ c, CodeIn tree x c := by
  rw [← (treeOf_syms h).2]
  exact ⟨exists_codeIn, fun ⟨_, hc⟩ => codeIn_mem_syms hc⟩

/-- Settles O47: the builder gives the one tree, whose leaves are the sequence's symbols, each once. -/
theorem huffmanTreeIsUniqueAndPrefixFree : Obligations.HuffmanTreeIsUniqueAndPrefixFree := by
  intro sym htwo
  have hlen := two_le_freq_iff.mpr htwo
  obtain ⟨tree, hbuild, -⟩ := buildTree_builds hlen
  have htree : TreeOf sym tree := treeOf_iff.mpr ⟨hlen, hbuild⟩
  have hdistinct := (treeOf_syms htree).1
  exact ⟨tree, htree, fun _ => treeOf_unique htree, treeOf_weight htree, mem_iff_codeIn htree,
    fun _ _ _ => codeIn_unique hdistinct, fun _ _ => treeOf_code_ne_nil htree,
    fun _ _ _ _ hx hy hne hbegins => hne (codeIn_prefix_free hdistinct hx hy hbegins).1⟩

/-- Only ParameterError stands for an IN_LEN above IN_CAP (R143). -/
theorem legalLen_of_endsIn {i : Instr} {s : State} {k : ErrKind} (h : EndsIn i s k)
    (hp : k ≠ .parameter) : LegalLen s := by
  rcases execResult_eq_error (endsIn_iff.mp h) with ⟨-, hk⟩ | ⟨hlegal, -⟩ | ⟨hlegal, -⟩
  · exact absurd hk hp
  · exact hlegal
  · exact hlegal

/-- The codewords of an input that IN_BUF can hold fit the header, so neither the encoder nor the table
command ends with RangeError (R194). -/
theorem not_endsIn_range {v : Variant} {i : Instr} (hi : i = hufEnc v ∨ i = hufTable v) {s : State}
    (hcap : s.inCap.toNat ≤ 0x100000) : ¬ EndsIn i s .range := by
  intro hends
  have hlegal := legalLen_of_endsIn hends (by decide)
  obtain ⟨sym, hholds, hparts⟩ := huffParts_of_commandFn_eq_error hi (by decide)
    (commandFn_of_endsIn hends (by decide) (by decide))
  have noHeader : ¬ ∃ h data, EncodesTo v sym h data := fun ⟨h, data, he⟩ => by
    rw [huffParts_eq he] at hparts
    cases hparts
  rcases sym_cases sym with hnil | ⟨hne, x, hone⟩ | htwo
  · exact noHeader (encodesTo_exists_of_holds hlegal hcap hholds (.inl hnil))
  · rw [huffParts_degenerate hne hone] at hparts
    cases hparts
  · exact noHeader (encodesTo_exists_of_holds hlegal hcap hholds (.inr htwo))

/-- Settles O48: a longer codeword would need more symbols than IN_BUF can hold, and one of 28 bits fits
the header. -/
theorem codewordsStayWithin28Bits : Obligations.CodewordsStayWithin28Bits :=
  ⟨fun _ _ _ _ hlen htree hc => codeIn_length_le_28 hlen htree hc,
    fun _ _ hcap => ⟨not_endsIn_range (.inl rfl) hcap, not_endsIn_range (.inr rfl) hcap⟩⟩

end Sys2Proof.Machine
end
